-- ==== Sys2Proof/Word.lean ====
section
/-! DEFINITION. The bit widths of HUFFDEC (spec 00_scope.md R5). -/

namespace Sys2Proof

/-- A 32-bit word: a command word, a FREQ entry, a weight, a read address, a read answer (R5 CMD_W, WEIGHT_W, POS_W). -/
abbrev Word := BitVec 32

/-- One byte: a symbol or a raw character (R5 SYM_W). -/
abbrev Byte := BitVec 8

/-- A 16-bit count, the immediate of FADD (R5 IMM_W). -/
abbrev Imm := BitVec 16

/-- A node index (R5 IDX_W). -/
abbrev Idx := BitVec 10

/-- "Absent": the index value `0x3FF` (R5 IDX_W, glossary NIL). -/
def NIL : Idx := 0x3FF

end Sys2Proof
end

