-- ==== Sys2Proof/Syntax.lean ====
section
/-! DEFINITION. The commands of HUFFDEC (spec 30_encoding.md R83) and the assembler's lines (R88, R89). -/

namespace Sys2Proof

/-- The fourteen commands, one constructor per row of the opcode map (R83). Operands have the widths of R82, so each
term is a command the encoding can hold. -/
inductive Instr where
  /-- R110 -/
  | nop
  /-- R111 -/
  | reset
  /-- R112 -/
  | eclr
  /-- R113 -/
  | tdrop
  /-- R130 -/
  | fclr
  /-- R131 -/
  | fadd (a : Byte) (imm : Imm)
  /-- R135 -/
  | build
  /-- R151 -/
  | lbegin
  /-- R153 -/
  | ppush (a : Byte)
  /-- R155 -/
  | insert (a : Byte)
  /-- R158 -/
  | lend
  /-- R171 -/
  | dbegin
  /-- R172 -/
  | dbit (a : Byte)
  /-- R174 -/
  | dend
  deriving DecidableEq, Repr

/-- One line of the notation of R88, or a pseudo-instruction of R89. Operands are the numbers written, not yet known to
fit their field; a string is the list of its character codes. -/
inductive Asm where
  /-- A command without operand (R88). -/
  | plain (i : Instr)
  | fadd (sym imm : Nat)
  | ppush (chr : Nat)
  | insert (sym : Nat)
  | dbit (chr : Nat)
  /-- `COUNT sym` -/
  | count (sym : Nat)
  /-- `COUNTS "text"` -/
  | counts (text : List Nat)
  /-- `FSET32 sym, n`; it sets the entry only when FREQ[sym] = 0, which is the program's to see to (R89) -/
  | fset32 (sym n : Nat)
  /-- `PSTR "path"` -/
  | pstr (path : List Nat)
  /-- `CODE sym, "path"` -/
  | code (sym : Nat) (path : List Nat)
  /-- `DSTR "bits"` -/
  | dstr (bits : List Nat)
  /-- `DECODE "bits"` -/
  | decode (bits : List Nat)
  deriving DecidableEq, Repr

end Sys2Proof
end

