-- ==== Sys2Proof/WellFormed.lean ====
section
/-! DEFINITION. Which assembler lines fit their encoding (spec 30_encoding.md R82, R88, R89). A term of `Instr` needs no
check: its operands are bit vectors of the fields' widths. -/

namespace Sys2Proof

/-- A byte operand is a number 0 to 255 (R88). -/
abbrev byteOk (n : Nat) : Bool := n < 256

/-- The immediate of FADD is a number 0 to 65535 (R88). -/
abbrev immOk (n : Nat) : Bool := n < 65536

/-- The commands that stand alone on a line: those of format Z (R81, R88). -/
def Instr.plainOk : Instr → Bool
  | .nop => true
  | .reset => true
  | .eclr => true
  | .tdrop => true
  | .fclr => true
  | .fadd _ _ => false
  | .build => true
  | .lbegin => true
  | .ppush _ => false
  | .insert _ => false
  | .lend => true
  | .dbegin => true
  | .dbit _ => false
  | .dend => true

/-- Every operand of the line fits its field (R88); `FSET32` takes n below 2^32 (R89). -/
def Asm.wf : Asm → Bool
  | .plain i => i.plainOk
  | .fadd sym imm => byteOk sym && immOk imm
  | .ppush chr => byteOk chr
  | .insert sym => byteOk sym
  | .dbit chr => byteOk chr
  | .count sym => byteOk sym
  | .counts text => text.all (fun c => byteOk c)
  | .fset32 sym n => byteOk sym && decide (n < 4294967296)
  | .pstr path => path.all (fun c => byteOk c)
  | .code sym path => byteOk sym && path.all (fun c => byteOk c)
  | .dstr bits => bits.all (fun c => byteOk c)
  | .decode bits => bits.all (fun c => byteOk c)

end Sys2Proof
end

