-- ==== Sys2Proof/Decode.lean ====
section
/-! DEFINITION. Decoding a command word by the opcode map, the encoder, and the expansion of assembler lines
(spec 30_encoding.md R80 to R89). -/

namespace Sys2Proof

/-- Why a word is illegal (R85). -/
inductive Illegal where
  /-- op is 0xE or 0xF -/
  | reservedOp
  /-- a bit of a "zero" field of its format is 1 -/
  | nonzeroField
  deriving DecidableEq, Repr

/-- What decoding a word gives: one of the fourteen commands, or "illegal" (R84). -/
inductive Decoded where
  | instr (i : Instr)
  | illegal (why : Illegal)
  deriving DecidableEq, Repr

/-- `op = w[31:28]` (R82). -/
def opField (w : Word) : BitVec 4 := w.extractLsb' 28 4

/-- `a = w[23:16]` (R82). -/
def aField (w : Word) : Byte := w.extractLsb' 16 8

/-- `imm = w[15:0]` (R82). -/
def immField (w : Word) : Imm := w.extractLsb' 0 16

/-- The masks of the three formats (R83). -/
abbrev maskZ : Word := 0xFFFFFFFF
abbrev maskS : Word := 0xFF00FFFF
abbrev maskSI : Word := 0xFF000000

/-- Decoding compares the word with the fourteen (match, mask) pairs of R83; if none matches the word is illegal
(R84, R85). It reads no state. -/
def decode (w : Word) : Decoded :=
  if w &&& maskZ = 0x00000000 then .instr .nop
  else if w &&& maskZ = 0x10000000 then .instr .reset
  else if w &&& maskZ = 0x20000000 then .instr .eclr
  else if w &&& maskZ = 0x30000000 then .instr .tdrop
  else if w &&& maskZ = 0x40000000 then .instr .fclr
  else if w &&& maskSI = 0x50000000 then .instr (.fadd (aField w) (immField w))
  else if w &&& maskZ = 0x60000000 then .instr .build
  else if w &&& maskZ = 0x70000000 then .instr .lbegin
  else if w &&& maskS = 0x80000000 then .instr (.ppush (aField w))
  else if w &&& maskS = 0x90000000 then .instr (.insert (aField w))
  else if w &&& maskZ = 0xA0000000 then .instr .lend
  else if w &&& maskZ = 0xB0000000 then .instr .dbegin
  else if w &&& maskS = 0xC0000000 then .instr (.dbit (aField w))
  else if w &&& maskZ = 0xD0000000 then .instr .dend
  else if opField w = 0xE ∨ opField w = 0xF then .illegal .reservedOp
  else .illegal .nonzeroField

/-- Format Z: op, then 28 zero bits (R81). -/
def formatZ (op : BitVec 4) : Word := op ++ (0 : BitVec 28)

/-- Format S: op, 4 zero bits, a, 16 zero bits (R81). -/
def formatS (op : BitVec 4) (a : Byte) : Word := op ++ (0 : BitVec 4) ++ a ++ (0 : BitVec 16)

/-- Format SI: op, 4 zero bits, a, imm (R81). -/
def formatSI (op : BitVec 4) (a : Byte) (imm : Imm) : Word := op ++ (0 : BitVec 4) ++ a ++ imm

/-- The word of a command, by its op and format (R81, R83). -/
def encode : Instr → Word
  | .nop => formatZ 0x0
  | .reset => formatZ 0x1
  | .eclr => formatZ 0x2
  | .tdrop => formatZ 0x3
  | .fclr => formatZ 0x4
  | .fadd a imm => formatSI 0x5 a imm
  | .build => formatZ 0x6
  | .lbegin => formatZ 0x7
  | .ppush a => formatS 0x8 a
  | .insert a => formatS 0x9 a
  | .lend => formatZ 0xA
  | .dbegin => formatZ 0xB
  | .dbit a => formatS 0xC a
  | .dend => formatZ 0xD

/-- The match column of R83. -/
def rowMatch : Instr → Word
  | .nop => 0x00000000
  | .reset => 0x10000000
  | .eclr => 0x20000000
  | .tdrop => 0x30000000
  | .fclr => 0x40000000
  | .fadd _ _ => 0x50000000
  | .build => 0x60000000
  | .lbegin => 0x70000000
  | .ppush _ => 0x80000000
  | .insert _ => 0x90000000
  | .lend => 0xA0000000
  | .dbegin => 0xB0000000
  | .dbit _ => 0xC0000000
  | .dend => 0xD0000000

/-- The mask column of R83. -/
def rowMask : Instr → Word
  | .nop => maskZ
  | .reset => maskZ
  | .eclr => maskZ
  | .tdrop => maskZ
  | .fclr => maskZ
  | .fadd _ _ => maskSI
  | .build => maskZ
  | .lbegin => maskZ
  | .ppush _ => maskS
  | .insert _ => maskS
  | .lend => maskZ
  | .dbegin => maskZ
  | .dbit _ => maskS
  | .dend => maskZ

/-- The 32-bit word whose low `nbits` bits are those of `w` and whose other bits are 0. -/
def tableWord (nbits w : Nat) : Word := BitVec.ofNat 32 (w % 2 ^ nbits)

/-- The command the decoder reads from a word numbered as spec/opcode_table.json numbers it; a command is one 32-bit
word and arrives whole (R80), so no byte order enters. -/
def decodeTableWord (nbits w : Nat) : Option Instr :=
  match decode (tableWord nbits w) with
  | .instr i => some i
  | .illegal _ => none

/-- A number written as a byte operand. -/
def byteOf (n : Nat) : Byte := BitVec.ofNat 8 n

/-- `PSTR`: one PPUSH per character, in order (R89). -/
def expandPath (path : List Nat) : List Instr := path.map (fun c => .ppush (byteOf c))

/-- `DSTR`: one DBIT per character, in order (R89). -/
def expandBits (bits : List Nat) : List Instr := bits.map (fun c => .dbit (byteOf c))

/-- `FSET32 sym, n`: FADD of 65535 as often as it fits, then the remainder if it is not 0 (R89). -/
def expandSet (sym n : Nat) : List Instr :=
  List.replicate (n / 65535) (.fadd (byteOf sym) 65535) ++
    (if n % 65535 = 0 then [] else [.fadd (byteOf sym) (BitVec.ofNat 16 (n % 65535))])

/-- The commands a line of the notation stands for (R88, R89). -/
def Asm.expand : Asm → List Instr
  | .plain i => [i]
  | .fadd sym imm => [.fadd (byteOf sym) (BitVec.ofNat 16 imm)]
  | .ppush chr => [.ppush (byteOf chr)]
  | .insert sym => [.insert (byteOf sym)]
  | .dbit chr => [.dbit (byteOf chr)]
  | .count sym => [.fadd (byteOf sym) 1]
  | .counts text => text.map (fun c => .fadd (byteOf c) 1)
  | .fset32 sym n => expandSet sym n
  | .pstr path => expandPath path
  | .code sym path => expandPath path ++ [.insert (byteOf sym)]
  | .dstr bits => expandBits bits
  | .decode bits => [.dbegin] ++ expandBits bits ++ [.dend]

/-- A well-formed line gives its commands, another is refused. -/
def Asm.assemble (l : Asm) : Option (List Instr) := if l.wf then some l.expand else none

end Sys2Proof
end

