-- ==== Sys2Proof/Config.lean ====
section
/-! DEFINITION. The parameters of HUFFDEC (spec 00_scope.md R5, R6) and the free values. -/

namespace Sys2Proof.Config

/-- The three capacities a model takes as arguments (R5), with the values R5 gives by default. -/
structure Params where
  /-- NODE_N, the number of entries of the node store. -/
  nodeN   : Nat := 512
  /-- PATH_MAX, the capacity of the path buffer. -/
  pathMax : Nat := 255
  /-- OUT_MAX, the capacity of the output buffer. -/
  outMax  : Nat
  deriving DecidableEq, Repr

/-- The ranges R5 allows. -/
abbrev Params.ok (P : Params) : Prop :=
  2 ≤ P.nodeN ∧ P.nodeN ≤ 1023 ∧ 1 ≤ P.pathMax ∧ P.pathMax ≤ 255 ∧ 1 ≤ P.outMax ∧ P.outMax ≤ 4194304

/-- OUT_MAX less one, left OPEN by R5 (D11): any number below 2^22. DESIGN CHOICE (log 7): an opaque constant. -/
opaque outMaxPred : Fin 4194304

/-- OUT_MAX: 1 to 2^22, nothing else is known of it (R5). -/
def outMax : Nat := outMaxPred.val + 1

/-- The parameters of the machine: the defaults of R5, and the open OUT_MAX. -/
def params : Params where
  outMax := outMax

/-- The free value: the word a host read of an unwritten entry answers, one for each draw (10_state.md R34, U10).
DESIGN CHOICE (log 4): nothing is known of it. -/
opaque freeWord : Nat → Word

end Sys2Proof.Config
end

