-- ==== Sys2Proof/Machine/State.lean ====
section
/-! DEFINITION. The state of HUFFDEC (spec 10_state.md R20 to R45) and its reset value. -/

namespace Sys2Proof.Machine

/-- Why the model stops with a fault. No HUFFDEC error is one of these: the spec's sixteen errors are `ErrorName`, and
raising one is a next state (60_exceptions.md R230). -/
inductive Fault where
  /-- A command needs an entry of NODE or PATH that is unwritten (10_state.md R34). Raised by INSERT and DBIT.
  Safe (log 5): by 20_memory.md R66 no command reads one in a reachable state. -/
  | unwrittenRead
  /-- A command would write beyond the last entry of its store. Raised by PPUSH, INSERT and DBIT when a counter is above
  its capacity. Safe (log 6): by 10_state.md R36 (g) no reachable state has such a counter. -/
  | outsideStore
  deriving DecidableEq, Repr

/-- Why the model gives no meaning. -/
inductive Refusal where
  /-- The named instruction has no meaning yet. Raised by `exec` only. Safe. -/
  | notModelled (mnemonic : String)
  deriving DecidableEq, Repr

/-- The operating modes (R21, 60_exceptions.md R240); the codes 5 to 7 never occur (log 8). -/
inductive Mode where
  | idle
  | load
  | ready
  | decode
  | fault
  deriving DecidableEq, Repr

/-- The error names of 60_exceptions.md R221, in the order of their codes. -/
inductive ErrorName where
  | emptyInput
  | emptyCodeMap
  | unknownSymbol
  | emptyTree
  | invalidBit
  | malformedCode
  | invalidPath
  | duplicateCode
  | incompleteSequence
  | illegalCommand
  | commandSequence
  | weightOverflow
  | nodeMemoryFull
  | pathOverflow
  | outputOverflow
  | prefixConflict
  deriving DecidableEq, Repr

/-- A node record (R30): 9 bits of sym (a byte, or none for NOSYM), 32 of weight, 10 and 10 of children. -/
structure Node where
  sym    : Option Byte
  weight : Word
  left   : Idx
  right  : Idx
  deriving DecidableEq, Repr

/-- A store: its written entries by index, indexes strictly rising; an index not listed is unwritten and holds no value
(R34, log 9). For bytes this is a list of `Host.Cell`. -/
abbrev Memory (α : Type) := List (Nat × α)

/-- What the host can do to the block between two commands (00_scope.md R7, 70_reset_and_hazards.md R270). -/
inductive HostEvent where
  /-- present a command word -/
  | cmd (w : Word)
  /-- present a read address -/
  | read (ra : Word)
  /-- pulse the `rst` input -/
  | rst
  deriving DecidableEq, Repr

/-- The environment's side of the ports; the model's own, not the spec's (log 1, 3, 4). -/
structure HostSide where
  /-- the events the host has queued, first to be taken first -/
  pending : List HostEvent
  /-- `rd_data` at the most recent answered read -/
  rdData  : Option Word
  /-- how many free values host reads have drawn -/
  draws   : Nat
  deriving DecidableEq, Repr

/-- The state: one field per row of R20, in its order, and the environment's side. -/
structure State where
  mode     : Mode
  errCode  : Option ErrorName
  errInfo  : Word
  errPos   : Word
  root     : Idx
  nodeCnt  : Idx
  cur      : Idx
  outLen   : BitVec 23
  outValid : Bool
  bitPos   : Word
  pLen     : Byte
  freq     : Vector Word 256
  node     : Memory Node
  path     : Memory Byte
  out      : Memory Byte
  host     : HostSide
  deriving DecidableEq, Repr

/-- FREQ with every entry 0. -/
abbrev clearFreq : Vector Word 256 := Vector.replicate 256 0

/-- The state after reset (R45); the host has queued nothing, read nothing and drawn nothing (log 1, 3, 4). -/
def State.reset : State where
  mode     := .idle
  errCode  := none
  errInfo  := 0
  errPos   := 0
  root     := NIL
  nodeCnt  := 0
  cur      := NIL
  outLen   := 0
  outValid := false
  bitPos   := 0
  pLen     := 0
  freq     := clearFreq
  node     := []
  path     := []
  out      := []
  host     := ⟨[], none, 0⟩

end Sys2Proof.Machine
end

