-- ==== Sys2Proof/Machine/Operands.lean ====
section
/-! DEFINITION. Codes and operands: bit-symbols, error and mode codes, node records and their read-back words, the
detail words of the errors (spec 00_scope.md R9, R11; 10_state.md R21, R30, R43; 30_encoding.md R87; 60_exceptions.md
R221, R222). -/

namespace Sys2Proof.Machine

/-- `zext_32` (R9). -/
def zext32 {n : Nat} (v : BitVec n) : Word := v.setWidth 32

/-- The child a bit-symbol selects. -/
inductive Side where
  /-- bit 0, "go left" -/
  | left
  /-- bit 1, "go right" -/
  | right
  deriving DecidableEq, Repr

/-- The bit value of a side (R87). -/
def sideBit : Side → Word
  | .left => 0
  | .right => 1

/-- The character of a side (R87): `'0'` is 0x30, `'1'` is 0x31. -/
def sideChar : Side → Byte
  | .left => 0x30
  | .right => 0x31

/-- The one-character parser (R87, 43_decode.md R173): `'0'` left, `'1'` right, every other character invalid. -/
def bitSymbol (c : Byte) : Option Side :=
  if c = 0x30 then some .left else if c = 0x31 then some .right else none

/-- The 3-bit code of MODE (R20). -/
def modeCode : Mode → BitVec 3
  | .idle => 0
  | .load => 1
  | .ready => 2
  | .decode => 3
  | .fault => 4

/-- The fault codes (R221). -/
def errorCode : ErrorName → Byte
  | .emptyInput => 0x01
  | .emptyCodeMap => 0x02
  | .unknownSymbol => 0x03
  | .emptyTree => 0x04
  | .invalidBit => 0x05
  | .malformedCode => 0x06
  | .invalidPath => 0x07
  | .duplicateCode => 0x08
  | .incompleteSequence => 0x09
  | .illegalCommand => 0x10
  | .commandSequence => 0x11
  | .weightOverflow => 0x12
  | .nodeMemoryFull => 0x13
  | .pathOverflow => 0x14
  | .outputOverflow => 0x15
  | .prefixConflict => 0x16

/-- The 8-bit register ERRCODE: 0 when no fault is latched (R22). -/
def errCodeByte : Option ErrorName → Byte
  | none => 0
  | some e => errorCode e

/-- The 9-bit `sym` field: the byte, or NOSYM `0x100` (R30). It is also `rank(i)` (R11). -/
def symCode : Option Byte → BitVec 9
  | none => 0x100
  | some b => b.setWidth 9

/-- `isleaf` of a node record (R11): no children. -/
def Node.isLeaf (r : Node) : Bool := r.left = NIL && r.right = NIL

/-- `child` of a node record (R11). -/
def Node.child (r : Node) : Side → Idx
  | .left => r.left
  | .right => r.right

/-- The record with one child field replaced. -/
def Node.withChild (r : Node) (b : Side) (c : Idx) : Node :=
  match b with
  | .left => { r with left := c }
  | .right => { r with right := c }

/-- The record with its symbol set. -/
def Node.withSym (r : Node) (a : Byte) : Node := { r with sym := some a }

/-- A node as `alloc(NOSYM, 0, NIL, NIL)` makes it (R11). -/
def emptyNode : Node := ⟨none, 0, NIL, NIL⟩

/-- A leaf as `alloc(s, w, NIL, NIL)` makes it (R11). -/
def leafNode (s : Byte) (w : Word) : Node := ⟨some s, w, NIL, NIL⟩

/-- Low word of a node read-back: sym in [8:0], left in [19:10], right in [29:20], the other bits 0 (R43). -/
def nodeLowWord (r : Node) : Word :=
  (0 : BitVec 2) ++ r.right ++ r.left ++ (0 : BitVec 1) ++ symCode r.sym

/-- ERRINFO of two bytes: `(hi << 8) | lo` (R222). -/
def infoPair (hi lo : Byte) : Word := (zext32 hi <<< 8) ||| zext32 lo

/-- ERRINFO of an empty path: `(1 << 16) | (a << 8)` (42_tree_load.md R155). -/
def infoEmptyPath (a : Byte) : Word := (1 <<< 16) ||| (zext32 a <<< 8)

/-- ERRINFO of a path that ends on a node with children: `(1 << 16) | a` (42_tree_load.md R155). -/
def infoInner (a : Byte) : Word := (1 <<< 16) ||| zext32 a

/-- The emitted byte `sym[7:0]` (43_decode.md R172); of NOSYM this is 0, which no reachable state emits (R38). -/
def emitted (r : Node) : Byte := (symCode r.sym).setWidth 8

end Sys2Proof.Machine
end

