-- ==== Sys2Proof/Machine/Ops.lean ====
section
/-! DEFINITION. The shared operations: the stores, `alloc`, `discard_tree`, fault entry and the return from a fault, and
the dispatch by mode (spec 00_scope.md R10, R11; 10_state.md R34; 60_exceptions.md R230, R233, R241, R242). -/

namespace Sys2Proof.Machine

/-- What one command ends in. -/
abbrev Result := Host.Outcome State Fault Refusal

/-! ### The stores -/

/-- The entry at an index, none when it is not listed. -/
def Memory.read {α : Type} : Memory α → Nat → Option α
  | [], _ => none
  | (k, v) :: m, a => if a = k then some v else Memory.read m a

/-- The store with one entry replaced or inserted, in rising order. -/
def Memory.write {α : Type} : Memory α → Nat → α → Memory α
  | [], a, x => [(a, x)]
  | (k, v) :: m, a, x =>
    if a < k then (a, x) :: (k, v) :: m
    else if a = k then (a, x) :: m
    else (k, v) :: Memory.write m a x

/-- The canonical form: indexes strictly rising. -/
abbrev Memory.wf {α : Type} (m : Memory α) : Prop := (m.map Prod.fst).Pairwise (· < ·)

/-- `NODE[i]`: unwritten at and above NODECNT (R34). -/
def nodeAt (s : State) (i : Idx) : Option Node :=
  if i.toNat < s.nodeCnt.toNat then Memory.read s.node i.toNat else none

/-- `PATH[i]`: unwritten at and above PLEN (R34). -/
def pathAt (s : State) (i : Nat) : Option Byte :=
  if i < s.pLen.toNat then Memory.read s.path i else none

/-- `OUT[k]`: unwritten at and above OUTLEN (R34). -/
def outAt (s : State) (k : Nat) : Option Byte :=
  if k < s.outLen.toNat then Memory.read s.out k else none

/-- `FREQ[a]`. -/
def freqAt (s : State) (a : Byte) : Word := s.freq[a.toNat]'a.isLt

/-- `FREQ[a] <- v`. -/
def setFreq (s : State) (a : Byte) (v : Word) : State :=
  { s with freq := s.freq.set a.toNat v a.isLt }

/-- `MemWrite(NODE, i, r)` (R10). -/
def writeNode (i : Idx) (r : Node) (s : State) : State :=
  { s with node := Memory.write s.node i.toNat r }

/-- `alloc` (R11): the record goes to index NODECNT, which advances; the caller has checked NODECNT < NODE_N. The new
index is the NODECNT before. -/
def alloc (r : Node) (s : State) : State :=
  { s with node := Memory.write s.node s.nodeCnt.toNat r, nodeCnt := s.nodeCnt + 1 }

/-- `discard_tree()` (R11): every NODE entry becomes unwritten. -/
def discardTree (s : State) : State := { s with root := NIL, nodeCnt := 0, node := [] }

/-- OUTLEN and OUT_VALID to 0: OUT becomes unwritten (R26, R34). -/
def clearOutput (s : State) : State := { s with outLen := 0, outValid := false, out := [] }

/-- PLEN to 0: PATH becomes unwritten (R28, R34). -/
def clearPath (s : State) : State := { s with pLen := 0, path := [] }

/-- `MemWrite(PATH, PLEN, c) ; PLEN <- PLEN + 1` (R153). -/
def pushPath (c : Byte) (s : State) : State :=
  { s with path := Memory.write s.path s.pLen.toNat c, pLen := s.pLen + 1 }

/-- `MemWrite(OUT, OUTLEN, b) ; OUTLEN <- OUTLEN + 1` (R172). -/
def pushOut (b : Byte) (s : State) : State :=
  { s with out := Memory.write s.out s.outLen.toNat b, outLen := s.outLen + 1 }

/-- The test a counter makes before its store grows: `full` is the spec's "= capacity", `free` below it. Above it is no
reachable state (R36 (g)): the write would fall outside the store (log 6). -/
inductive Room where
  | free
  | full
  | beyond
  deriving DecidableEq, Repr

/-- Room for one more entry behind `count` of them. -/
def room (count cap : Nat) : Room :=
  if count < cap then .free else if count = cap then .full else .beyond

/-! ### Fault entry and return -/

/-- ERRCODE, ERRINFO and ERRPOS, written together (R22). -/
def setError (e : Option ErrorName) (info pos : Word) (s : State) : State :=
  { s with errCode := e, errInfo := info, errPos := pos }

/-- Fault entry (R230), `raise E(info, pos)` in mode m = `s.mode`: the error registers are written, a fault in LOAD mode
discards the tree, one in DECODE mode clears the output, CUR becomes NIL, PLEN 0 and MODE FAULT. -/
def raise (e : ErrorName) (info pos : Word) (s : State) : State :=
  let s1 := setError (some e) info pos s
  let s2 := match s.mode with
    | .load => discardTree s1
    | .decode => clearOutput s1
    | .idle => s1
    | .ready => s1
    | .fault => s1
  { clearPath s2 with cur := NIL, mode := .fault }

/-- A command that ends in fault entry. -/
abbrev raised (e : ErrorName) (info pos : Word) (s : State) : Result := .next (raise e info pos s)

/-- The return from a fault (R112, R233): the error registers are cleared; IDLE without a tree, READY with one. -/
def clearFault (s : State) : State :=
  { setError none 0 0 s with mode := if s.root = NIL then .idle else .ready }

/-- The reset state, the environment's side as it was (70_reset_and_hazards.md R260). -/
def resetState (s : State) : State := { State.reset with host := s.host }

/-! ### Legality and dispatch -/

/-- A cell of the legality table: the pseudocode runs, CommandSequenceError is raised, or the word is dropped. -/
inductive Access where
  | run
  | seq
  | drop
  deriving DecidableEq, Repr

/-- One row of the table R241, its columns IDLE, LOAD, READY, DECODE, FAULT. -/
def accessRow (idle load ready decode fault : Access) : Mode → Access
  | .idle => idle
  | .load => load
  | .ready => ready
  | .decode => decode
  | .fault => fault

/-- The table R241. -/
def access : Instr → Mode → Access
  | .nop => accessRow .run .run .run .run .drop
  | .reset => accessRow .run .run .run .run .run
  | .eclr => accessRow .run .run .run .run .run
  | .tdrop => accessRow .run .seq .run .seq .drop
  | .fclr => accessRow .run .seq .run .seq .drop
  | .fadd _ _ => accessRow .run .seq .run .seq .drop
  | .build => accessRow .run .seq .run .seq .drop
  | .lbegin => accessRow .run .seq .run .seq .drop
  | .ppush _ => accessRow .seq .run .seq .seq .drop
  | .insert _ => accessRow .seq .run .seq .seq .drop
  | .lend => accessRow .seq .run .seq .seq .drop
  | .dbegin => accessRow .run .seq .run .seq .drop
  | .dbit _ => accessRow .seq .seq .seq .run .drop
  | .dend => accessRow .seq .seq .seq .run .drop

/-- The dispatch of a decoded command (R242): dropped in FAULT mode (R243), CommandSequenceError with the command's word
where the mode does not allow it (R237), else the body. -/
def guarded (i : Instr) (body : State → Result) (s : State) : Result :=
  match access i s.mode with
  | .drop => .next s
  | .seq => raised .commandSequence (encode i) 0 s
  | .run => body s

/-- An illegal word (R236): IllegalCommandError with the word, dropped in FAULT mode (R243). -/
def illegalWord (w : Word) (s : State) : Result :=
  if s.mode = .fault then .next s else raised .illegalCommand w 0 s

end Sys2Proof.Machine
end

