-- ==== Sys2Proof/Machine/Builder.lean ====
section
/-! DEFINITION. The tree builder: BUILD (spec 41_frequency_and_build.md R135 to R138). -/

namespace Sys2Proof.Machine

/-- The ordering key of a node (00_scope.md R11): weight, rank, index. The rank is the 9-bit `sym`, 256 for NOSYM. -/
structure Key where
  weight : Word
  rank   : BitVec 9
  idx    : Idx
  deriving DecidableEq, Repr

/-- `key(i)` of the record at index i (R11). -/
def keyOf (i : Idx) (r : Node) : Key := ⟨r.weight, symCode r.sym, i⟩

/-- The lexicographic order of keys, each part unsigned (R136). -/
def Key.lt (x y : Key) : Bool :=
  decide (x.weight < y.weight) ||
    (decide (x.weight = y.weight) &&
      (decide (x.rank < y.rank) || (decide (x.rank = y.rank) && decide (x.idx < y.idx))))

/-- "x <- the element of Q with the least key ; Q <- Q without x" (R135); none when Q is empty. -/
def popLeast : List Key → Option (Key × List Key)
  | [] => none
  | k :: ks =>
    match popLeast ks with
    | none => some (k, [])
    | some (m, rest) => if k.lt m then some (k, ks) else some (m, k :: rest)

/-- The symbols of non-zero frequency with their counts, in ascending order of symbol: S of R135. -/
def presentSymbols (freq : Vector Word 256) : List (Byte × Word) :=
  freq.toList.zipIdx.filterMap (fun p => if p.1 = 0 then none else some (BitVec.ofNat 8 p.2, p.1))

/-- The exact total of all FREQ entries (R135, R140 (b)). -/
def freqTotal (freq : Vector Word 256) : Nat := (freq.toList.map BitVec.toNat).sum

/-- How many nodes the tree over n symbols takes (R135). -/
def nodesNeeded (n : Nat) : Nat := if n = 1 then 2 else 2 * n - 1

/-- One leaf per symbol, at rising indexes (R135). -/
def allocLeaves : List (Byte × Word) → State → State
  | [], s => s
  | (sym, w) :: rest, s => allocLeaves rest (alloc (leafNode sym w) s)

/-- Q of R135 after the leaves: the keys of indexes 0 .. N-1. The queue is working storage of one BUILD; each element
carries the key of its node (10_state.md R39, log 9). -/
def leafKeys (present : List (Byte × Word)) : List Key :=
  present.zipIdx.map (fun p => keyOf (BitVec.ofNat 10 p.2) (leafNode p.1.1 p.1.2))

/-- The node a merge makes: weight the sum, the first extracted left, the second right (R135). -/
def mergedNode (x y : Key) : Node := ⟨none, x.weight + y.weight, x.idx, y.idx⟩

/-- The merge loop (R135), as many rounds as `fuel` allows: while Q has more than one element the two of least key are
merged; then ROOT is the one element. As many rounds as Q has elements are enough. -/
def mergeLoop : Nat → List Key → State → State
  | 0, _, s => s
  | fuel + 1, q, s =>
    match popLeast q with
    | none => s
    | some (x, q1) =>
      match popLeast q1 with
      | none => { s with root := x.idx }
      | some (y, q2) =>
        mergeLoop fuel (keyOf s.nodeCnt (mergedNode x y) :: q2) (alloc (mergedNode x y) s)

/-- The single-symbol tree (R137): an internal root wraps the leaf at index 0, the code is "0". -/
def wrapSingle (w : Word) (s : State) : State :=
  { alloc ⟨none, w, 0, NIL⟩ s with root := s.nodeCnt }

/-- The tree over the present symbols, made in an empty arena (R135). -/
def growTree (present : List (Byte × Word)) (s : State) : State :=
  match present with
  | [(sym, w)] => wrapSingle w (allocLeaves [(sym, w)] s)
  | _ => mergeLoop present.length (leafKeys present) (allocLeaves present s)

/-- BUILD's own pseudocode (R135): the old tree is released first, then EmptyInputError, NodeMemoryFullError,
WeightOverflowError in this order, then the tree is made. -/
def buildBody (P : Config.Params) (s : State) : Result :=
  let s0 := { discardTree s with mode := .idle }
  let present := presentSymbols s.freq
  if present.length = 0 then raised .emptyInput 0 0 s0
  else if P.nodeN < nodesNeeded present.length then raised .nodeMemoryFull 0x100 0 s0
  else if 2 ^ 32 ≤ freqTotal s.freq then raised .weightOverflow 0x100 0 s0
  else .next { growTree present s0 with mode := .ready }

/-- BUILD (R135). -/
def execBuild (s : State) : Result := guarded .build (buildBody Config.params) s

end Sys2Proof.Machine
end

