-- ==== Sys2Proof/Machine/Decoder.lean ====
section
/-! DEFINITION. The bit-serial decoder: DBEGIN, DBIT, DEND (spec 43_decode.md). -/

namespace Sys2Proof.Machine

/-- DBEGIN's own pseudocode (R171): the earlier result is lost, EmptyTreeError without a tree, else the walk starts at
ROOT in DECODE mode. -/
def dbeginBody (s : State) : Result :=
  let s0 := { clearOutput s with bitPos := 0 }
  if s.root = NIL then raised .emptyTree 0 0 s0
  else .next { s0 with cur := s.root, mode := .decode }

/-- DBEGIN (R171). -/
def execDbegin (s : State) : Result := guarded .dbegin dbeginBody s

/-- `BITPOS <- (BITPOS + 1) mod 2^32` (R172). -/
def countBit (s : State) : State := { s with bitPos := s.bitPos + 1 }

/-- Stage 3 of R172 at the node arrived at: a leaf is emitted (OutputOverflowError when OUT is full) and the walk
restarts at ROOT, any other node becomes CUR. -/
def arrive (P : Config.Params) (c : Idx) (r : Node) (s : State) : Result :=
  if r.isLeaf then
    match room s.outLen.toNat P.outMax with
    | .free => .next (countBit { pushOut (emitted r) s with cur := s.root })
    | .full => raised .outputOverflow (zext32 (emitted r)) s.bitPos s
    | .beyond => .fault .outsideStore
  else .next (countBit { s with cur := c })

/-- DBIT's own pseudocode (R172): the bit-symbol is judged, then the child looked for, then the leaf test made on the
node arrived at. -/
def dbitBody (P : Config.Params) (a : Byte) (s : State) : Result :=
  match bitSymbol a with
  | none => raised .invalidBit (zext32 a) s.bitPos s
  | some b =>
    match nodeAt s s.cur with
    | none => .fault .unwrittenRead
    | some r =>
      if r.child b = NIL then raised .invalidPath (sideBit b) s.bitPos s
      else
        match nodeAt s (r.child b) with
        | none => .fault .unwrittenRead
        | some rc => arrive P (r.child b) rc s

/-- DBIT (R172). -/
def execDbit (a : Byte) (s : State) : Result := guarded (.dbit a) (dbitBody Config.params a) s

/-- DEND's own pseudocode (R174): IncompleteSequenceError in the middle of a code, else the output is valid. -/
def dendBody (s : State) : Result :=
  if s.cur ≠ s.root then raised .incompleteSequence (zext32 s.cur) s.bitPos s
  else .next { s with outValid := true, cur := NIL, mode := .ready }

/-- DEND (R174). -/
def execDend (s : State) : Result := guarded .dend dendBody s

end Sys2Proof.Machine
end

