-- ==== Sys2Proof/Machine/Frequency.lean ====
section
/-! DEFINITION. The frequency table: FCLR and FADD (spec 41_frequency_and_build.md R130, R131, R140). -/

namespace Sys2Proof.Machine

/-- FCLR (R130). -/
def execFclr (s : State) : Result := guarded .fclr (fun s => .next { s with freq := clearFreq }) s

/-- FADD's exact sum, a 33-bit number (R131, R140 (a)). -/
def faddSum (a : Byte) (imm : Imm) (s : State) : Nat := (freqAt s a).toNat + (zext32 imm).toNat

/-- FADD's own pseudocode (R131): a sum of 2^32 or more raises WeightOverflowError with the entry unchanged. -/
def faddBody (a : Byte) (imm : Imm) (s : State) : Result :=
  if 2 ^ 32 ≤ faddSum a imm s then raised .weightOverflow (zext32 a) 0 s
  else .next (setFreq s a (BitVec.ofNat 32 (faddSum a imm s)))

/-- FADD (R131). -/
def execFadd (a : Byte) (imm : Imm) (s : State) : Result := guarded (.fadd a imm) (faddBody a imm) s

end Sys2Proof.Machine
end

