-- ==== Sys2Proof/Machine/Loader.lean ====
section
/-! DEFINITION. The tree loader: LBEGIN, PPUSH, INSERT, LEND (spec 42_tree_load.md). -/

namespace Sys2Proof.Machine

/-- LBEGIN (R151): any earlier tree is released, the empty root is allocated at index 0, LOAD mode. -/
def execLbegin (s : State) : Result :=
  guarded .lbegin
    (fun s =>
      let s0 := discardTree s
      .next { clearPath { alloc emptyNode s0 with root := s0.nodeCnt } with mode := .load }) s

/-- PPUSH's own pseudocode (R153): PathOverflowError when the buffer is full; the character is not looked at. -/
def ppushBody (P : Config.Params) (a : Byte) (s : State) : Result :=
  match room s.pLen.toNat P.pathMax with
  | .free => .next (pushPath a s)
  | .full => raised .pathOverflow (zext32 a) (zext32 s.pLen) s
  | .beyond => .fault .outsideStore

/-- PPUSH (R153). -/
def execPpush (a : Byte) (s : State) : Result := guarded (.ppush a) (ppushBody Config.params a) s

/-- `PATH[i] .. PATH[i+n-1]`, none when one of them is unwritten. -/
def pathFrom (s : State) : Nat → Nat → Option (List Byte)
  | _, 0 => some []
  | i, n + 1 =>
    match pathAt s i with
    | none => none
    | some c => (pathFrom s (i + 1) n).map (c :: ·)

/-- The record's bit-path, `PATH[0 .. PLEN-1]` (R155). -/
def recordPath (s : State) : Option (List Byte) := pathFrom s 0 s.pLen.toNat

/-- Step 1 of R155: the first character that is not a bit-symbol, with its index, counted from i. -/
def firstBad : Nat → List Byte → Option (Nat × Byte)
  | _, [] => none
  | i, c :: cs => if bitSymbol c = none then some (i, c) else firstBad (i + 1) cs

/-- What one level of the walk ends in: the node reached, or the end of the command. -/
inductive Walk where
  /-- the walk stands at node n -/
  | reached (n : Idx) (s : State)
  /-- the command has ended -/
  | ended (r : Result)

/-- One turn of step 2 of R155 at path index i: PrefixConflictError at a node that holds a symbol, else the child on the
character's side, made if it is missing (NodeMemoryFullError when the arena is full). -/
def walkStep (P : Config.Params) (a : Byte) (i : Nat) (b : Side) (n : Idx) (s : State) : Walk :=
  match nodeAt s n with
  | none => .ended (.fault .unwrittenRead)
  | some r =>
    match r.sym with
    | some held => .ended (raised .prefixConflict (infoPair held a) (BitVec.ofNat 32 i) s)
    | none =>
      if r.child b = NIL then
        match room s.nodeCnt.toNat P.nodeN with
        | .free => .reached s.nodeCnt (writeNode n (r.withChild b s.nodeCnt) (alloc emptyNode s))
        | .full => .ended (raised .nodeMemoryFull (zext32 a) (BitVec.ofNat 32 i) s)
        | .beyond => .ended (.fault .outsideStore)
      else .reached (r.child b) s

/-- Step 2 of R155 from path index i on. The characters have passed step 1, so each is `'0'` or `'1'`; any but `'0'`
goes right, as the pseudocode's `b` does. -/
def walk (P : Config.Params) (a : Byte) : Nat → List Byte → Idx → State → Walk
  | _, [], n, s => .reached n s
  | i, c :: cs, n, s =>
    match walkStep P a i (if c = 0x30 then .left else .right) n s with
    | .ended r => .ended r
    | .reached n' s' => walk P a (i + 1) cs n' s'

/-- Step 3 of R155 at the terminal node: DuplicateCodeError if it holds a different symbol, PrefixConflictError if it has
children, else it is marked and PLEN cleared. -/
def markTerminal (a : Byte) (n : Idx) (s : State) : Result :=
  match nodeAt s n with
  | none => .fault .unwrittenRead
  | some r =>
    let free : Result :=
      if r.isLeaf then .next (clearPath (writeNode n (r.withSym a) s))
      else raised .prefixConflict (infoInner a) (zext32 s.pLen) s
    match r.sym with
    | none => free
    | some held => if held = a then free else raised .duplicateCode (infoPair held a) (zext32 s.pLen) s

/-- INSERT's own pseudocode (R155): the whole path is validated before NODE is touched, then the walk, then the
terminal node. -/
def insertBody (P : Config.Params) (a : Byte) (s : State) : Result :=
  if s.pLen = 0 then raised .malformedCode (infoEmptyPath a) 0 s
  else
    match recordPath s with
    | none => .fault .unwrittenRead
    | some p =>
      match firstBad 0 p with
      | some (i, c) => raised .malformedCode (infoPair a c) (BitVec.ofNat 32 i) s
      | none =>
        match walk P a 0 p s.root s with
        | .ended r => r
        | .reached n s' => markTerminal a n s'

/-- INSERT (R155). -/
def execInsert (a : Byte) (s : State) : Result := guarded (.insert a) (insertBody Config.params a) s

/-- LEND (R158): characters pushed after the last INSERT are dropped, READY mode. -/
def execLend (s : State) : Result :=
  guarded .lend (fun s => .next { clearPath s with mode := .ready }) s

end Sys2Proof.Machine
end

