-- ==== Sys2Proof/Machine/System.lean ====
section
/-! DEFINITION. The system commands NOP, RESET, ECLR, TDROP (spec 40_system_commands.md). -/

namespace Sys2Proof.Machine

/-- NOP (R110): nothing. -/
def execNop (s : State) : Result := guarded .nop .next s

/-- RESET (R111): every piece of state takes its reset value. -/
def execReset (s : State) : Result := guarded .reset (fun s => .next (resetState s)) s

/-- ECLR (R112): the return from a fault; in any other mode nothing. -/
def execEclr (s : State) : Result :=
  guarded .eclr (fun s => .next (if s.mode = .fault then clearFault s else s)) s

/-- TDROP (R113): the tree is released. -/
def execTdrop (s : State) : Result :=
  guarded .tdrop (fun s => .next { discardTree s with mode := .idle }) s

end Sys2Proof.Machine
end

