-- ==== Sys2Proof/Machine/Dispatch.lean ====
section
/-! DEFINITION. One arm per command (spec 60_exceptions.md R242). -/

namespace Sys2Proof.Machine

def exec (i : Instr) (s : State) : Host.Outcome State Fault Refusal :=
  match i with
  | .nop => Sys2Proof.Machine.execNop s
  | .reset => Sys2Proof.Machine.execReset s
  | .eclr => Sys2Proof.Machine.execEclr s
  | .tdrop => Sys2Proof.Machine.execTdrop s
  | .fclr => Sys2Proof.Machine.execFclr s
  | .fadd a imm => Sys2Proof.Machine.execFadd a imm s
  | .build => Sys2Proof.Machine.execBuild s
  | .lbegin => Sys2Proof.Machine.execLbegin s
  | .ppush a => Sys2Proof.Machine.execPpush a s
  | .insert a => Sys2Proof.Machine.execInsert a s
  | .lend => Sys2Proof.Machine.execLend s
  | .dbegin => Sys2Proof.Machine.execDbegin s
  | .dbit a => Sys2Proof.Machine.execDbit a s
  | .dend => Sys2Proof.Machine.execDend s

end Sys2Proof.Machine
end

