-- ==== Sys2Proof/Machine/Flags.lean ====
section
/-! DEFINITION. The derived flags, the STATUS word and the fault line (spec 10_state.md R35, R41; 60_exceptions.md
R250). The one stored flag is OUT_VALID, a field of State. -/

namespace Sys2Proof.Machine

/-- TREE: ROOT is not NIL. -/
def treeFlag (s : State) : Bool := s.root ≠ NIL

/-- MIDPATH: MODE is DECODE and CUR is not ROOT. -/
def midpathFlag (s : State) : Bool := s.mode = .decode && s.cur ≠ s.root

/-- FAULT: MODE is FAULT. -/
def faultFlag (s : State) : Bool := s.mode = .fault

/-- PATHNE: PLEN is not 0. -/
def pathneFlag (s : State) : Bool := s.pLen ≠ 0

/-- The STATUS word (R41): MODE in [2:0], TREE, OUT_VALID, MIDPATH, FAULT, PATHNE in [3] to [7], [31:8] zero. -/
def statusWord (s : State) : Word :=
  (0 : BitVec 24) ++ BitVec.ofBool (pathneFlag s) ++ BitVec.ofBool (faultFlag s) ++ BitVec.ofBool (midpathFlag s) ++
    BitVec.ofBool s.outValid ++ BitVec.ofBool (treeFlag s) ++ modeCode s.mode

/-- The `fault` output line: a level, high exactly in FAULT mode (R250). -/
def faultLine (s : State) : Bool := s.mode = .fault

end Sys2Proof.Machine
end

