-- ==== Sys2Proof/Machine/ReadPort.lean ====
section
/-! DEFINITION. The read port (spec 10_state.md R34, R40, R41, R43). -/

namespace Sys2Proof.Machine

/-- What a read finds: a word, or an unwritten entry, whose answer is unspecified (R34). -/
inductive ReadAnswer where
  | word (w : Word)
  | unwritten
  deriving DecidableEq, Repr

/-- The single words at addresses 0 to 13 of R40. -/
def readRegister (P : Config.Params) (s : State) : Nat → Option Word
  | 0 => some 0x48554631
  | 1 => some (statusWord s)
  | 2 => some (zext32 (errCodeByte s.errCode))
  | 3 => some s.errInfo
  | 4 => some s.errPos
  | 5 => some (zext32 s.root)
  | 6 => some (zext32 s.nodeCnt)
  | 7 => some (zext32 s.cur)
  | 8 => some (zext32 s.outLen)
  | 9 => some s.bitPos
  | 10 => some (zext32 s.pLen)
  | 11 => some (BitVec.ofNat 32 P.nodeN)
  | 12 => some (BitVec.ofNat 32 P.pathMax)
  | 13 => some (BitVec.ofNat 32 P.outMax)
  | _ => none

/-- The word an entry shows, if it is written. -/
def entryAnswer {α : Type} (f : α → Word) : Option α → ReadAnswer
  | some x => .word (f x)
  | none => .unwritten

/-- The low or the high word of a node record, by the low bit of the address (R40, R43). -/
def nodeWord (odd : Bool) (r : Node) : Word := if odd then r.weight else nodeLowWord r

/-- The read map (R40): the stores behind the single words; any other address reads 0. -/
def readStores (P : Config.Params) (s : State) (a : Nat) : ReadAnswer :=
  if 0x100 ≤ a ∧ a < 0x200 then .word (freqAt s (BitVec.ofNat 8 (a - 0x100)))
  else if 0x200 ≤ a ∧ a < 0x200 + P.pathMax then entryAnswer zext32 (pathAt s (a - 0x200))
  else if 0x400 ≤ a ∧ a < 0x400 + 2 * P.nodeN then
    entryAnswer (nodeWord ((a - 0x400) % 2 = 1)) (nodeAt s (BitVec.ofNat 10 ((a - 0x400) / 2)))
  else if 0x10000 ≤ a ∧ a < 0x10000 + P.outMax then entryAnswer zext32 (outAt s (a - 0x10000))
  else .word 0

/-- What the read port finds at read address RA (R40). -/
def readPort (P : Config.Params) (s : State) (ra : Word) : ReadAnswer :=
  match readRegister P s ra.toNat with
  | some w => .word w
  | none => readStores P s ra.toNat

/-- The host's read: the answer goes to `rd_data`; an unspecified one is a fresh draw (R34, log 3, log 4). No state of
the block changes (R40). -/
def answerRead (P : Config.Params) (ra : Word) (s : State) : State :=
  match readPort P s ra with
  | .word w => { s with host := { s.host with rdData := some w } }
  | .unwritten =>
    { s with host := { s.host with rdData := some (Config.freeWord s.host.draws), draws := s.host.draws + 1 } }

end Sys2Proof.Machine
end

