-- ==== Sys2Proof/Machine/Command.lean ====
section
/-! DEFINITION. One command word (spec 60_exceptions.md R242) and one event of the host (00_scope.md R7,
70_reset_and_hazards.md R260, R270). -/

namespace Sys2Proof.Machine

/-- `step(w)` of R242: decode, then the command or the illegal word. -/
def runWord (w : Word) (s : State) : Result :=
  match decode w with
  | .instr i => exec i s
  | .illegal _ => illegalWord w s

/-- The state with the host's queue replaced. -/
def withPending (s : State) (q : List HostEvent) : State := { s with host := { s.host with pending := q } }

/-- One event of the host. -/
def runEvent (e : HostEvent) (s : State) : Result :=
  match e with
  | .cmd w => runWord w s
  | .read ra => .next (answerRead Config.params ra s)
  | .rst => .next (resetState s)

/-- The host's next event is taken from its queue; with none the block holds its state (R253). -/
def runPending (s : State) : Result :=
  match s.host.pending with
  | [] => .next s
  | e :: rest => runEvent e (withPending s rest)

/-- The host's queue with a command word put first (log 2). -/
def presentWord (w : Word) (s : State) : State := withPending s (.cmd w :: s.host.pending)

end Sys2Proof.Machine
end

