-- ==== Sys2Proof/Machine/Step.lean ====
section
/-! DEFINITION. One step of the machine (spec 00_scope.md R7). -/

namespace Sys2Proof.Machine

/-- One step: the host's next event, completely. -/
def step (s : State) : Host.Outcome State Fault Refusal := runPending s

/-- The state with a command word presented first on the command port, numbered as spec/opcode_table.json numbers it
(log 2). -/
def State.withFetchWord (s : State) (nbits w : Nat) : State := Sys2Proof.Machine.presentWord (tableWord nbits w) s

end Sys2Proof.Machine
end

