-- ==== Sys2Proof/Machine/Reference.lean ====
section
/-! DEFINITION. The reference functions of spec 44_reference_functions.md (not hardware): frequencies, generateCodes,
encode, decode, reconstructTree, as pure functions over the state's own data, and the command sequences that stand for
the document's calls (42_tree_load.md R150, 43_decode.md R170, R176). -/

namespace Sys2Proof.Machine

/-! ### Command sequences -/

/-- A command sequence, stopping where the model stops. -/
def runCommands : List Instr → State → Result
  | [], s => .next s
  | i :: is, s =>
    match exec i s with
    | .next s' => runCommands is s'
    | .fault r => .fault r
    | .refused r => .refused r

/-- FCLR, then one `FADD b, 1` per byte (R191). -/
def frequencyCommands (bytes : List Byte) : List Instr := .fclr :: bytes.map (fun b => .fadd b 1)

/-- One record of the code table: PPUSH per character, then INSERT (R150). -/
def recordCommands (rec : Byte × List Byte) : List Instr := rec.2.map (fun c => .ppush c) ++ [.insert rec.1]

/-- `reconstructTree(codeMap)` as a load session (R150). -/
def loadCommands (records : List (Byte × List Byte)) : List Instr :=
  .lbegin :: records.flatMap recordCommands ++ [.lend]

/-- `decode(bits, tree)` as a decode session (R170). -/
def decodeCommands (bits : List Byte) : List Instr := .dbegin :: bits.map (fun c => .dbit c) ++ [.dend]

/-! ### Code generation and encoding -/

/-- `frequencies(bytes)` (R191): how many positions hold each byte value. -/
def frequencies (bytes : List Byte) (b : Byte) : Nat := bytes.count b

/-- A code map (R190): symbols with their bit-paths. -/
abbrev CodeMap := List (Byte × List Byte)

/-- What `generateCodes` gives (R193). -/
inductive Codes where
  | map (m : CodeMap)
  /-- EmptyCodeMapError -/
  | emptyCodeMap
  /-- one symbol on two leaves: the spec leaves the result unspecified (U8, log 12) -/
  | unspecified
  deriving DecidableEq, Repr

/-- `visit(n, path)` of R193, to a depth of `fuel` levels: pre-order, `'0'` on the left, `'1'` on the right, a missing child
skipped, a childless node recorded if it holds a symbol. -/
def visit (s : State) : Nat → Idx → List Byte → CodeMap
  | 0, _, _ => []
  | fuel + 1, n, path =>
    match nodeAt s n with
    | none => []
    | some r =>
      if r.isLeaf then
        match r.sym with
        | some b => [(b, path)]
        | none => []
      else
        (if r.left = NIL then [] else visit s fuel r.left (path ++ [0x30])) ++
          (if r.right = NIL then [] else visit s fuel r.right (path ++ [0x31]))

/-- The (symbol, path) pairs of the tree's leaves; a tree of NODECNT nodes has no more than NODECNT levels. -/
def leafPaths (s : State) : CodeMap := visit s s.nodeCnt.toNat s.root []

/-- `generateCodes(tree)` (R193). -/
def generateCodes (s : State) : Codes :=
  if s.root = NIL then .emptyCodeMap
  else if leafPaths s = [] then .emptyCodeMap
  else if ((leafPaths s).map Prod.fst).Nodup then .map (leafPaths s)
  else .unspecified

/-- The code of a symbol in a map. -/
def codeOf : CodeMap → Byte → Option (List Byte)
  | [], _ => none
  | (b, p) :: m, a => if b = a then some p else codeOf m a

/-- What `encode` gives (R194). -/
inductive Encoded where
  | bits (cs : List Byte)
  /-- UnknownSymbolError, naming the symbol and its 0-based position -/
  | unknownSymbol (b : Byte) (pos : Nat)
  deriving DecidableEq, Repr

/-- `encode` from position k on (R194). -/
def encodeFrom (m : CodeMap) : Nat → List Byte → Encoded
  | _, [] => .bits []
  | k, b :: bs =>
    match codeOf m b with
    | none => .unknownSymbol b k
    | some p =>
      match encodeFrom m (k + 1) bs with
      | .bits cs => .bits (p ++ cs)
      | .unknownSymbol b' k' => .unknownSymbol b' k'

/-- `encode(bytes, codeMap)` (R194). -/
def encodeBytes (bytes : List Byte) (m : CodeMap) : Encoded := encodeFrom m 0 bytes

/-! ### The pure decoder -/

/-- What the pure walk of R176 gives. -/
inductive Decoding where
  | bytes (bs : List Byte)
  /-- the character c at index k is no bit-symbol -/
  | invalidBit (k : Nat) (c : Byte)
  /-- at index k the position has no child on side b -/
  | invalidPath (k : Nat) (b : Side)
  /-- after m bit-symbols the walk stands at p, which is not ROOT -/
  | incomplete (m : Nat) (p : Idx)
  deriving DecidableEq, Repr

/-- The pure walk of R176 from position p, with k bit-symbols consumed and the output so far. A position without a record
has no child. -/
def walkBits (s : State) : List Byte → Nat → Idx → List Byte → Decoding
  | [], k, p, done => if p = s.root then .bytes done else .incomplete k p
  | c :: cs, k, p, done =>
    match bitSymbol c with
    | none => .invalidBit k c
    | some b =>
      match nodeAt s p with
      | none => .invalidPath k b
      | some r =>
        if r.child b = NIL then .invalidPath k b
        else
          match nodeAt s (r.child b) with
          | none => .invalidPath k b
          | some rc =>
            if rc.isLeaf then walkBits s cs (k + 1) s.root (done ++ [emitted rc])
            else walkBits s cs (k + 1) (r.child b) done

/-- `decode(bits, tree)` (R176, R192). -/
def decodeBits (s : State) (bits : List Byte) : Decoding := walkBits s bits 0 s.root []

/-- The distinct non-empty prefixes of the records' paths (42_tree_load.md R159). -/
def pathParts (records : CodeMap) : List (List Byte) :=
  ((records.flatMap (fun x => x.2.inits)).filter (fun q => q ≠ [])).dedup

/-- The output the pure walk has produced by its end, whatever ends it. -/
def emittedBy (s : State) : List Byte → Idx → List Byte
  | [], _ => []
  | c :: cs, p =>
    match bitSymbol c with
    | none => []
    | some b =>
      match nodeAt s p with
      | none => []
      | some r =>
        if r.child b = NIL then []
        else
          match nodeAt s (r.child b) with
          | none => []
          | some rc => if rc.isLeaf then emitted rc :: emittedBy s cs s.root else emittedBy s cs (r.child b)

/-- The bytes in OUT, in order: `OUT[0 .. OUTLEN-1]`. -/
def outBytes (s : State) : List Byte := (List.range s.outLen.toNat).filterMap (outAt s)

end Sys2Proof.Machine
end

