-- ==== Sys2Proof/Safety.lean ====
section
/-! DEFINITION. What holds between commands: the invariants of spec 10_state.md R36 and R37, the bound of 43_decode.md
R178, and the safe step. -/

namespace Sys2Proof.Machine

/-- The step is safe: it answers a next state (60_exceptions.md R242). -/
def SafeStep (s : State) : Prop := ∃ t, step s = .next t

/-- Some FREQ entry is not 0: the mapping BUILD takes is not empty. -/
def SomeFrequency (s : State) : Prop := ∃ a : Byte, freqAt s a ≠ 0

/-- How many symbols have a frequency above 0: N of 41_frequency_and_build.md R135. -/
def symbolCount (s : State) : Nat := (List.range 256).countP (fun k => freqAt s (BitVec.ofNat 8 k) ≠ 0)

/-- The exact total of FREQ (41_frequency_and_build.md R135). -/
def frequencySum (s : State) : Nat := ((List.range 256).map (fun k => (freqAt s (BitVec.ofNat 8 k)).toNat)).sum

/-- No session is open and no fault latched: IDLE or READY. -/
abbrev Quiet (s : State) : Prop := s.mode = .idle ∨ s.mode = .ready

/-- Node p has node c on side b. -/
def ChildOf (s : State) (p : Idx) (b : Side) (c : Idx) : Prop :=
  c ≠ NIL ∧ ∃ r, nodeAt s p = some r ∧ r.child b = c

/-- The order of a built tree: "every child index is smaller than its parent's" (R36 (c)). -/
def ChildrenBelow (s : State) : Prop := ∀ p b c, ChildOf s p b c → c < p

/-- The order of a loaded tree: "every child index is larger than its parent's and ROOT = 0" (R36 (c)). -/
def ChildrenAbove (s : State) : Prop := s.root = 0 ∧ ∀ p b c, ChildOf s p b c → p < c

/-- The entries a counter counts are the ones written, in canonical form (R24, R31, R32, R34). -/
structure StoresInv (s : State) : Prop where
  nodes : s.node.map Prod.fst = List.range s.nodeCnt.toNat
  path  : s.path.map Prod.fst = List.range s.pLen.toNat
  out   : s.out.map Prod.fst = List.range s.outLen.toNat

/-- R36 (a) to (d): the written entries form one tree rooted at ROOT. -/
structure TreeInv (s : State) : Prop where
  rootNil      : s.root = NIL ↔ s.nodeCnt = 0
  rootWritten  : s.root ≠ NIL → s.root.toNat < s.nodeCnt.toNat
  childWritten : ∀ p b c, ChildOf s p b c → c.toNat < s.nodeCnt.toNat
  oneParent    : ∀ c : Idx, c.toNat < s.nodeCnt.toNat → c ≠ s.root →
    ∃ p b, ChildOf s p b c ∧ ∀ p' b', ChildOf s p' b' c → p' = p ∧ b' = b
  rootFree     : ∀ p b, ¬ ChildOf s p b s.root
  order        : ChildrenBelow s ∨ ChildrenAbove s
  symbolOnLeaf : ∀ i r, nodeAt s i = some r → r.sym ≠ none → r.isLeaf = true
  bareLeaf     : ∀ i r, nodeAt s i = some r → r.sym = none → r.isLeaf = true → i = s.root ∧ s.nodeCnt = 1

/-- R36 (e), (f), R22 and R195: what each mode implies. -/
structure ModeInv (s : State) : Prop where
  idle      : s.mode = .idle → s.root = NIL
  ready     : s.mode = .ready → s.root ≠ NIL
  decode    : s.mode = .decode → s.root ≠ NIL ∧ s.outValid = false
  load      : s.mode = .load → ChildrenAbove s
  curNil    : s.mode ≠ .decode → s.cur = NIL
  pathEmpty : s.mode ≠ .load → s.pLen = 0
  latched   : s.mode = .fault ↔ s.errCode ≠ none
  cleared   : s.mode ≠ .fault → s.errInfo = 0 ∧ s.errPos = 0
  hardware  : s.errCode ≠ some .emptyCodeMap ∧ s.errCode ≠ some .unknownSymbol

/-- R36 (g): no counter is above its capacity. -/
structure BoundInv (P : Config.Params) (s : State) : Prop where
  nodes : s.nodeCnt.toNat ≤ P.nodeN
  path  : s.pLen.toNat ≤ P.pathMax
  out   : s.outLen.toNat ≤ P.outMax

/-- R37: in DECODE mode CUR is ROOT or a written node that is not a leaf and holds no symbol. -/
def CursorInv (s : State) : Prop :=
  s.mode = .decode → s.cur ≠ s.root → ∃ r, nodeAt s s.cur = some r ∧ r.isLeaf = false ∧ r.sym = none

/-- The invariants of R36 and R37 together. -/
structure Inv (s : State) : Prop where
  stores : StoresInv s
  tree   : TreeInv s
  modes  : ModeInv s
  bounds : BoundInv Config.params s
  cursor : CursorInv s

/-- The greatest value BITPOS can take (43_decode.md R178). -/
def bitposLimit : Nat := (Config.params.outMax + 1) * (Config.params.nodeN - 1)

/-- How far below ROOT the walk can stand, by the order of the indexes (43_decode.md R175). -/
def DepthBound (s : State) (d : Nat) : Prop :=
  (ChildrenBelow s ∧ s.cur.toNat + d = s.root.toNat) ∨ (ChildrenAbove s ∧ s.cur.toNat = d)

/-- BITPOS against the bytes emitted and the depth of the walk: the reason for R178. -/
structure BitposInv (s : State) : Prop where
  limit   : s.bitPos.toNat ≤ bitposLimit
  session : s.mode = .decode →
    ∃ d, DepthBound s d ∧ s.bitPos.toNat ≤ s.outLen.toNat * (Config.params.nodeN - 1) + d

/-! ### What fault entry leaves (60_exceptions.md R230), written field by field -/

/-- After a fault outside a session (modes IDLE and READY). -/
def plainFault (s : State) (e : ErrorName) (info pos : Word) : State :=
  { s with mode := .fault, errCode := some e, errInfo := info, errPos := pos, cur := NIL, pLen := 0, path := [] }

/-- After a fault in LOAD mode: the partially built tree is gone. -/
def loadFault (s : State) (e : ErrorName) (info pos : Word) : State :=
  { s with mode := .fault, errCode := some e, errInfo := info, errPos := pos, cur := NIL, pLen := 0, path := [],
           root := NIL, nodeCnt := 0, node := [] }

/-- After a fault in DECODE mode: no partial output. -/
def decodeFault (s : State) (e : ErrorName) (info pos : Word) : State :=
  { s with mode := .fault, errCode := some e, errInfo := info, errPos := pos, cur := NIL, pLen := 0, path := [],
           outLen := 0, outValid := false, out := [] }

/-! ### Where a command runs: the rows of 60_exceptions.md R241 -/

/-- A run of the command from s raises no CommandSequenceError: a "run" cell of R241, whatever other fault the pseudocode
raises. -/
def InMode (i : Instr) (s : State) : Prop :=
  ∀ t, exec i s = .next t → s.errCode ≠ some .commandSequence → t.errCode ≠ some .commandSequence

/-- The command runs in IDLE and READY: in a session it raises CommandSequenceError with its word, in FAULT mode it is
dropped. -/
structure RunsWhenQuiet (i : Instr) : Prop where
  quiet  : ∀ s : State, Quiet s → InMode i s
  load   : ∀ s : State, s.mode = .load → exec i s = .next (loadFault s .commandSequence (encode i) 0)
  decode : ∀ s : State, s.mode = .decode → exec i s = .next (decodeFault s .commandSequence (encode i) 0)
  fault  : ∀ s : State, s.mode = .fault → exec i s = .next s

/-- The command runs in LOAD mode only. -/
structure RunsWhenLoading (i : Instr) : Prop where
  quiet  : ∀ s : State, Quiet s → exec i s = .next (plainFault s .commandSequence (encode i) 0)
  load   : ∀ s : State, s.mode = .load → InMode i s
  decode : ∀ s : State, s.mode = .decode → exec i s = .next (decodeFault s .commandSequence (encode i) 0)
  fault  : ∀ s : State, s.mode = .fault → exec i s = .next s

/-- The command runs in DECODE mode only. -/
structure RunsWhenDecoding (i : Instr) : Prop where
  quiet  : ∀ s : State, Quiet s → exec i s = .next (plainFault s .commandSequence (encode i) 0)
  load   : ∀ s : State, s.mode = .load → exec i s = .next (loadFault s .commandSequence (encode i) 0)
  decode : ∀ s : State, s.mode = .decode → InMode i s
  fault  : ∀ s : State, s.mode = .fault → exec i s = .next s

/-! ### Codes -/

/-- No code of the map is a prefix of another symbol's code. -/
def PrefixFree (m : CodeMap) : Prop := ∀ x ∈ m, ∀ y ∈ m, x.1 ≠ y.1 → ¬ x.2 <+: y.2

/-- The weighted path length of a code map under the counts of FREQ (41_frequency_and_build.md R139). -/
def weightedLength (s : State) (m : CodeMap) : Nat := (m.map (fun x => (freqAt s x.1).toNat * x.2.length)).sum

/-- A code for exactly the symbols BUILD takes: one non-empty path over the two bit-symbols per symbol of non-zero
frequency. -/
structure CodeForFreq (s : State) (m : CodeMap) : Prop where
  once    : (m.map Prod.fst).Nodup
  symbols : ∀ a, a ∈ m.map Prod.fst ↔ freqAt s a ≠ 0
  paths   : ∀ x ∈ m, x.2 ≠ [] ∧ ∀ c ∈ x.2, bitSymbol c ≠ none

/-! ### Paths in a tree -/

/-- The node at the end of a path of bit-symbols, if each child on the way is there. -/
def follow (s : State) : Idx → List Byte → Option Idx
  | n, [] => some n
  | n, c :: cs =>
    match bitSymbol c, nodeAt s n with
    | some b, some r => if r.child b = NIL then none else follow s (r.child b) cs
    | _, _ => none

/-- No node a proper part of the path leads to holds a symbol: the walk of 42_tree_load.md R155 is not stopped before
the path's end. -/
def OpenPath (s : State) (p : List Byte) : Prop :=
  ∀ q, q <+: p → q ≠ p → ∀ n r, follow s s.root q = some n → nodeAt s n = some r → r.sym = none

/-- PATH holds p, which is not empty and has only bit-symbols: step 1 of 42_tree_load.md R155 passes. -/
def ValidRecord (s : State) (p : List Byte) : Prop :=
  recordPath s = some p ∧ p ≠ [] ∧ ∀ c ∈ p, bitSymbol c ≠ none

/-- The path's first characters q lead to node n, which holds no symbol and has no child for the next character. -/
def LeavesTreeAt (s : State) (q rest : List Byte) (n : Idx) : Prop :=
  follow s s.root q = some n ∧ OpenPath s q ∧
    ∃ r c cs b, rest = c :: cs ∧ bitSymbol c = some b ∧ nodeAt s n = some r ∧ r.sym = none ∧ r.child b = NIL

/-! ### The mode table -/

/-- Where each command leaves MODE (60_exceptions.md R240, R241), for a command that answers the next state t, from a state
with the invariants: one mode, decided by the state before; INSERT and DBIT stay in their mode or fault. FAULT stays FAULT
but for RESET and ECLR. -/
def ModeMove (s t : State) : Instr → Prop
  | .nop => t.mode = s.mode
  | .reset => t.mode = .idle
  | .eclr => t.mode = if s.mode = .fault then (if s.root = NIL then .idle else .ready) else s.mode
  | .tdrop => t.mode = if Quiet s then .idle else .fault
  | .fclr => t.mode = if Quiet s then s.mode else .fault
  | .fadd a imm => t.mode = if Quiet s ∧ (freqAt s a).toNat + imm.toNat < 4294967296 then s.mode else .fault
  | .build => t.mode = if Quiet s ∧ symbolCount s ≠ 0 ∧ frequencySum s < 4294967296 then .ready else .fault
  | .lbegin => t.mode = if Quiet s then .load else .fault
  | .ppush _ => t.mode = if s.mode = .load ∧ s.pLen.toNat < Config.params.pathMax then .load else .fault
  | .insert _ => t.mode = .fault ∨ (s.mode = .load ∧ t.mode = .load)
  | .lend => t.mode = if s.mode = .load then .ready else .fault
  | .dbegin => t.mode = if s.mode = .ready then .decode else .fault
  | .dbit _ => t.mode = .fault ∨ (s.mode = .decode ∧ t.mode = .decode)
  | .dend => t.mode = if s.mode = .decode ∧ s.cur = s.root then .ready else .fault

end Sys2Proof.Machine
end

