-- ==== Sys2Proof/Certificates/Slice0/Obligations.lean ====
section
/-! DEFINITION. The statements for the provers, from the numbered rules of the spec. -/

open Sys2Proof Sys2Proof.Machine

/-! ### Encoding (30_encoding.md) -/

/-- R86: words written out from the formats decode to their commands, and two that are illegal do not. -/
def Obligations.SampleWordsDecode : Prop :=
  decode 0x5066002D = .instr (.fadd 0x66 45) ∧ decode 0xC0310000 = .instr (.dbit 0x31) ∧
    decode 0x90610000 = .instr (.insert 0x61) ∧ decode 0x80780000 = .instr (.ppush 0x78) ∧
    decode 0x60000000 = .instr .build ∧ decode 0x00000001 = .illegal .nonzeroField ∧
    decode 0xE0000000 = .illegal .reservedOp

/-- R81, R83: the word a command is written as decodes to that command, with every operand at every value; so does the
word numbered as the opcode table numbers it. -/
def Obligations.DecodeOfEncodeIsTheCommand : Prop :=
  ∀ i : Instr, decode (encode i) = .instr i ∧ decodeTableWord 32 (encode i).toNat = some i

/-- R84, R85: a word that decodes to a command is the word that command is written as: no second encoding. -/
def Obligations.EveryDecodedWordIsItsEncoding : Prop :=
  ∀ (w : Word) (i : Instr), decode w = .instr i → encode i = w

/-- R83: a word is a row's command exactly when `(w & mask) = match`. -/
def Obligations.DecodeFollowsTheOpcodeMap : Prop :=
  ∀ (w : Word) (i : Instr),
    (decode w = .instr i → w &&& rowMask i = rowMatch i) ∧
    (w &&& rowMask i = rowMatch i → ∃ j, decode w = .instr j ∧ rowMatch j = rowMatch i)

/-- R85: a word is illegal exactly when op is 0xE or 0xF, or a bit of a zero field of its format is 1. -/
def Obligations.IllegalWordsExactly : Prop :=
  ∀ w : Word,
    (decode w = .illegal .reservedOp ↔ w.extractLsb' 28 4 = 0xE#4 ∨ w.extractLsb' 28 4 = 0xF#4) ∧
    (decode w = .illegal .nonzeroField ↔
      (w.extractLsb' 28 4 ≠ 0xE#4 ∧ w.extractLsb' 28 4 ≠ 0xF#4) ∧
        (if w.extractLsb' 28 4 = 0x5#4 then w.extractLsb' 24 4 ≠ 0#4
         else if w.extractLsb' 28 4 = 0x8#4 ∨ w.extractLsb' 28 4 = 0x9#4 ∨ w.extractLsb' 28 4 = 0xC#4 then
           w.extractLsb' 24 4 ≠ 0#4 ∨ w.extractLsb' 0 16 ≠ 0#16
         else w.extractLsb' 0 28 ≠ 0#28))

/-! ### One step (60_exceptions.md R236 to R243, 70_reset_and_hazards.md R260) -/

/-- R242: when the host's next event is a command word that decodes to i, the step is exec of i, the event consumed; a
word presented by `withFetchWord` is that event. -/
def Obligations.StepRunsTheDecodedCommand : Prop :=
  ∀ (s : State) (w : Word) (i : Instr) (rest : List HostEvent), decode w = .instr i →
    (s.host.pending = .cmd w :: rest → step s = exec i { s with host := { s.host with pending := rest } }) ∧
    step (s.withFetchWord 32 w.toNat) = exec i s

/-- R236, R243: an illegal word raises IllegalCommandError with the word, in LOAD mode the tree and in DECODE mode the
output are lost; in FAULT mode it is dropped. -/
def Obligations.IllegalWordFaultsOrIsDropped : Prop :=
  ∀ (s : State) (w : Word) (rest : List HostEvent) (why : Illegal), s.host.pending = .cmd w :: rest →
    decode w = .illegal why →
    let s' := { s with host := { s.host with pending := rest } }
    (Quiet s → step s = .next (plainFault s' .illegalCommand w 0)) ∧
    (s.mode = .load → step s = .next (loadFault s' .illegalCommand w 0)) ∧
    (s.mode = .decode → step s = .next (decodeFault s' .illegalCommand w 0)) ∧
    (s.mode = .fault → step s = .next s')

/-- R260: the `rst` input maps every state to the reset state. -/
def Obligations.RstInputResets : Prop :=
  ∀ (s : State) (rest : List HostEvent), s.host.pending = .rst :: rest →
    step s = .next { State.reset with host := { s.host with pending := rest } }

/-- R40, R65: a host read changes no state of the block, in any mode; it answers what the read map gives, or, at an
unwritten entry, some word. The host's queue, `rd_data` and draw counter are the model's own (log 1, 3, 4). -/
def Obligations.HostReadChangesNoState : Prop :=
  ∀ (s : State) (ra : Word) (rest : List HostEvent), s.host.pending = .read ra :: rest →
    ∃ t w, step s = .next t ∧ t = { s with host := t.host } ∧ t.host.pending = rest ∧ t.host.rdData = some w ∧
      ∀ v, readPort Config.params s ra = .word v → w = v

/-! ### The read port (10_state.md R34, R40, R41, R43) -/

/-- R40: the fourteen single words, at addresses 0 to 13. -/
def Obligations.ReadPortShowsTheRegisters : Prop :=
  ∀ (P : Config.Params) (s : State),
    readPort P s 0x00 = .word 0x48554631 ∧ readPort P s 0x01 = .word (statusWord s) ∧
    readPort P s 0x02 = .word ((errCodeByte s.errCode).setWidth 32) ∧ readPort P s 0x03 = .word s.errInfo ∧
    readPort P s 0x04 = .word s.errPos ∧ readPort P s 0x05 = .word (s.root.setWidth 32) ∧
    readPort P s 0x06 = .word (s.nodeCnt.setWidth 32) ∧ readPort P s 0x07 = .word (s.cur.setWidth 32) ∧
    readPort P s 0x08 = .word (s.outLen.setWidth 32) ∧ readPort P s 0x09 = .word s.bitPos ∧
    readPort P s 0x0A = .word (s.pLen.setWidth 32) ∧ readPort P s 0x0B = .word (BitVec.ofNat 32 P.nodeN) ∧
    readPort P s 0x0C = .word (BitVec.ofNat 32 P.pathMax) ∧ readPort P s 0x0D = .word (BitVec.ofNat 32 P.outMax)

/-- R20, R221: the numbers the read port shows for each error name, at address 2, and for each mode, in STATUS[2:0]. -/
def Obligations.ErrorAndModeCodes : Prop :=
  ∀ (P : Config.Params) (s : State),
    readPort P s 0x02 = .word (match s.errCode with
      | none => 0x00
      | some .emptyInput => 0x01
      | some .emptyCodeMap => 0x02
      | some .unknownSymbol => 0x03
      | some .emptyTree => 0x04
      | some .invalidBit => 0x05
      | some .malformedCode => 0x06
      | some .invalidPath => 0x07
      | some .duplicateCode => 0x08
      | some .incompleteSequence => 0x09
      | some .illegalCommand => 0x10
      | some .commandSequence => 0x11
      | some .weightOverflow => 0x12
      | some .nodeMemoryFull => 0x13
      | some .pathOverflow => 0x14
      | some .outputOverflow => 0x15
      | some .prefixConflict => 0x16) ∧
    (statusWord s).extractLsb' 0 3 = (match s.mode with
      | .idle => 0#3
      | .load => 1#3
      | .ready => 2#3
      | .decode => 3#3
      | .fault => 4#3)

/-- R40, R43: FREQ, and the written entries of PATH, NODE and OUT, at their addresses; any other address above the single
words reads 0. -/
def Obligations.ReadPortShowsTheStores : Prop :=
  ∀ (P : Config.Params) (s : State), P.ok →
    (∀ a : Byte, readPort P s (BitVec.ofNat 32 (0x100 + a.toNat)) = .word (freqAt s a)) ∧
    (∀ i c, i < P.pathMax → pathAt s i = some c →
      readPort P s (BitVec.ofNat 32 (0x200 + i)) = .word (c.setWidth 32)) ∧
    (∀ (i : Idx) r, i.toNat < P.nodeN → nodeAt s i = some r →
      readPort P s (BitVec.ofNat 32 (0x400 + 2 * i.toNat)) = .word (nodeLowWord r) ∧
      readPort P s (BitVec.ofNat 32 (0x401 + 2 * i.toNat)) = .word r.weight) ∧
    (∀ k b, k < P.outMax → outAt s k = some b →
      readPort P s (BitVec.ofNat 32 (0x10000 + k)) = .word (b.setWidth 32)) ∧
    (∀ ra : Word, ((0x0E ≤ ra.toNat ∧ ra.toNat < 0x100) ∨ (0x200 + P.pathMax ≤ ra.toNat ∧ ra.toNat < 0x400) ∨
        (0x400 + 2 * P.nodeN ≤ ra.toNat ∧ ra.toNat < 0x10000) ∨ 0x10000 + P.outMax ≤ ra.toNat) →
      readPort P s ra = .word 0)

/-- R34: a host read of an entry at or above its counter finds it unwritten; the answer is then the free word
of the draw counter, of which nothing is known, and the next unwritten read is a new draw (the counter is the model's own,
log 4). -/
def Obligations.UnwrittenEntriesHoldNoValue : Prop :=
  ∀ (P : Config.Params) (s : State), P.ok →
    (∀ i, i < P.pathMax → s.pLen.toNat ≤ i → readPort P s (BitVec.ofNat 32 (0x200 + i)) = .unwritten) ∧
    (∀ i, i < P.nodeN → s.nodeCnt.toNat ≤ i →
      readPort P s (BitVec.ofNat 32 (0x400 + 2 * i)) = .unwritten ∧
      readPort P s (BitVec.ofNat 32 (0x401 + 2 * i)) = .unwritten) ∧
    (∀ k, k < P.outMax → s.outLen.toNat ≤ k → readPort P s (BitVec.ofNat 32 (0x10000 + k)) = .unwritten) ∧
    (∀ ra, readPort P s ra = .unwritten →
      (answerRead P ra s).host.rdData = some (Config.freeWord s.host.draws) ∧
      (answerRead P ra s).host.draws = s.host.draws + 1)

/-- R41: the fields of the STATUS word. -/
def Obligations.StatusWordFields : Prop :=
  ∀ s : State,
    (statusWord s).extractLsb' 0 3 = modeCode s.mode ∧
    (statusWord s)[3] = decide (s.root ≠ NIL) ∧ (statusWord s)[4] = s.outValid ∧
    (statusWord s)[5] = decide (s.mode = .decode ∧ s.cur ≠ s.root) ∧
    (statusWord s)[6] = decide (s.mode = .fault) ∧ (statusWord s)[7] = decide (s.pLen ≠ 0) ∧
    (statusWord s).extractLsb' 8 24 = 0

/-- R43: the fields of the low word of a node read-back; `sym` is 0x100 for NOSYM. -/
def Obligations.NodeLowWordFields : Prop :=
  ∀ r : Node,
    (nodeLowWord r).extractLsb' 0 9 = (match r.sym with | none => 0x100#9 | some b => b.setWidth 9) ∧
    (nodeLowWord r)[9] = false ∧ (nodeLowWord r).extractLsb' 10 10 = r.left ∧
    (nodeLowWord r).extractLsb' 20 10 = r.right ∧ (nodeLowWord r).extractLsb' 30 2 = 0#2

/-! ### Reset, faults and modes -/

/-- R45: the state after reset, and the fault line low. -/
def Obligations.ResetValues : Prop :=
  let s := State.reset
  s.mode = .idle ∧ errCodeByte s.errCode = 0 ∧ s.errInfo = 0 ∧ s.errPos = 0 ∧ s.root = NIL ∧ s.nodeCnt = 0 ∧
    s.cur = NIL ∧ s.outLen = 0 ∧ s.outValid = false ∧ s.bitPos = 0 ∧ s.pLen = 0 ∧ (∀ a, freqAt s a = 0) ∧
    (∀ i, nodeAt s i = none) ∧ (∀ i, pathAt s i = none) ∧ (∀ k, outAt s k = none) ∧ faultLine s = false

/-- R230, R250: what fault entry changes, mode by mode, and that it changes nothing else; the fault line is the level
MODE = FAULT, so it is high after fault entry. -/
def Obligations.FaultEntryByMode : Prop :=
  (∀ (e : ErrorName) (info pos : Word) (s : State),
    (Quiet s → raise e info pos s = plainFault s e info pos) ∧
    (s.mode = .load → raise e info pos s = loadFault s e info pos) ∧
    (s.mode = .decode → raise e info pos s = decodeFault s e info pos) ∧
    faultLine (raise e info pos s) = true) ∧
  ∀ s : State, faultLine s = true ↔ s.mode = .fault

/-- R237, R241: a command raises CommandSequenceError, with its word, in exactly the modes that do not allow it; NOP, RESET
and ECLR in none; in FAULT mode the other eleven are dropped. -/
def Obligations.CommandOutOfModeFaults : Prop :=
  (∀ a imm, ∀ i ∈ [Instr.tdrop, .fclr, .fadd a imm, .build, .lbegin, .dbegin], RunsWhenQuiet i) ∧
  (∀ a, ∀ i ∈ [Instr.ppush a, .insert a, .lend], RunsWhenLoading i) ∧
  (∀ a, ∀ i ∈ [Instr.dbit a, .dend], RunsWhenDecoding i) ∧
  (∀ i ∈ [Instr.nop, .reset, .eclr], ∀ s, InMode i s)

/-- R243: in FAULT mode every word but the encodings of RESET and ECLR has no effect on any state. -/
def Obligations.FaultModeDropsWords : Prop :=
  ∀ (w : Word) (s : State), s.mode = .fault → w ≠ 0x10000000 → w ≠ 0x20000000 → runWord w s = .next s

/-- R240, R241: where each command leaves MODE, from every state with the invariants: DBEGIN goes from READY to DECODE and
from IDLE to FAULT. -/
def Obligations.ModeTransitions : Prop :=
  ∀ (i : Instr) (s t : State), Inv s → exec i s = .next t → ModeMove s t i

/-! ### System commands (40_system_commands.md) -/

/-- R110: NOP, the all-zero word, changes nothing, in every mode. -/
def Obligations.NopChangesNothing : Prop :=
  decode 0x00000000 = .instr .nop ∧ ∀ s : State, exec .nop s = .next s

/-- R111: RESET gives every piece of state its reset value, in all five modes; the host's side is not the block's
(log 1). -/
def Obligations.ResetCommandResets : Prop :=
  decode 0x10000000 = .instr .reset ∧ ∀ s : State, exec .reset s = .next { State.reset with host := s.host }

/-- R112: ECLR in FAULT mode clears the error registers and goes to IDLE or READY by ROOT, the fault line low (R250);
elsewhere it does nothing. -/
def Obligations.EclrReturnsFromTheFault : Prop :=
  decode 0x20000000 = .instr .eclr ∧
  ∀ s : State,
    (s.mode = .fault → exec .eclr s =
      .next { s with errCode := none, errInfo := 0, errPos := 0, mode := if s.root = NIL then .idle else .ready }) ∧
    (s.mode ≠ .fault → exec .eclr s = .next s) ∧
    (∀ t, exec .eclr s = .next t → faultLine t = false)

/-- R113: TDROP in IDLE or READY releases the tree; every NODE entry becomes unwritten; nothing else changes. -/
def Obligations.TdropReleasesTheTree : Prop :=
  decode 0x30000000 = .instr .tdrop ∧ RunsWhenQuiet .tdrop ∧
  ∀ s : State, Quiet s →
    exec .tdrop s = .next { s with mode := .idle, root := NIL, nodeCnt := 0, node := [] } ∧
    ∀ i, nodeAt { s with mode := .idle, root := NIL, nodeCnt := 0, node := [] } i = none

/-! ### Frequency table (41_frequency_and_build.md) -/

/-- R130: FCLR clears every entry and changes nothing else. -/
def Obligations.FclrClearsEveryEntry : Prop :=
  decode 0x40000000 = .instr .fclr ∧ RunsWhenQuiet .fclr ∧
  ∀ s : State, Quiet s → ∃ t, exec .fclr s = .next t ∧ t = { s with freq := t.freq } ∧ ∀ a, freqAt t a = 0

/-- R131: FADD adds the zero-extended count exactly to its entry and changes nothing else, when the sum fits 32 bits; a
sum that does not raises WeightOverflowError with the symbol, the entry unchanged. -/
def Obligations.FaddAddsExactlyOrFaults : Prop :=
  ∀ (a : Byte) (imm : Imm),
    decode ((0x5 : Word) <<< 28 ||| a.setWidth 32 <<< 16 ||| imm.setWidth 32) = .instr (.fadd a imm) ∧
    RunsWhenQuiet (.fadd a imm) ∧
    ∀ s : State, Quiet s →
      ((freqAt s a).toNat + imm.toNat < 4294967296 →
        ∃ t, exec (.fadd a imm) s = .next t ∧ t = { s with freq := t.freq } ∧
          (freqAt t a).toNat = (freqAt s a).toNat + imm.toNat ∧ ∀ b, b ≠ a → freqAt t b = freqAt s b) ∧
      (4294967296 ≤ (freqAt s a).toNat + imm.toNat →
        exec (.fadd a imm) s = .next (plainFault s .weightOverflow (a.setWidth 32) 0))

/-- R29: only FADD, FCLR and RESET change FREQ. -/
def Obligations.OnlyFrequencyCommandsChangeFreq : Prop :=
  ∀ (i : Instr) (s t : State), exec i s = .next t → i ≠ .reset → i ≠ .fclr → (∀ a imm, i ≠ .fadd a imm) →
    t.freq = s.freq

/-- R191: FCLR and one `FADD b, 1` per byte leave in FREQ how often each byte occurs, while every count fits. -/
def Obligations.FrequencyCommandsCount : Prop :=
  ∀ (bytes : List Byte) (s : State), Quiet s → (∀ b, frequencies bytes b < 4294967296) →
    ∃ t, runCommands (frequencyCommands bytes) s = .next t ∧ t = { s with freq := t.freq } ∧
      ∀ b, (freqAt t b).toNat = frequencies bytes b

/-! ### Tree builder (41_frequency_and_build.md) -/

/-- R135: BUILD's faults, in this order: no symbol, too small an arena, a total that does not fit. The old tree is
released, FREQ stays. The arena is too small only for parameters other than the machine's. -/
def Obligations.BuildFaultsInOrder : Prop :=
  ∀ s : State, Quiet s →
    (symbolCount s = 0 → exec .build s = .next
      (plainFault { s with root := NIL, nodeCnt := 0, node := [] } .emptyInput 0 0)) ∧
    (∀ P : Config.Params, symbolCount s ≠ 0 → P.nodeN < nodesNeeded (symbolCount s) → buildBody P s = .next
      (plainFault { s with root := NIL, nodeCnt := 0, node := [] } .nodeMemoryFull 0x100 0)) ∧
    (symbolCount s ≠ 0 → 4294967296 ≤ frequencySum s → exec .build s = .next
      (plainFault { s with root := NIL, nodeCnt := 0, node := [] } .weightOverflow 0x100 0))

/-- R135: BUILD over a non-empty table whose total fits ends in READY with a tree; it changes MODE, ROOT, NODECNT and
NODE only. -/
def Obligations.BuildMakesATree : Prop :=
  ∀ s : State, Quiet s → SomeFrequency s → frequencySum s < 4294967296 →
    ∃ t, exec .build s = .next t ∧
      t = { s with mode := .ready, root := t.root, nodeCnt := t.nodeCnt, node := t.node } ∧ t.root ≠ NIL ∧
      t.nodeCnt.toNat = if symbolCount s = 1 then 2 else 2 * symbolCount s - 1

/-- R138: the shape of a built tree. -/
def Obligations.BuiltTreeShape : Prop :=
  ∀ s : State, Quiet s → SomeFrequency s → frequencySum s < 4294967296 →
    ∃ t, exec .build s = .next t ∧
      (symbolCount s = 1 → t.nodeCnt = 2 ∧ t.root = 1) ∧
      (2 ≤ symbolCount s →
        t.nodeCnt.toNat = 2 * symbolCount s - 1 ∧ t.root.toNat = 2 * symbolCount s - 2 ∧
        (∀ k : Idx, k.toNat < symbolCount s → ∃ b, freqAt s b ≠ 0 ∧ nodeAt t k = some ⟨some b, freqAt s b, NIL, NIL⟩) ∧
        (∀ (j k : Idx) rj rk b c, j.toNat < k.toNat → k.toNat < symbolCount s → nodeAt t j = some rj →
          nodeAt t k = some rk → rj.sym = some b → rk.sym = some c → b.toNat < c.toNat) ∧
        (∀ k : Idx, symbolCount s ≤ k.toNat → k.toNat ≤ 2 * symbolCount s - 2 →
          ∃ r rl rr, nodeAt t k = some r ∧ r.sym = none ∧ r.left.toNat < k.toNat ∧ r.right.toNat < k.toNat ∧
            nodeAt t r.left = some rl ∧ nodeAt t r.right = some rr ∧
            r.weight.toNat = rl.weight.toNat + rr.weight.toNat) ∧
        (∀ (j k : Idx) rj rk, symbolCount s ≤ j.toNat → j.toNat ≤ k.toNat → nodeAt t j = some rj →
          nodeAt t k = some rk → rj.weight.toNat ≤ rk.weight.toNat) ∧
        (∃ r, nodeAt t t.root = some r ∧ r.weight.toNat = frequencySum s))

/-- R137: with exactly one symbol BUILD makes the leaf and the wrapper root; the code is "0": a '0' reaches the leaf and
emits the symbol, a '1' finds no child. -/
def Obligations.SingleSymbolTree : Prop :=
  ∀ (s : State) (a : Byte), Quiet s → freqAt s a ≠ 0 → (∀ b, b ≠ a → freqAt s b = 0) →
    ∃ t, exec .build s = .next t ∧
      t = { s with mode := .ready, root := 1, nodeCnt := 2,
                   node := [(0, ⟨some a, freqAt s a, NIL, NIL⟩), (1, ⟨none, freqAt s a, 0, NIL⟩)] } ∧
      generateCodes t = .map [(a, [0x30])] ∧ decodeBits t [0x30] = .bytes [a] ∧
      decodeBits t [0x31] = .invalidPath 0 .right

/-- R136: keys are (weight, rank, index), the rank of an internal node 256, in lexicographic order; an extraction takes the
least key, and a merge takes the two least, the first extracted left. -/
def Obligations.ExtractionTakesTheLeastKey : Prop :=
  (∀ i r, (keyOf i r).weight = r.weight ∧ (keyOf i r).idx = i ∧
    (keyOf i r).rank.toNat = match r.sym with | none => 256 | some b => b.toNat) ∧
  (∀ x y : Key, x.lt y = true ↔ x.weight.toNat < y.weight.toNat ∨ (x.weight = y.weight ∧
    (x.rank.toNat < y.rank.toNat ∨ (x.rank = y.rank ∧ x.idx.toNat < y.idx.toNat)))) ∧
  (∀ q k rest, popLeast q = some (k, rest) → q.Perm (k :: rest) ∧ ∀ x ∈ rest, x.lt k = false) ∧
  (∀ fuel q s x q1 y q2, popLeast q = some (x, q1) → popLeast q1 = some (y, q2) →
    mergeLoop (fuel + 1) q s =
      mergeLoop fuel (keyOf s.nodeCnt ⟨none, x.weight + y.weight, x.idx, y.idx⟩ :: q2)
        (alloc ⟨none, x.weight + y.weight, x.idx, y.idx⟩ s))

/-- R200: the tree BUILD makes is a function of FREQ alone. -/
def Obligations.BuiltTreeDependsOnFreqOnly : Prop :=
  ∀ s t : State, Quiet s → Quiet t → s.freq = t.freq →
    ∃ s' t', exec .build s = .next s' ∧ exec .build t = .next t' ∧ s'.mode = t'.mode ∧ s'.root = t'.root ∧
      s'.nodeCnt = t'.nodeCnt ∧ s'.node = t'.node

/-! ### Tree loader (42_tree_load.md) -/

/-- R151: LBEGIN releases the tree, allocates the empty root at index 0, clears PATH and opens LOAD mode. -/
def Obligations.LbeginStartsWithAnEmptyRoot : Prop :=
  decode 0x70000000 = .instr .lbegin ∧ RunsWhenQuiet .lbegin ∧
  ∀ s : State, Quiet s → exec .lbegin s =
    .next { s with mode := .load, root := 0, nodeCnt := 1, node := [(0, ⟨none, 0, NIL, NIL⟩)], pLen := 0, path := [] }

/-- R153: PPUSH stores its character, any of the 256, at PLEN, which advances, and changes nothing else; into a full buffer
it raises PathOverflowError with the character and PLEN. -/
def Obligations.PpushStoresTheCharacter : Prop :=
  ∀ a : Byte, decode ((0x8 : Word) <<< 28 ||| a.setWidth 32 <<< 16) = .instr (.ppush a) ∧ RunsWhenLoading (.ppush a) ∧
    ∀ s : State, s.mode = .load →
      (s.pLen.toNat < Config.params.pathMax →
        ∃ t, exec (.ppush a) s = .next t ∧ t = { s with path := t.path, pLen := t.pLen } ∧
          t.pLen.toNat = s.pLen.toNat + 1 ∧ pathAt t s.pLen.toNat = some a ∧
          ∀ i, i < s.pLen.toNat → pathAt t i = pathAt s i) ∧
      (s.pLen.toNat = Config.params.pathMax →
        exec (.ppush a) s = .next (loadFault s .pathOverflow (a.setWidth 32) (s.pLen.setWidth 32)))

/-- R155 step 1: an empty path, or the first character that is no bit-symbol, raises MalformedCodeError before anything
is built, whatever the tree. -/
def Obligations.InsertRejectsMalformedPaths : Prop :=
  ∀ (a : Byte) (s : State), s.mode = .load →
    (s.pLen = 0 → exec (.insert a) s =
      .next (loadFault s .malformedCode (BitVec.ofNat 32 (0x10000 + a.toNat * 256)) 0)) ∧
    (∀ i c, i < s.pLen.toNat → (∀ j, j < s.pLen.toNat → pathAt s j ≠ none) → pathAt s i = some c →
      c ≠ 0x30 → c ≠ 0x31 → (∀ j, j < i → pathAt s j = some 0x30 ∨ pathAt s j = some 0x31) →
      exec (.insert a) s =
        .next (loadFault s .malformedCode (BitVec.ofNat 32 (a.toNat * 256 + c.toNat)) (BitVec.ofNat 32 i)))

/-- R155 steps 2 and 3: a path through a node that holds a symbol, a path that ends on one with a different symbol, and a
path that ends on a node with children. -/
def Obligations.InsertConflictsFault : Prop :=
  ∀ (a : Byte) (s : State) (p : List Byte), s.mode = .load → ValidRecord s p →
    (∀ q n r b, q <+: p → q ≠ p → OpenPath s q → follow s s.root q = some n → nodeAt s n = some r →
      r.sym = some b → exec (.insert a) s = .next
        (loadFault s .prefixConflict (BitVec.ofNat 32 (b.toNat * 256 + a.toNat)) (BitVec.ofNat 32 q.length))) ∧
    (∀ n r, OpenPath s p → follow s s.root p = some n → nodeAt s n = some r →
      (∀ b, r.sym = some b → b ≠ a → exec (.insert a) s = .next
        (loadFault s .duplicateCode (BitVec.ofNat 32 (b.toNat * 256 + a.toNat)) (s.pLen.setWidth 32))) ∧
      ((r.sym = none ∨ r.sym = some a) → r.isLeaf = false → exec (.insert a) s = .next
        (loadFault s .prefixConflict (BitVec.ofNat 32 (0x10000 + a.toNat)) (s.pLen.setWidth 32))))

/-- R155 step 2: the arena is full when a node is needed, at the path index where the room ends. -/
def Obligations.InsertIntoFullArenaFaults : Prop :=
  ∀ (a : Byte) (s : State) (q rest : List Byte) (n : Idx), s.mode = .load → ValidRecord s (q ++ rest) →
    LeavesTreeAt s q rest n → s.nodeCnt.toNat ≤ Config.params.nodeN →
    Config.params.nodeN < s.nodeCnt.toNat + rest.length →
    exec (.insert a) s = .next (loadFault s .nodeMemoryFull (a.setWidth 32)
      (BitVec.ofNat 32 (q.length + (Config.params.nodeN - s.nodeCnt.toNat))))

/-- R155: a record whose path leaves the tree at a missing child gets one new node per remaining character, at rising
indexes from NODECNT on, of weight 0, each the one child of the one before, the last a leaf with its symbol; the node the
path left from gets the first of them as that child; no other node changes; PATH is cleared and nothing else changes. -/
def Obligations.InsertAddsTheLeaf : Prop :=
  ∀ (a : Byte) (s : State) (q rest : List Byte) (n : Idx), s.mode = .load → ValidRecord s (q ++ rest) →
    LeavesTreeAt s q rest n → s.nodeCnt.toNat + rest.length ≤ Config.params.nodeN →
    ∃ t, exec (.insert a) s = .next t ∧
      t = { s with node := t.node, nodeCnt := t.nodeCnt, pLen := 0, path := [] } ∧
      t.nodeCnt.toNat = s.nodeCnt.toNat + rest.length ∧
      (∃ m, follow t t.root (q ++ rest) = some m ∧ m.toNat = s.nodeCnt.toNat + (rest.length - 1) ∧
        nodeAt t m = some ⟨some a, 0, NIL, NIL⟩) ∧
      (∀ j b, rest[j + 1]?.bind bitSymbol = some b →
        nodeAt t (BitVec.ofNat 10 (s.nodeCnt.toNat + j)) =
          some ((⟨none, 0, NIL, NIL⟩ : Node).withChild b (BitVec.ofNat 10 (s.nodeCnt.toNat + j + 1)))) ∧
      (∀ r b, nodeAt s n = some r → rest.head?.bind bitSymbol = some b →
        nodeAt t n = some (r.withChild b s.nodeCnt)) ∧
      (∀ i r, nodeAt s i = some r → i ≠ n → nodeAt t i = some r)

/-- R155: inserting the same symbol at the same path again is accepted and leaves the tree as it is. -/
def Obligations.InsertAgainChangesNothing : Prop :=
  ∀ (a : Byte) (s : State) (p : List Byte) (n : Idx) (r : Node), s.mode = .load → ValidRecord s p → OpenPath s p →
    follow s s.root p = some n → nodeAt s n = some r → r.sym = some a → r.isLeaf = true → Memory.wf s.node →
    exec (.insert a) s = .next { s with pLen := 0, path := [] }

/-- R158: LEND drops the characters pushed since the last INSERT and goes to READY; nothing else changes. -/
def Obligations.LendClosesTheSession : Prop :=
  decode 0xA0000000 = .instr .lend ∧ RunsWhenLoading .lend ∧
  ∀ s : State, s.mode = .load → exec .lend s = .next { s with mode := .ready, pLen := 0, path := [] }

/-! ### Decoder (43_decode.md) -/

/-- R171: DBEGIN clears the output and BITPOS and starts the walk at ROOT; nothing else changes. Without a tree it raises
EmptyTreeError, the earlier result lost all the same. -/
def Obligations.DbeginStartsAtTheRoot : Prop :=
  decode 0xB0000000 = .instr .dbegin ∧ RunsWhenQuiet .dbegin ∧
  ∀ s : State, Quiet s →
    (s.root ≠ NIL → exec .dbegin s =
      .next { s with mode := .decode, cur := s.root, outLen := 0, outValid := false, out := [], bitPos := 0 }) ∧
    (s.root = NIL → exec .dbegin s =
      .next (plainFault { s with outLen := 0, outValid := false, out := [], bitPos := 0 } .emptyTree 0 0))

/-- R172: one DBIT. A character that is no bit-symbol, whatever the tree; a missing child; a node with a child, where CUR
goes; a leaf, whose symbol goes to OUT at OUTLEN, CUR back to ROOT; a leaf with OUT full. A fault leaves the tree and
clears the output; a DBIT that does not fault counts the bit-symbol; nothing else changes. -/
def Obligations.DbitConsumesOneBitSymbol : Prop :=
  ∀ a : Byte, decode ((0xC : Word) <<< 28 ||| a.setWidth 32 <<< 16) = .instr (.dbit a) ∧ RunsWhenDecoding (.dbit a) ∧
    ∀ s : State, s.mode = .decode →
      (a ≠ 0x30 → a ≠ 0x31 → exec (.dbit a) s = .next (decodeFault s .invalidBit (a.setWidth 32) s.bitPos)) ∧
      ∀ b r, a = sideChar b → nodeAt s s.cur = some r →
        (r.child b = NIL → exec (.dbit a) s = .next (decodeFault s .invalidPath (sideBit b) s.bitPos)) ∧
        ∀ rc, r.child b ≠ NIL → nodeAt s (r.child b) = some rc →
          (rc.isLeaf = false → exec (.dbit a) s = .next { s with cur := r.child b, bitPos := s.bitPos + 1 }) ∧
          ∀ y, rc.isLeaf = true → rc.sym = some y →
            (s.outLen.toNat = Config.params.outMax →
              exec (.dbit a) s = .next (decodeFault s .outputOverflow (y.setWidth 32) s.bitPos)) ∧
            (s.outLen.toNat < Config.params.outMax →
              ∃ t, exec (.dbit a) s = .next t ∧
                t = { s with cur := s.root, bitPos := s.bitPos + 1, out := t.out, outLen := t.outLen } ∧
                t.outLen.toNat = s.outLen.toNat + 1 ∧ outAt t s.outLen.toNat = some y ∧
                ∀ k, k < s.outLen.toNat → outAt t k = outAt s k)

/-- R174: DEND at ROOT makes the output valid and closes the session; nothing else changes. In the middle of a code it
raises IncompleteSequenceError with CUR and BITPOS, the output cleared. -/
def Obligations.DendCompletesTheSession : Prop :=
  decode 0xD0000000 = .instr .dend ∧ RunsWhenDecoding .dend ∧
  ∀ s : State, s.mode = .decode →
    (s.cur = s.root → exec .dend s = .next { s with mode := .ready, outValid := true, cur := NIL }) ∧
    (s.cur ≠ s.root → exec .dend s = .next (decodeFault s .incompleteSequence (s.cur.setWidth 32) s.bitPos))

/-- R26: OUTLEN, OUT_VALID and OUT are not changed by BUILD, LBEGIN, TDROP, the load commands or the frequency commands
(outside a decode session; in one they are sequence errors). -/
def Obligations.FinishedOutputStays : Prop :=
  ∀ (a : Byte) (imm : Imm) (s t : State), s.mode ≠ .decode →
    ∀ i ∈ [Instr.build, .lbegin, .tdrop, .ppush a, .insert a, .lend, .fclr, .fadd a imm], exec i s = .next t →
      t.outLen = s.outLen ∧ t.outValid = s.outValid ∧ t.out = s.out

/-- R72: in a decode session no command but RESET changes NODE; ROOT and NODECNT stay with it. -/
def Obligations.TreeIsFixedWhileDecoding : Prop :=
  ∀ (i : Instr) (s t : State), s.mode = .decode → i ≠ .reset → exec i s = .next t →
    t.node = s.node ∧ t.nodeCnt = s.nodeCnt ∧ t.root = s.root

/-! ### Invariants (10_state.md R36, R37, 20_memory.md R66, 43_decode.md R178) -/

/-- R36, R37: the invariants hold after reset. -/
def Obligations.InvariantAtReset : Prop := Inv State.reset ∧ BitposInv State.reset

/-- R36, R37: every step keeps the invariants, from every state that has them. -/
def Obligations.InvariantIsKept : Prop :=
  ∀ s t : State, Inv s → step s = .next t → Inv t

/-- R66, R242: from every state with the invariants the step answers a next state: no command reads an unwritten entry
or writes outside a store. -/
def Obligations.InvariantMakesStepsSafe : Prop :=
  ∀ s : State, Inv s → SafeStep s

/-- R178: BITPOS never wraps. -/
def Obligations.BitposNeverWraps : Prop :=
  (bitposLimit < 4294967296) ∧
  (∀ s t : State, Inv s → BitposInv s → step s = .next t → BitposInv t) ∧
  (∀ (a : Byte) (s t : State), Inv s → BitposInv s → s.mode = .decode → exec (.dbit a) s = .next t →
    t.mode = .decode → t.bitPos.toNat = s.bitPos.toNat + 1)

/-- The stores keep their canonical form in every step, from every state that has it (log 9). -/
def Obligations.StoresStayCanonical : Prop :=
  ∀ s t : State, Memory.wf s.node → Memory.wf s.path → Memory.wf s.out → step s = .next t →
    Memory.wf t.node ∧ Memory.wf t.path ∧ Memory.wf t.out

/-- R36 (c): following child fields from ROOT reaches every written entry. -/
def Obligations.EveryNodeIsReachedFromTheRoot : Prop :=
  ∀ (s : State) (i : Idx), Inv s → i.toNat < s.nodeCnt.toNat → ∃ p, follow s s.root p = some i

/-! ### Sessions and reference functions (44_reference_functions.md) -/

/-- R176: a decode session computes the pure walk, when the output never exceeds OUT_MAX. -/
def Obligations.DecodeSessionIsThePureWalk : Prop :=
  ∀ (s : State) (bits : List Byte), Inv s → s.mode = .ready →
    (emittedBy s bits s.root).length ≤ Config.params.outMax →
    ∃ t, runCommands (decodeCommands bits) s = .next t ∧
      match decodeBits s bits with
      | .bytes bs => t.mode = .ready ∧ t.outValid = true ∧ t.outLen.toNat = bs.length ∧ outBytes t = bs
      | .invalidBit k c => t.mode = .fault ∧ t.errCode = some .invalidBit ∧ t.errInfo = c.setWidth 32 ∧
          t.errPos = BitVec.ofNat 32 k ∧ t.outLen = 0 ∧ t.outValid = false
      | .invalidPath k b => t.mode = .fault ∧ t.errCode = some .invalidPath ∧ t.errInfo = sideBit b ∧
          t.errPos = BitVec.ofNat 32 k ∧ t.outLen = 0 ∧ t.outValid = false
      | .incomplete m p => t.mode = .fault ∧ t.errCode = some .incompleteSequence ∧ t.errInfo = p.setWidth 32 ∧
          t.errPos = BitVec.ofNat 32 m ∧ m = bits.length ∧ t.outLen = 0 ∧ t.outValid = false

/-- R198: no code of a generated map is a prefix of another symbol's code. -/
def Obligations.GeneratedCodesArePrefixFree : Prop :=
  ∀ (s : State) (m : CodeMap), Inv s → generateCodes s = .map m → PrefixFree m

/-- R194: `encode` concatenates the codes, and names the first byte that has none. -/
def Obligations.EncodeNamesTheFirstUnknownSymbol : Prop :=
  ∀ (m : CodeMap) (bytes : List Byte),
    (∀ cs, encodeBytes bytes m = .bits cs ↔
      (∀ b ∈ bytes, codeOf m b ≠ none) ∧ cs = bytes.flatMap (fun b => (codeOf m b).getD [])) ∧
    (∀ b k, encodeBytes bytes m = .unknownSymbol b k ↔
      bytes[k]? = some b ∧ codeOf m b = none ∧ ∀ j c, j < k → bytes[j]? = some c → codeOf m c ≠ none)

/-- R196: the round trip. -/
def Obligations.RoundTrip : Prop :=
  ∀ (s : State) (bytes : List Byte), bytes ≠ [] → bytes.length ≤ Config.params.outMax →
    ∃ t m cs u, runCommands (.reset :: (bytes.map (fun b => .fadd b 1) ++ [.build])) s = .next t ∧
      generateCodes t = .map m ∧ encodeBytes bytes m = .bits cs ∧ runCommands (decodeCommands cs) t = .next u ∧
      u.mode = .ready ∧ u.outValid = true ∧ u.outLen.toNat = bytes.length ∧ outBytes u = bytes

/-- R159: what a successful load session builds: one leaf per record, at the end of its path, holding its symbol; no other
node holds a symbol; the nodes are the root and one for each distinct non-empty prefix of the paths. -/
def Obligations.LoadSessionBuildsTheTable : Prop :=
  ∀ (s : State) (records : CodeMap), Quiet s → (records.map Prod.fst).Nodup →
    (∀ x ∈ records, x.2 ≠ [] ∧ x.2.length ≤ Config.params.pathMax ∧ ∀ c ∈ x.2, bitSymbol c ≠ none) →
    PrefixFree records → 1 + (pathParts records).length ≤ Config.params.nodeN →
    ∃ t, runCommands (loadCommands records) s = .next t ∧ t.mode = .ready ∧
      t.nodeCnt.toNat = 1 + (pathParts records).length ∧
      (∀ x ∈ records, ∃ n, follow t t.root x.2 = some n ∧ nodeAt t n = some ⟨some x.1, 0, NIL, NIL⟩) ∧
      (∀ n r b, nodeAt t n = some r → r.sym = some b → ∃ x ∈ records, x.1 = b ∧ follow t t.root x.2 = some n)

/-- R197: the load session of a built tree's code map, its records in any order, does not fault; the reloaded tree has as
many nodes as the built one and the same codes, and the two decode every stream alike: same mode, output, OUTLEN, OUT_VALID, ERRCODE and ERRPOS; ERRINFO can differ for
IncompleteSequenceError only. -/
def Obligations.ReconstructionEquivalence : Prop :=
  ∀ (s t : State) (m records : CodeMap) (bits : List Byte), Quiet s → exec .build s = .next t →
    generateCodes t = .map m → records.Perm m →
    ∃ u, runCommands (loadCommands records) t = .next u ∧ u.mode = .ready ∧ u.nodeCnt = t.nodeCnt ∧ (∃ m', generateCodes u = .map m' ∧ m'.Perm m) ∧
      ∃ t' u', runCommands (decodeCommands bits) t = .next t' ∧ runCommands (decodeCommands bits) u = .next u' ∧
        u'.mode = t'.mode ∧ outBytes u' = outBytes t' ∧ u'.outLen = t'.outLen ∧ u'.outValid = t'.outValid ∧
        u'.errCode = t'.errCode ∧ u'.errPos = t'.errPos ∧
        (t'.errCode ≠ some .incompleteSequence → u'.errInfo = t'.errInfo)

/-- R139, R199: the tree BUILD makes minimises the weighted path length: no prefix-free code for the same symbols has a
smaller one. -/
def Obligations.BuiltCodeIsOptimal : Prop :=
  ∀ (s t : State) (m m' : CodeMap), Quiet s → SomeFrequency s → frequencySum s < 4294967296 →
    exec .build s = .next t → generateCodes t = .map m → CodeForFreq s m' → PrefixFree m' →
    CodeForFreq s m ∧ weightedLength s m ≤ weightedLength s m'
end

