-- ==== Sys2Proof/Laws/State.lean ====
section
/-! SUPPORT. What each named update of the state leaves in each field, so that no proof unfolds a record update. -/

namespace Sys2Proof.Machine

/-! ### setFreq -/

@[simp] theorem setFreq_mode (a : Byte) (v : Word) (s : State) : (setFreq s a v).mode = s.mode := rfl
@[simp] theorem setFreq_errCode (a : Byte) (v : Word) (s : State) : (setFreq s a v).errCode = s.errCode := rfl
@[simp] theorem setFreq_errInfo (a : Byte) (v : Word) (s : State) : (setFreq s a v).errInfo = s.errInfo := rfl
@[simp] theorem setFreq_errPos (a : Byte) (v : Word) (s : State) : (setFreq s a v).errPos = s.errPos := rfl
@[simp] theorem setFreq_root (a : Byte) (v : Word) (s : State) : (setFreq s a v).root = s.root := rfl
@[simp] theorem setFreq_nodeCnt (a : Byte) (v : Word) (s : State) : (setFreq s a v).nodeCnt = s.nodeCnt := rfl
@[simp] theorem setFreq_cur (a : Byte) (v : Word) (s : State) : (setFreq s a v).cur = s.cur := rfl
@[simp] theorem setFreq_outLen (a : Byte) (v : Word) (s : State) : (setFreq s a v).outLen = s.outLen := rfl
@[simp] theorem setFreq_outValid (a : Byte) (v : Word) (s : State) : (setFreq s a v).outValid = s.outValid := rfl
@[simp] theorem setFreq_bitPos (a : Byte) (v : Word) (s : State) : (setFreq s a v).bitPos = s.bitPos := rfl
@[simp] theorem setFreq_pLen (a : Byte) (v : Word) (s : State) : (setFreq s a v).pLen = s.pLen := rfl
@[simp] theorem setFreq_freq (a : Byte) (v : Word) (s : State) : (setFreq s a v).freq = s.freq.set a.toNat v a.isLt := rfl
@[simp] theorem setFreq_node (a : Byte) (v : Word) (s : State) : (setFreq s a v).node = s.node := rfl
@[simp] theorem setFreq_path (a : Byte) (v : Word) (s : State) : (setFreq s a v).path = s.path := rfl
@[simp] theorem setFreq_out (a : Byte) (v : Word) (s : State) : (setFreq s a v).out = s.out := rfl
@[simp] theorem setFreq_host (a : Byte) (v : Word) (s : State) : (setFreq s a v).host = s.host := rfl

/-! ### writeNode -/

@[simp] theorem writeNode_mode (i : Idx) (r : Node) (s : State) : (writeNode i r s).mode = s.mode := rfl
@[simp] theorem writeNode_errCode (i : Idx) (r : Node) (s : State) : (writeNode i r s).errCode = s.errCode := rfl
@[simp] theorem writeNode_errInfo (i : Idx) (r : Node) (s : State) : (writeNode i r s).errInfo = s.errInfo := rfl
@[simp] theorem writeNode_errPos (i : Idx) (r : Node) (s : State) : (writeNode i r s).errPos = s.errPos := rfl
@[simp] theorem writeNode_root (i : Idx) (r : Node) (s : State) : (writeNode i r s).root = s.root := rfl
@[simp] theorem writeNode_nodeCnt (i : Idx) (r : Node) (s : State) : (writeNode i r s).nodeCnt = s.nodeCnt := rfl
@[simp] theorem writeNode_cur (i : Idx) (r : Node) (s : State) : (writeNode i r s).cur = s.cur := rfl
@[simp] theorem writeNode_outLen (i : Idx) (r : Node) (s : State) : (writeNode i r s).outLen = s.outLen := rfl
@[simp] theorem writeNode_outValid (i : Idx) (r : Node) (s : State) : (writeNode i r s).outValid = s.outValid := rfl
@[simp] theorem writeNode_bitPos (i : Idx) (r : Node) (s : State) : (writeNode i r s).bitPos = s.bitPos := rfl
@[simp] theorem writeNode_pLen (i : Idx) (r : Node) (s : State) : (writeNode i r s).pLen = s.pLen := rfl
@[simp] theorem writeNode_freq (i : Idx) (r : Node) (s : State) : (writeNode i r s).freq = s.freq := rfl
@[simp] theorem writeNode_node (i : Idx) (r : Node) (s : State) : (writeNode i r s).node = Memory.write s.node i.toNat r := rfl
@[simp] theorem writeNode_path (i : Idx) (r : Node) (s : State) : (writeNode i r s).path = s.path := rfl
@[simp] theorem writeNode_out (i : Idx) (r : Node) (s : State) : (writeNode i r s).out = s.out := rfl
@[simp] theorem writeNode_host (i : Idx) (r : Node) (s : State) : (writeNode i r s).host = s.host := rfl

/-! ### alloc -/

@[simp] theorem alloc_mode (r : Node) (s : State) : (alloc r s).mode = s.mode := rfl
@[simp] theorem alloc_errCode (r : Node) (s : State) : (alloc r s).errCode = s.errCode := rfl
@[simp] theorem alloc_errInfo (r : Node) (s : State) : (alloc r s).errInfo = s.errInfo := rfl
@[simp] theorem alloc_errPos (r : Node) (s : State) : (alloc r s).errPos = s.errPos := rfl
@[simp] theorem alloc_root (r : Node) (s : State) : (alloc r s).root = s.root := rfl
@[simp] theorem alloc_nodeCnt (r : Node) (s : State) : (alloc r s).nodeCnt = s.nodeCnt + 1 := rfl
@[simp] theorem alloc_cur (r : Node) (s : State) : (alloc r s).cur = s.cur := rfl
@[simp] theorem alloc_outLen (r : Node) (s : State) : (alloc r s).outLen = s.outLen := rfl
@[simp] theorem alloc_outValid (r : Node) (s : State) : (alloc r s).outValid = s.outValid := rfl
@[simp] theorem alloc_bitPos (r : Node) (s : State) : (alloc r s).bitPos = s.bitPos := rfl
@[simp] theorem alloc_pLen (r : Node) (s : State) : (alloc r s).pLen = s.pLen := rfl
@[simp] theorem alloc_freq (r : Node) (s : State) : (alloc r s).freq = s.freq := rfl
@[simp] theorem alloc_node (r : Node) (s : State) : (alloc r s).node = Memory.write s.node s.nodeCnt.toNat r := rfl
@[simp] theorem alloc_path (r : Node) (s : State) : (alloc r s).path = s.path := rfl
@[simp] theorem alloc_out (r : Node) (s : State) : (alloc r s).out = s.out := rfl
@[simp] theorem alloc_host (r : Node) (s : State) : (alloc r s).host = s.host := rfl

/-! ### discardTree -/

@[simp] theorem discardTree_mode (s : State) : (discardTree s).mode = s.mode := rfl
@[simp] theorem discardTree_errCode (s : State) : (discardTree s).errCode = s.errCode := rfl
@[simp] theorem discardTree_errInfo (s : State) : (discardTree s).errInfo = s.errInfo := rfl
@[simp] theorem discardTree_errPos (s : State) : (discardTree s).errPos = s.errPos := rfl
@[simp] theorem discardTree_root (s : State) : (discardTree s).root = NIL := rfl
@[simp] theorem discardTree_nodeCnt (s : State) : (discardTree s).nodeCnt = 0 := rfl
@[simp] theorem discardTree_cur (s : State) : (discardTree s).cur = s.cur := rfl
@[simp] theorem discardTree_outLen (s : State) : (discardTree s).outLen = s.outLen := rfl
@[simp] theorem discardTree_outValid (s : State) : (discardTree s).outValid = s.outValid := rfl
@[simp] theorem discardTree_bitPos (s : State) : (discardTree s).bitPos = s.bitPos := rfl
@[simp] theorem discardTree_pLen (s : State) : (discardTree s).pLen = s.pLen := rfl
@[simp] theorem discardTree_freq (s : State) : (discardTree s).freq = s.freq := rfl
@[simp] theorem discardTree_node (s : State) : (discardTree s).node = [] := rfl
@[simp] theorem discardTree_path (s : State) : (discardTree s).path = s.path := rfl
@[simp] theorem discardTree_out (s : State) : (discardTree s).out = s.out := rfl
@[simp] theorem discardTree_host (s : State) : (discardTree s).host = s.host := rfl

/-! ### clearOutput -/

@[simp] theorem clearOutput_mode (s : State) : (clearOutput s).mode = s.mode := rfl
@[simp] theorem clearOutput_errCode (s : State) : (clearOutput s).errCode = s.errCode := rfl
@[simp] theorem clearOutput_errInfo (s : State) : (clearOutput s).errInfo = s.errInfo := rfl
@[simp] theorem clearOutput_errPos (s : State) : (clearOutput s).errPos = s.errPos := rfl
@[simp] theorem clearOutput_root (s : State) : (clearOutput s).root = s.root := rfl
@[simp] theorem clearOutput_nodeCnt (s : State) : (clearOutput s).nodeCnt = s.nodeCnt := rfl
@[simp] theorem clearOutput_cur (s : State) : (clearOutput s).cur = s.cur := rfl
@[simp] theorem clearOutput_outLen (s : State) : (clearOutput s).outLen = 0 := rfl
@[simp] theorem clearOutput_outValid (s : State) : (clearOutput s).outValid = false := rfl
@[simp] theorem clearOutput_bitPos (s : State) : (clearOutput s).bitPos = s.bitPos := rfl
@[simp] theorem clearOutput_pLen (s : State) : (clearOutput s).pLen = s.pLen := rfl
@[simp] theorem clearOutput_freq (s : State) : (clearOutput s).freq = s.freq := rfl
@[simp] theorem clearOutput_node (s : State) : (clearOutput s).node = s.node := rfl
@[simp] theorem clearOutput_path (s : State) : (clearOutput s).path = s.path := rfl
@[simp] theorem clearOutput_out (s : State) : (clearOutput s).out = [] := rfl
@[simp] theorem clearOutput_host (s : State) : (clearOutput s).host = s.host := rfl

/-! ### clearPath -/

@[simp] theorem clearPath_mode (s : State) : (clearPath s).mode = s.mode := rfl
@[simp] theorem clearPath_errCode (s : State) : (clearPath s).errCode = s.errCode := rfl
@[simp] theorem clearPath_errInfo (s : State) : (clearPath s).errInfo = s.errInfo := rfl
@[simp] theorem clearPath_errPos (s : State) : (clearPath s).errPos = s.errPos := rfl
@[simp] theorem clearPath_root (s : State) : (clearPath s).root = s.root := rfl
@[simp] theorem clearPath_nodeCnt (s : State) : (clearPath s).nodeCnt = s.nodeCnt := rfl
@[simp] theorem clearPath_cur (s : State) : (clearPath s).cur = s.cur := rfl
@[simp] theorem clearPath_outLen (s : State) : (clearPath s).outLen = s.outLen := rfl
@[simp] theorem clearPath_outValid (s : State) : (clearPath s).outValid = s.outValid := rfl
@[simp] theorem clearPath_bitPos (s : State) : (clearPath s).bitPos = s.bitPos := rfl
@[simp] theorem clearPath_pLen (s : State) : (clearPath s).pLen = 0 := rfl
@[simp] theorem clearPath_freq (s : State) : (clearPath s).freq = s.freq := rfl
@[simp] theorem clearPath_node (s : State) : (clearPath s).node = s.node := rfl
@[simp] theorem clearPath_path (s : State) : (clearPath s).path = [] := rfl
@[simp] theorem clearPath_out (s : State) : (clearPath s).out = s.out := rfl
@[simp] theorem clearPath_host (s : State) : (clearPath s).host = s.host := rfl

/-! ### pushPath -/

@[simp] theorem pushPath_mode (c : Byte) (s : State) : (pushPath c s).mode = s.mode := rfl
@[simp] theorem pushPath_errCode (c : Byte) (s : State) : (pushPath c s).errCode = s.errCode := rfl
@[simp] theorem pushPath_errInfo (c : Byte) (s : State) : (pushPath c s).errInfo = s.errInfo := rfl
@[simp] theorem pushPath_errPos (c : Byte) (s : State) : (pushPath c s).errPos = s.errPos := rfl
@[simp] theorem pushPath_root (c : Byte) (s : State) : (pushPath c s).root = s.root := rfl
@[simp] theorem pushPath_nodeCnt (c : Byte) (s : State) : (pushPath c s).nodeCnt = s.nodeCnt := rfl
@[simp] theorem pushPath_cur (c : Byte) (s : State) : (pushPath c s).cur = s.cur := rfl
@[simp] theorem pushPath_outLen (c : Byte) (s : State) : (pushPath c s).outLen = s.outLen := rfl
@[simp] theorem pushPath_outValid (c : Byte) (s : State) : (pushPath c s).outValid = s.outValid := rfl
@[simp] theorem pushPath_bitPos (c : Byte) (s : State) : (pushPath c s).bitPos = s.bitPos := rfl
@[simp] theorem pushPath_pLen (c : Byte) (s : State) : (pushPath c s).pLen = s.pLen + 1 := rfl
@[simp] theorem pushPath_freq (c : Byte) (s : State) : (pushPath c s).freq = s.freq := rfl
@[simp] theorem pushPath_node (c : Byte) (s : State) : (pushPath c s).node = s.node := rfl
@[simp] theorem pushPath_path (c : Byte) (s : State) : (pushPath c s).path = Memory.write s.path s.pLen.toNat c := rfl
@[simp] theorem pushPath_out (c : Byte) (s : State) : (pushPath c s).out = s.out := rfl
@[simp] theorem pushPath_host (c : Byte) (s : State) : (pushPath c s).host = s.host := rfl

/-! ### pushOut -/

@[simp] theorem pushOut_mode (b : Byte) (s : State) : (pushOut b s).mode = s.mode := rfl
@[simp] theorem pushOut_errCode (b : Byte) (s : State) : (pushOut b s).errCode = s.errCode := rfl
@[simp] theorem pushOut_errInfo (b : Byte) (s : State) : (pushOut b s).errInfo = s.errInfo := rfl
@[simp] theorem pushOut_errPos (b : Byte) (s : State) : (pushOut b s).errPos = s.errPos := rfl
@[simp] theorem pushOut_root (b : Byte) (s : State) : (pushOut b s).root = s.root := rfl
@[simp] theorem pushOut_nodeCnt (b : Byte) (s : State) : (pushOut b s).nodeCnt = s.nodeCnt := rfl
@[simp] theorem pushOut_cur (b : Byte) (s : State) : (pushOut b s).cur = s.cur := rfl
@[simp] theorem pushOut_outLen (b : Byte) (s : State) : (pushOut b s).outLen = s.outLen + 1 := rfl
@[simp] theorem pushOut_outValid (b : Byte) (s : State) : (pushOut b s).outValid = s.outValid := rfl
@[simp] theorem pushOut_bitPos (b : Byte) (s : State) : (pushOut b s).bitPos = s.bitPos := rfl
@[simp] theorem pushOut_pLen (b : Byte) (s : State) : (pushOut b s).pLen = s.pLen := rfl
@[simp] theorem pushOut_freq (b : Byte) (s : State) : (pushOut b s).freq = s.freq := rfl
@[simp] theorem pushOut_node (b : Byte) (s : State) : (pushOut b s).node = s.node := rfl
@[simp] theorem pushOut_path (b : Byte) (s : State) : (pushOut b s).path = s.path := rfl
@[simp] theorem pushOut_out (b : Byte) (s : State) : (pushOut b s).out = Memory.write s.out s.outLen.toNat b := rfl
@[simp] theorem pushOut_host (b : Byte) (s : State) : (pushOut b s).host = s.host := rfl

/-! ### setError -/

@[simp] theorem setError_mode (e : Option ErrorName) (info pos : Word) (s : State) : (setError e info pos s).mode = s.mode := rfl
@[simp] theorem setError_errCode (e : Option ErrorName) (info pos : Word) (s : State) : (setError e info pos s).errCode = e := rfl
@[simp] theorem setError_errInfo (e : Option ErrorName) (info pos : Word) (s : State) : (setError e info pos s).errInfo = info := rfl
@[simp] theorem setError_errPos (e : Option ErrorName) (info pos : Word) (s : State) : (setError e info pos s).errPos = pos := rfl
@[simp] theorem setError_root (e : Option ErrorName) (info pos : Word) (s : State) : (setError e info pos s).root = s.root := rfl
@[simp] theorem setError_nodeCnt (e : Option ErrorName) (info pos : Word) (s : State) : (setError e info pos s).nodeCnt = s.nodeCnt := rfl
@[simp] theorem setError_cur (e : Option ErrorName) (info pos : Word) (s : State) : (setError e info pos s).cur = s.cur := rfl
@[simp] theorem setError_outLen (e : Option ErrorName) (info pos : Word) (s : State) : (setError e info pos s).outLen = s.outLen := rfl
@[simp] theorem setError_outValid (e : Option ErrorName) (info pos : Word) (s : State) : (setError e info pos s).outValid = s.outValid := rfl
@[simp] theorem setError_bitPos (e : Option ErrorName) (info pos : Word) (s : State) : (setError e info pos s).bitPos = s.bitPos := rfl
@[simp] theorem setError_pLen (e : Option ErrorName) (info pos : Word) (s : State) : (setError e info pos s).pLen = s.pLen := rfl
@[simp] theorem setError_freq (e : Option ErrorName) (info pos : Word) (s : State) : (setError e info pos s).freq = s.freq := rfl
@[simp] theorem setError_node (e : Option ErrorName) (info pos : Word) (s : State) : (setError e info pos s).node = s.node := rfl
@[simp] theorem setError_path (e : Option ErrorName) (info pos : Word) (s : State) : (setError e info pos s).path = s.path := rfl
@[simp] theorem setError_out (e : Option ErrorName) (info pos : Word) (s : State) : (setError e info pos s).out = s.out := rfl
@[simp] theorem setError_host (e : Option ErrorName) (info pos : Word) (s : State) : (setError e info pos s).host = s.host := rfl

/-! ### clearFault -/

@[simp] theorem clearFault_mode (s : State) : (clearFault s).mode = if s.root = NIL then .idle else .ready := rfl
@[simp] theorem clearFault_errCode (s : State) : (clearFault s).errCode = none := rfl
@[simp] theorem clearFault_errInfo (s : State) : (clearFault s).errInfo = 0 := rfl
@[simp] theorem clearFault_errPos (s : State) : (clearFault s).errPos = 0 := rfl
@[simp] theorem clearFault_root (s : State) : (clearFault s).root = s.root := rfl
@[simp] theorem clearFault_nodeCnt (s : State) : (clearFault s).nodeCnt = s.nodeCnt := rfl
@[simp] theorem clearFault_cur (s : State) : (clearFault s).cur = s.cur := rfl
@[simp] theorem clearFault_outLen (s : State) : (clearFault s).outLen = s.outLen := rfl
@[simp] theorem clearFault_outValid (s : State) : (clearFault s).outValid = s.outValid := rfl
@[simp] theorem clearFault_bitPos (s : State) : (clearFault s).bitPos = s.bitPos := rfl
@[simp] theorem clearFault_pLen (s : State) : (clearFault s).pLen = s.pLen := rfl
@[simp] theorem clearFault_freq (s : State) : (clearFault s).freq = s.freq := rfl
@[simp] theorem clearFault_node (s : State) : (clearFault s).node = s.node := rfl
@[simp] theorem clearFault_path (s : State) : (clearFault s).path = s.path := rfl
@[simp] theorem clearFault_out (s : State) : (clearFault s).out = s.out := rfl
@[simp] theorem clearFault_host (s : State) : (clearFault s).host = s.host := rfl

/-! ### countBit -/

@[simp] theorem countBit_mode (s : State) : (countBit s).mode = s.mode := rfl
@[simp] theorem countBit_errCode (s : State) : (countBit s).errCode = s.errCode := rfl
@[simp] theorem countBit_errInfo (s : State) : (countBit s).errInfo = s.errInfo := rfl
@[simp] theorem countBit_errPos (s : State) : (countBit s).errPos = s.errPos := rfl
@[simp] theorem countBit_root (s : State) : (countBit s).root = s.root := rfl
@[simp] theorem countBit_nodeCnt (s : State) : (countBit s).nodeCnt = s.nodeCnt := rfl
@[simp] theorem countBit_cur (s : State) : (countBit s).cur = s.cur := rfl
@[simp] theorem countBit_outLen (s : State) : (countBit s).outLen = s.outLen := rfl
@[simp] theorem countBit_outValid (s : State) : (countBit s).outValid = s.outValid := rfl
@[simp] theorem countBit_bitPos (s : State) : (countBit s).bitPos = s.bitPos + 1 := rfl
@[simp] theorem countBit_pLen (s : State) : (countBit s).pLen = s.pLen := rfl
@[simp] theorem countBit_freq (s : State) : (countBit s).freq = s.freq := rfl
@[simp] theorem countBit_node (s : State) : (countBit s).node = s.node := rfl
@[simp] theorem countBit_path (s : State) : (countBit s).path = s.path := rfl
@[simp] theorem countBit_out (s : State) : (countBit s).out = s.out := rfl
@[simp] theorem countBit_host (s : State) : (countBit s).host = s.host := rfl

/-! ### withPending -/

@[simp] theorem withPending_mode (s : State) (q : List HostEvent) : (withPending s q).mode = s.mode := rfl
@[simp] theorem withPending_errCode (s : State) (q : List HostEvent) : (withPending s q).errCode = s.errCode := rfl
@[simp] theorem withPending_errInfo (s : State) (q : List HostEvent) : (withPending s q).errInfo = s.errInfo := rfl
@[simp] theorem withPending_errPos (s : State) (q : List HostEvent) : (withPending s q).errPos = s.errPos := rfl
@[simp] theorem withPending_root (s : State) (q : List HostEvent) : (withPending s q).root = s.root := rfl
@[simp] theorem withPending_nodeCnt (s : State) (q : List HostEvent) : (withPending s q).nodeCnt = s.nodeCnt := rfl
@[simp] theorem withPending_cur (s : State) (q : List HostEvent) : (withPending s q).cur = s.cur := rfl
@[simp] theorem withPending_outLen (s : State) (q : List HostEvent) : (withPending s q).outLen = s.outLen := rfl
@[simp] theorem withPending_outValid (s : State) (q : List HostEvent) : (withPending s q).outValid = s.outValid := rfl
@[simp] theorem withPending_bitPos (s : State) (q : List HostEvent) : (withPending s q).bitPos = s.bitPos := rfl
@[simp] theorem withPending_pLen (s : State) (q : List HostEvent) : (withPending s q).pLen = s.pLen := rfl
@[simp] theorem withPending_freq (s : State) (q : List HostEvent) : (withPending s q).freq = s.freq := rfl
@[simp] theorem withPending_node (s : State) (q : List HostEvent) : (withPending s q).node = s.node := rfl
@[simp] theorem withPending_path (s : State) (q : List HostEvent) : (withPending s q).path = s.path := rfl
@[simp] theorem withPending_out (s : State) (q : List HostEvent) : (withPending s q).out = s.out := rfl
@[simp] theorem withPending_host (s : State) (q : List HostEvent) : (withPending s q).host = { s.host with pending := q } := rfl

/-! ### resetState -/

@[simp] theorem resetState_mode (s : State) : (resetState s).mode = State.reset.mode := rfl
@[simp] theorem resetState_errCode (s : State) : (resetState s).errCode = State.reset.errCode := rfl
@[simp] theorem resetState_errInfo (s : State) : (resetState s).errInfo = State.reset.errInfo := rfl
@[simp] theorem resetState_errPos (s : State) : (resetState s).errPos = State.reset.errPos := rfl
@[simp] theorem resetState_root (s : State) : (resetState s).root = State.reset.root := rfl
@[simp] theorem resetState_nodeCnt (s : State) : (resetState s).nodeCnt = State.reset.nodeCnt := rfl
@[simp] theorem resetState_cur (s : State) : (resetState s).cur = State.reset.cur := rfl
@[simp] theorem resetState_outLen (s : State) : (resetState s).outLen = State.reset.outLen := rfl
@[simp] theorem resetState_outValid (s : State) : (resetState s).outValid = State.reset.outValid := rfl
@[simp] theorem resetState_bitPos (s : State) : (resetState s).bitPos = State.reset.bitPos := rfl
@[simp] theorem resetState_pLen (s : State) : (resetState s).pLen = State.reset.pLen := rfl
@[simp] theorem resetState_freq (s : State) : (resetState s).freq = State.reset.freq := rfl
@[simp] theorem resetState_node (s : State) : (resetState s).node = State.reset.node := rfl
@[simp] theorem resetState_path (s : State) : (resetState s).path = State.reset.path := rfl
@[simp] theorem resetState_out (s : State) : (resetState s).out = State.reset.out := rfl
@[simp] theorem resetState_host (s : State) : (resetState s).host = s.host := rfl

/-! ### raise: fault entry (60_exceptions.md R230) -/

@[simp] theorem raise_mode (e : ErrorName) (info pos : Word) (s : State) :
    (raise e info pos s).mode = .fault := rfl
@[simp] theorem raise_errCode (e : ErrorName) (info pos : Word) (s : State) :
    (raise e info pos s).errCode = some e := by
  unfold raise; cases h : s.mode <;> simp
@[simp] theorem raise_errInfo (e : ErrorName) (info pos : Word) (s : State) :
    (raise e info pos s).errInfo = info := by
  unfold raise; cases h : s.mode <;> simp
@[simp] theorem raise_errPos (e : ErrorName) (info pos : Word) (s : State) :
    (raise e info pos s).errPos = pos := by
  unfold raise; cases h : s.mode <;> simp
@[simp] theorem raise_root (e : ErrorName) (info pos : Word) (s : State) :
    (raise e info pos s).root = if s.mode = .load then NIL else s.root := by
  unfold raise; cases h : s.mode <;> simp
@[simp] theorem raise_nodeCnt (e : ErrorName) (info pos : Word) (s : State) :
    (raise e info pos s).nodeCnt = if s.mode = .load then 0 else s.nodeCnt := by
  unfold raise; cases h : s.mode <;> simp
@[simp] theorem raise_cur (e : ErrorName) (info pos : Word) (s : State) :
    (raise e info pos s).cur = NIL := rfl
@[simp] theorem raise_outLen (e : ErrorName) (info pos : Word) (s : State) :
    (raise e info pos s).outLen = if s.mode = .decode then 0 else s.outLen := by
  unfold raise; cases h : s.mode <;> simp
@[simp] theorem raise_outValid (e : ErrorName) (info pos : Word) (s : State) :
    (raise e info pos s).outValid = if s.mode = .decode then false else s.outValid := by
  unfold raise; cases h : s.mode <;> simp
@[simp] theorem raise_bitPos (e : ErrorName) (info pos : Word) (s : State) :
    (raise e info pos s).bitPos = s.bitPos := by
  unfold raise; cases h : s.mode <;> simp
@[simp] theorem raise_pLen (e : ErrorName) (info pos : Word) (s : State) :
    (raise e info pos s).pLen = 0 := rfl
@[simp] theorem raise_freq (e : ErrorName) (info pos : Word) (s : State) :
    (raise e info pos s).freq = s.freq := by
  unfold raise; cases h : s.mode <;> simp
@[simp] theorem raise_node (e : ErrorName) (info pos : Word) (s : State) :
    (raise e info pos s).node = if s.mode = .load then [] else s.node := by
  unfold raise; cases h : s.mode <;> simp
@[simp] theorem raise_path (e : ErrorName) (info pos : Word) (s : State) :
    (raise e info pos s).path = [] := rfl
@[simp] theorem raise_out (e : ErrorName) (info pos : Word) (s : State) :
    (raise e info pos s).out = if s.mode = .decode then [] else s.out := by
  unfold raise; cases h : s.mode <;> simp
@[simp] theorem raise_host (e : ErrorName) (info pos : Word) (s : State) :
    (raise e info pos s).host = s.host := by
  unfold raise; cases h : s.mode <;> simp

end Sys2Proof.Machine
end

