-- ==== Sys2Proof/Laws/Memory.lean ====
section
/-! SUPPORT. The stores: read after write, the canonical form, and stores that hold exactly the first n indexes. -/

namespace Sys2Proof.Machine

variable {α : Type}

@[simp] theorem Memory.read_nil (a : Nat) : Memory.read ([] : Memory α) a = none := rfl

theorem Memory.read_write_same (m : Memory α) (a : Nat) (x : α) : Memory.read (Memory.write m a x) a = some x := by
  induction m with
  | nil => simp [Memory.write, Memory.read]
  | cons e m ih =>
    obtain ⟨k, v⟩ := e
    simp only [Memory.write]
    split
    · simp [Memory.read]
    · split
      · simp [Memory.read]
      · simp [Memory.read, *]

theorem Memory.read_write_other (m : Memory α) {a b : Nat} (x : α) (h : b ≠ a) :
    Memory.read (Memory.write m a x) b = Memory.read m b := by
  induction m with
  | nil => simp [Memory.write, Memory.read, h]
  | cons e m ih =>
    obtain ⟨k, v⟩ := e
    simp only [Memory.write]
    split
    · simp [Memory.read, h]
    · split
      · simp_all [Memory.read]
      · simp [Memory.read, ih]

/-- Which indexes a store lists after a write. -/
theorem Memory.mem_keys_write (m : Memory α) (a : Nat) (x : α) (k : Nat) :
    k ∈ (Memory.write m a x).map Prod.fst ↔ k = a ∨ k ∈ m.map Prod.fst := by
  induction m with
  | nil => simp [Memory.write]
  | cons e m ih =>
    obtain ⟨j, v⟩ := e
    simp only [Memory.write]
    split
    · simp
    · split
      · simp_all
      · simp only [List.map_cons, List.mem_cons, ih]
        tauto

/-- A write keeps the canonical form. -/
theorem Memory.wf_write (m : Memory α) (a : Nat) (x : α) (h : Memory.wf m) : Memory.wf (Memory.write m a x) := by
  induction m with
  | nil => simp [Memory.write, Memory.wf]
  | cons e m ih =>
    obtain ⟨k, v⟩ := e
    simp only [Memory.wf, List.map_cons, List.pairwise_cons] at h ih ⊢
    simp only [Memory.write]
    split
    · simp only [List.map_cons, List.pairwise_cons]
      refine ⟨?_, h⟩
      intro j hj
      rcases List.mem_cons.1 hj with rfl | hj
      · assumption
      · exact lt_trans (by assumption) (h.1 j hj)
    · split
      · simp only [List.map_cons, List.pairwise_cons]
        subst_vars
        exact h
      · simp only [List.map_cons, List.pairwise_cons]
        refine ⟨?_, ih h.2⟩
        intro j hj
        rcases (Memory.mem_keys_write m a x j).1 hj with rfl | hj
        · omega
        · exact h.1 j hj

/-- An entry is written exactly when its index is listed. -/
theorem Memory.read_isSome (m : Memory α) (a : Nat) : (Memory.read m a).isSome ↔ a ∈ m.map Prod.fst := by
  induction m with
  | nil => simp
  | cons e m ih =>
    obtain ⟨k, v⟩ := e
    simp only [Memory.read, List.map_cons, List.mem_cons]
    split
    · simp_all
    · simp_all

theorem Memory.read_eq_none (m : Memory α) (a : Nat) : Memory.read m a = none ↔ a ∉ m.map Prod.fst := by
  rw [← Memory.read_isSome]; cases Memory.read m a <;> simp

/-- Writing what is there already changes nothing. -/
theorem Memory.write_same (m : Memory α) (a : Nat) (x : α) (hw : Memory.wf m) (h : Memory.read m a = some x) :
    Memory.write m a x = m := by
  induction m with
  | nil => simp at h
  | cons e m ih =>
    obtain ⟨k, v⟩ := e
    simp only [Memory.wf, List.map_cons, List.pairwise_cons] at hw ih
    simp only [Memory.read] at h
    simp only [Memory.write]
    split at h
    · simp_all
    · have hm : a ∈ m.map Prod.fst := (Memory.read_isSome m a).1 (by simp [h])
      have hk := hw.1 a hm
      rw [if_neg (by omega), if_neg (by assumption), ih hw.2 h]

/-- The write behind the last index appends. -/
theorem Memory.write_append (m : Memory α) (a : Nat) (x : α) (h : ∀ k ∈ m.map Prod.fst, k < a) :
    Memory.write m a x = m ++ [(a, x)] := by
  induction m with
  | nil => rfl
  | cons e m ih =>
    obtain ⟨k, v⟩ := e
    simp only [List.map_cons, List.mem_cons, forall_eq_or_imp] at h
    have hk : k < a := h.1
    simp only [Memory.write, List.cons_append]
    rw [if_neg (by omega), if_neg (by omega), ih h.2]

/-- A store of the first n indexes grows by the write at n. -/
theorem Memory.keys_write_next (m : Memory α) (n : Nat) (x : α) (h : m.map Prod.fst = List.range n) :
    (Memory.write m n x).map Prod.fst = List.range (n + 1) := by
  rw [Memory.write_append m n x (by rw [h]; intro k; simp), List.map_append, h, List.range_succ]
  rfl

/-- A write at a listed index of a canonical store lists the same indexes. -/
theorem Memory.keys_write_old (m : Memory α) (a : Nat) (x : α) (hw : Memory.wf m) (h : a ∈ m.map Prod.fst) :
    (Memory.write m a x).map Prod.fst = m.map Prod.fst := by
  induction m with
  | nil => simp at h
  | cons e m ih =>
    obtain ⟨k, v⟩ := e
    simp only [Memory.wf, List.map_cons, List.pairwise_cons, List.mem_cons] at hw h ih
    simp only [Memory.write]
    by_cases hk : a = k
    · rw [if_neg (by omega), if_pos hk]; simp [hk]
    · have hm := h.resolve_left hk
      have := hw.1 a hm
      rw [if_neg (by omega), if_neg hk, List.map_cons, ih hw.2 hm, List.map_cons]

/-- A store of the first n indexes is canonical. -/
theorem Memory.wf_of_range (m : Memory α) (n : Nat) (h : m.map Prod.fst = List.range n) : Memory.wf m := by
  unfold Memory.wf; rw [h]; exact List.pairwise_lt_range

theorem Memory.read_of_range (m : Memory α) (n a : Nat) (h : m.map Prod.fst = List.range n) (ha : a < n) :
    ∃ x, Memory.read m a = some x := by
  have := (Memory.read_isSome m a).2 (by rw [h]; simpa using ha)
  exact Option.isSome_iff_exists.1 this

end Sys2Proof.Machine
end

