-- ==== Sys2Proof/Laws/Ops.lean ====
section
/-! SUPPORT. The shared operations, each by what it does: the dispatch by mode, fault entry, the room test, the entries
after `alloc`, `writeNode`, `pushPath`, `pushOut` and the updates that leave the stores alone. -/

namespace Sys2Proof.Machine

/-! ### Dispatch -/

theorem guarded_run {i : Instr} {s : State} (b : State → Result) (h : access i s.mode = .run) : guarded i b s = b s := by
  simp [guarded, h]

theorem guarded_seq {i : Instr} {s : State} (b : State → Result) (h : access i s.mode = .seq) :
    guarded i b s = .next (raise .commandSequence (encode i) 0 s) := by
  simp [guarded, h]

theorem guarded_drop {i : Instr} {s : State} (b : State → Result) (h : access i s.mode = .drop) : guarded i b s = .next s := by
  simp [guarded, h]

/-- What a dispatched command can answer: it was dropped, it was out of mode, or its body answered. -/
theorem guarded_cases {i : Instr} {b : State → Result} {s t : State} (h : guarded i b s = .next t) :
    (access i s.mode = .drop ∧ t = s) ∨ (access i s.mode = .seq ∧ t = raise .commandSequence (encode i) 0 s) ∨
      (access i s.mode = .run ∧ b s = .next t) := by
  unfold guarded at h
  split at h <;> simp_all [eq_comm]

/-- A dispatched command stops only where its body does. -/
theorem guarded_safe {i : Instr} {b : State → Result} {s : State} (h : access i s.mode = .run → ∃ t, b s = .next t) :
    ∃ t, guarded i b s = .next t := by
  unfold guarded
  split
  · exact ⟨s, rfl⟩
  · exact ⟨_, rfl⟩
  · exact h (by assumption)

/-- The pseudocode of each command, before the dispatch. -/
def bodyOf : Instr → State → Result
  | .nop => .next
  | .reset => fun s => .next (resetState s)
  | .eclr => fun s => .next (if s.mode = .fault then clearFault s else s)
  | .tdrop => fun s => .next { discardTree s with mode := .idle }
  | .fclr => fun s => .next { s with freq := clearFreq }
  | .fadd a imm => faddBody a imm
  | .build => buildBody Config.params
  | .lbegin => fun s =>
    .next { clearPath { alloc emptyNode (discardTree s) with root := (discardTree s).nodeCnt } with mode := .load }
  | .ppush a => ppushBody Config.params a
  | .insert a => insertBody Config.params a
  | .lend => fun s => .next { clearPath s with mode := .ready }
  | .dbegin => dbeginBody
  | .dbit a => dbitBody Config.params a
  | .dend => dendBody

/-- Every command is its pseudocode behind the dispatch. -/
theorem exec_guarded (i : Instr) (s : State) : exec i s = guarded i (bodyOf i) s := by cases i <;> rfl

theorem exec_run {i : Instr} {s : State} (h : access i s.mode = .run) : exec i s = bodyOf i s := by
  rw [exec_guarded, guarded_run _ h]

theorem exec_seq {i : Instr} {s : State} (h : access i s.mode = .seq) :
    exec i s = .next (raise .commandSequence (encode i) 0 s) := by
  rw [exec_guarded, guarded_seq _ h]

theorem exec_drop {i : Instr} {s : State} (h : access i s.mode = .drop) : exec i s = .next s := by
  rw [exec_guarded, guarded_drop _ h]

/-- What exec can answer. -/
theorem exec_cases {i : Instr} {s t : State} (h : exec i s = .next t) :
    (access i s.mode = .drop ∧ t = s) ∨ (access i s.mode = .seq ∧ t = raise .commandSequence (encode i) 0 s) ∨
      (access i s.mode = .run ∧ bodyOf i s = .next t) :=
  guarded_cases (exec_guarded i s ▸ h)

/-! ### Fault entry -/

theorem raise_quiet {s : State} (e : ErrorName) (info pos : Word) (h : Quiet s) :
    raise e info pos s = plainFault s e info pos := by
  rcases h with h | h <;> simp [raise, h, plainFault, clearPath, setError]

theorem raise_load {s : State} (e : ErrorName) (info pos : Word) (h : s.mode = .load) :
    raise e info pos s = loadFault s e info pos := by
  simp [raise, h, loadFault, clearPath, setError, discardTree]

theorem raise_decode {s : State} (e : ErrorName) (info pos : Word) (h : s.mode = .decode) :
    raise e info pos s = decodeFault s e info pos := by
  simp [raise, h, decodeFault, clearPath, setError, clearOutput]

/-! ### The room test -/

theorem room_free {count cap : Nat} (h : count < cap) : room count cap = .free := by simp [room, h]

theorem room_full {count cap : Nat} (h : count = cap) : room count cap = .full := by simp [room, h]

theorem room_cases (count cap : Nat) :
    (room count cap = .free ∧ count < cap) ∨ (room count cap = .full ∧ count = cap) ∨
      (room count cap = .beyond ∧ cap < count) := by
  unfold room
  split
  · exact .inl ⟨rfl, by assumption⟩
  · split
    · exact .inr (.inl ⟨rfl, by assumption⟩)
    · exact .inr (.inr ⟨rfl, by omega⟩)

/-! ### Entries -/

@[simp] theorem NIL_toNat : NIL.toNat = 1023 := rfl

theorem nodeAt_lt {s : State} {i : Idx} {r : Node} (h : nodeAt s i = some r) : i.toNat < s.nodeCnt.toNat := by
  unfold nodeAt at h; split at h
  · assumption
  · simp at h

theorem nodeAt_nil (s : State) : nodeAt s NIL = none := by
  unfold nodeAt
  have := s.nodeCnt.isLt
  rw [if_neg]; rw [NIL_toNat]; omega

/-- Updates that keep NODE and NODECNT keep every entry. -/
theorem nodeAt_congr {s t : State} (hn : t.node = s.node) (hc : t.nodeCnt = s.nodeCnt) (i : Idx) :
    nodeAt t i = nodeAt s i := by
  simp [nodeAt, hn, hc]

theorem nodeAt_of_range {s : State} (h : s.node.map Prod.fst = List.range s.nodeCnt.toNat) {i : Idx}
    (hi : i.toNat < s.nodeCnt.toNat) : ∃ r, nodeAt s i = some r := by
  obtain ⟨r, hr⟩ := Memory.read_of_range s.node _ _ h hi
  exact ⟨r, by simp [nodeAt, hi, hr]⟩

theorem succ_toNat {w : Nat} (v : BitVec w) (cap : Nat) (h : v.toNat < cap) (hc : cap < 2 ^ w) :
    (v + 1).toNat = v.toNat + 1 := by
  have : 1 < 2 ^ w := by omega
  have one : (1 : BitVec w).toNat = 1 := by
    rw [show (1 : BitVec w) = BitVec.ofNat w 1 from rfl, BitVec.toNat_ofNat, Nat.mod_eq_of_lt this]
  rw [BitVec.toNat_add, one, Nat.mod_eq_of_lt (by omega)]

theorem alloc_count {s : State} (r : Node) (h : s.nodeCnt.toNat < 1023) :
    (alloc r s).nodeCnt.toNat = s.nodeCnt.toNat + 1 := by
  simpa using succ_toNat s.nodeCnt 1023 h (by decide)

/-- The entries after `alloc`: the new record at the NODECNT before, the others as they were. -/
theorem nodeAt_alloc {s : State} (r : Node) (h : s.nodeCnt.toNat < 1023) (i : Idx) :
    nodeAt (alloc r s) i = if i = s.nodeCnt then some r else nodeAt s i := by
  have hc := alloc_count r h
  unfold nodeAt
  rw [hc]
  by_cases hi : i = s.nodeCnt
  · subst hi
    simp [alloc, Memory.read_write_same]
  · have hne : i.toNat ≠ s.nodeCnt.toNat := fun e => hi (BitVec.eq_of_toNat_eq e)
    rw [if_neg hi]
    by_cases hl : i.toNat < s.nodeCnt.toNat
    · rw [if_pos (by omega), if_pos hl]
      simp [alloc, Memory.read_write_other _ _ hne]
    · rw [if_neg (by omega), if_neg hl]

/-- The entries after a write at a written index. -/
theorem nodeAt_writeNode {s : State} (j : Idx) (r : Node) (h : j.toNat < s.nodeCnt.toNat) (i : Idx) :
    nodeAt (writeNode j r s) i = if i = j then some r else nodeAt s i := by
  unfold nodeAt
  by_cases hi : i = j
  · subst hi
    simp [writeNode, Memory.read_write_same, h]
  · have hne : i.toNat ≠ j.toNat := fun e => hi (BitVec.eq_of_toNat_eq e)
    simp [writeNode, Memory.read_write_other _ _ hne, hi]

@[simp] theorem nodeAt_discardTree (s : State) (i : Idx) : nodeAt (discardTree s) i = none := by
  simp [nodeAt, discardTree]

theorem pushPath_count {s : State} (c : Byte) (h : s.pLen.toNat < 255) : (pushPath c s).pLen.toNat = s.pLen.toNat + 1 := by
  simpa using succ_toNat s.pLen 255 h (by decide)

/-- PATH after a push: the character at the PLEN before, the others as they were. -/
theorem pathAt_pushPath {s : State} (c : Byte) (h : s.pLen.toNat < 255) (i : Nat) :
    pathAt (pushPath c s) i = if i = s.pLen.toNat then some c else pathAt s i := by
  have hc := pushPath_count c h
  unfold pathAt
  rw [hc]
  by_cases hi : i = s.pLen.toNat
  · subst hi; simp [pushPath, Memory.read_write_same]
  · rw [if_neg hi]
    by_cases hl : i < s.pLen.toNat
    · rw [if_pos (by omega), if_pos hl]; simp [pushPath, Memory.read_write_other _ _ hi]
    · rw [if_neg (by omega), if_neg hl]

theorem pushOut_count {s : State} (b : Byte) (h : s.outLen.toNat < 4194304) :
    (pushOut b s).outLen.toNat = s.outLen.toNat + 1 := by
  simpa using succ_toNat s.outLen 4194304 h (by decide)

/-- OUT after an emission: the byte at the OUTLEN before, the others as they were. -/
theorem outAt_pushOut {s : State} (b : Byte) (h : s.outLen.toNat < 4194304) (k : Nat) :
    outAt (pushOut b s) k = if k = s.outLen.toNat then some b else outAt s k := by
  have hc := pushOut_count b h
  unfold outAt
  rw [hc]
  by_cases hi : k = s.outLen.toNat
  · subst hi; simp [pushOut, Memory.read_write_same]
  · rw [if_neg hi]
    by_cases hl : k < s.outLen.toNat
    · rw [if_pos (by omega), if_pos hl]; simp [pushOut, Memory.read_write_other _ _ hi]
    · rw [if_neg (by omega), if_neg hl]

theorem freqAt_setFreq (s : State) (a : Byte) (v : Word) (b : Byte) :
    freqAt (setFreq s a v) b = if b = a then v else freqAt s b := by
  unfold freqAt setFreq
  by_cases h : b = a
  · subst h; simp
  · have : a.toNat ≠ b.toNat := fun e => h (BitVec.eq_of_toNat_eq e.symm)
    simp [h, Vector.getElem_set_ne, this]

/-! ### Parameters -/

theorem outMax_pos : 0 < Config.params.outMax := Nat.succ_pos _

theorem outMax_le : Config.params.outMax ≤ 4194304 := Config.outMaxPred.isLt

@[simp] theorem params_nodeN : Config.params.nodeN = 512 := rfl

@[simp] theorem params_pathMax : Config.params.pathMax = 255 := rfl

theorem params_ok : Config.params.ok :=
  ⟨by decide, by decide, by decide, by decide, outMax_pos, outMax_le⟩

/-! ### Codes -/

theorem bitSymbol_sideChar (b : Side) : bitSymbol (sideChar b) = some b := by cases b <;> rfl

/-- A character is a bit-symbol exactly when it is the character of a side. -/
theorem bitSymbol_eq_some {c : Byte} {b : Side} : bitSymbol c = some b ↔ c = sideChar b := by
  constructor
  · intro h
    unfold bitSymbol at h
    split at h
    · cases h; assumption
    · split at h
      · cases h; assumption
      · simp at h
  · rintro rfl; exact bitSymbol_sideChar b

theorem bitSymbol_eq_none {c : Byte} : bitSymbol c = none ↔ c ≠ 0x30 ∧ c ≠ 0x31 := by
  unfold bitSymbol
  split
  · simp_all
  · split <;> simp_all

theorem emitted_symbol {r : Node} {y : Byte} (h : r.sym = some y) : emitted r = y := by
  simp [emitted, symCode, h]

theorem isLeaf_iff (r : Node) : r.isLeaf = true ↔ ∀ b, r.child b = NIL := by
  constructor
  · intro h b
    simp only [Node.isLeaf, Bool.and_eq_true, decide_eq_true_eq] at h
    cases b
    · exact h.1
    · exact h.2
  · intro h
    simp [Node.isLeaf, show r.left = NIL from h .left, show r.right = NIL from h .right]

end Sys2Proof.Machine
end

