-- ==== Sys2Proof/Laws/Builder.lean ====
section
/-! SUPPORT. The builder: the order of keys, the extraction, the induction over the merge loop, the leaves, the present
symbols and their totals. -/

namespace Sys2Proof.Machine

/-! ### The order of keys -/

theorem Key.lt_iff (x y : Key) : x.lt y = true ↔ x.weight.toNat < y.weight.toNat ∨ (x.weight = y.weight ∧
    (x.rank.toNat < y.rank.toNat ∨ (x.rank = y.rank ∧ x.idx.toNat < y.idx.toNat))) := by
  simp [Key.lt, BitVec.lt_def]

theorem Key.lt_trans {x y z : Key} (h1 : x.lt y = true) (h2 : y.lt z = true) : x.lt z = true := by
  rw [Key.lt_iff] at *
  rcases h1 with h1 | ⟨e1, h1 | ⟨f1, h1⟩⟩ <;> rcases h2 with h2 | ⟨e2, h2 | ⟨f2, h2⟩⟩
  · exact .inl (Nat.lt_trans h1 h2)
  · exact .inl (e2 ▸ h1)
  · exact .inl (e2 ▸ h1)
  · exact .inl (e1 ▸ h2)
  · exact .inr ⟨e1.trans e2, .inl (Nat.lt_trans h1 h2)⟩
  · exact .inr ⟨e1.trans e2, .inl (f2 ▸ h1)⟩
  · exact .inl (e1 ▸ h2)
  · exact .inr ⟨e1.trans e2, .inl (f1 ▸ h2)⟩
  · exact .inr ⟨e1.trans e2, .inr ⟨f1.trans f2, Nat.lt_trans h1 h2⟩⟩

theorem Key.lt_total {x y : Key} (h : x.lt y = false) : y.lt x = true ∨ x = y := by
  have hn : ¬ x.lt y = true := by simp [h]
  rw [Key.lt_iff] at hn ⊢
  by_cases hw : x.weight = y.weight
  · by_cases hr : x.rank = y.rank
    · by_cases hi : x.idx = y.idx
      · right; cases x; cases y; simp_all
      · left; right; refine ⟨hw.symm, .inr ⟨hr.symm, ?_⟩⟩
        have : x.idx.toNat ≠ y.idx.toNat := fun e => hi (BitVec.eq_of_toNat_eq e)
        simp [hw, hr] at hn; omega
    · left; right; refine ⟨hw.symm, .inl ?_⟩
      have : x.rank.toNat ≠ y.rank.toNat := fun e => hr (BitVec.eq_of_toNat_eq e)
      simp [hw, hr] at hn; omega
  · left; left
    have : x.weight.toNat ≠ y.weight.toNat := fun e => hw (BitVec.eq_of_toNat_eq e)
    simp [hw] at hn; omega

/-! ### Extraction -/

theorem popLeast_eq_none {q : List Key} : popLeast q = none ↔ q = [] := by
  cases q with
  | nil => simp [popLeast]
  | cons k ks =>
    simp only [popLeast]
    split
    · simp
    · split <;> simp

/-- The extraction takes one element out. -/
theorem popLeast_perm {q : List Key} : ∀ {k rest}, popLeast q = some (k, rest) → q.Perm (k :: rest) := by
  induction q with
  | nil => intro k rest h; simp [popLeast] at h
  | cons x xs ih =>
    intro k rest h
    simp only [popLeast] at h
    split at h
    · rename_i hn
      rw [popLeast_eq_none] at hn; subst hn; cases h; exact List.Perm.refl _
    · rename_i m r hm
      split at h
      · cases h; exact List.Perm.refl _
      · cases h
        exact ((ih hm).cons x).trans (List.Perm.swap _ _ _)

/-- The element taken out is the least. -/
theorem popLeast_least {q : List Key} : ∀ {k rest}, popLeast q = some (k, rest) → ∀ x ∈ rest, x.lt k = false := by
  induction q with
  | nil => intro k rest h; simp [popLeast] at h
  | cons x xs ih =>
    intro k rest h y hy
    simp only [popLeast] at h
    split at h
    · cases h; simp at hy
    · rename_i m r hm
      split at h
      · rename_i hlt
        cases h
        have hperm := (popLeast_perm hm).subset hy
        rcases List.mem_cons.1 hperm with rfl | hr
        · by_contra hc
          have := Key.lt_trans hlt (by simpa using hc : y.lt x = true)
          rw [Key.lt_iff] at this; omega
        · by_contra hc
          have h1 := ih hm y hr
          have := Key.lt_trans (by simpa using hc : y.lt x = true) hlt
          simp [h1] at this
      · rename_i hlt
        cases h
        rcases List.mem_cons.1 hy with rfl | hr
        · simpa using hlt
        · exact ih hm y hr

theorem popLeast_length {q : List Key} {k rest} (h : popLeast q = some (k, rest)) : q.length = rest.length + 1 := by
  simpa using (popLeast_perm h).length_eq

/-! ### The merge loop -/

/-- The induction over the merge loop: what holds of the arena and Q at its start and is kept by one merge holds at its
end, where Q is one element, and that element becomes ROOT. -/
theorem mergeLoop_induct (I : State → List Key → Prop)
    (merge : ∀ s q x q1 y q2, I s q → popLeast q = some (x, q1) → popLeast q1 = some (y, q2) →
      I (alloc (mergedNode x y) s) (keyOf s.nodeCnt (mergedNode x y) :: q2)) :
    ∀ fuel q s, I s q → q ≠ [] → q.length ≤ fuel →
      ∃ s' x, I s' [x] ∧ mergeLoop fuel q s = { s' with root := x.idx } := by
  intro fuel
  induction fuel with
  | zero =>
    intro q s _ hne hl
    exact absurd (List.length_eq_zero_iff.1 (Nat.le_zero.1 hl)) hne
  | succ fuel ih =>
    intro q s h hne hl
    simp only [mergeLoop]
    cases hp : popLeast q with
    | none => exact absurd (popLeast_eq_none.1 hp) hne
    | some xr =>
      obtain ⟨x, q1⟩ := xr
      dsimp only
      have hl1 := popLeast_length hp
      cases hp1 : popLeast q1 with
      | none =>
        have : q1 = [] := popLeast_eq_none.1 hp1
        subst this
        have hq : q = [x] := by
          have := popLeast_perm hp
          exact List.perm_singleton.1 this
        exact ⟨s, x, hq ▸ h, rfl⟩
      | some yr =>
        obtain ⟨y, q2⟩ := yr
        dsimp only
        have hl2 := popLeast_length hp1
        exact ih _ _ (merge s q x q1 y q2 h hp hp1) (by simp) (by simp; omega)

/-! ### The leaves -/

theorem allocLeaves_frame (l : List (Byte × Word)) (s : State) :
    allocLeaves l s = { s with node := (allocLeaves l s).node, nodeCnt := (allocLeaves l s).nodeCnt } := by
  induction l generalizing s with
  | nil => rfl
  | cons p l ih =>
    obtain ⟨b, w⟩ := p
    simp only [allocLeaves]
    rw [ih]; rfl

theorem allocLeaves_count (l : List (Byte × Word)) (s : State) (h : s.nodeCnt.toNat + l.length ≤ 1023) :
    (allocLeaves l s).nodeCnt.toNat = s.nodeCnt.toNat + l.length := by
  induction l generalizing s with
  | nil => rfl
  | cons p l ih =>
    obtain ⟨b, w⟩ := p
    simp only [allocLeaves, List.length_cons] at *
    have hc := alloc_count (s := s) (leafNode b w) (by omega)
    rw [ih _ (by omega), hc]; omega

/-- The entries after the leaves: leaf j of the list at NODECNT + j. -/
theorem nodeAt_allocLeaves (l : List (Byte × Word)) (s : State) (h : s.nodeCnt.toNat + l.length ≤ 1023) (i : Idx) :
    nodeAt (allocLeaves l s) i =
      if i.toNat < s.nodeCnt.toNat then nodeAt s i
      else (l[i.toNat - s.nodeCnt.toNat]?).map (fun p => leafNode p.1 p.2) := by
  induction l generalizing s with
  | nil =>
    simp only [allocLeaves]
    split
    · rfl
    · simp [nodeAt, *]
  | cons p l ih =>
    obtain ⟨b, w⟩ := p
    simp only [allocLeaves, List.length_cons] at *
    have hc := alloc_count (s := s) (leafNode b w) (by omega)
    rw [ih _ (by omega), hc, nodeAt_alloc _ (by omega)]
    by_cases hi : i.toNat < s.nodeCnt.toNat
    · rw [if_pos (by omega), if_pos hi, if_neg]
      rintro rfl; omega
    · rw [if_neg hi]
      by_cases he : i = s.nodeCnt
      · subst he
        rw [if_pos (by omega), if_pos rfl]; simp
      · have : i.toNat ≠ s.nodeCnt.toNat := fun e => he (BitVec.eq_of_toNat_eq e)
        rw [if_neg (by omega)]
        obtain ⟨d, hd⟩ : ∃ d, i.toNat - s.nodeCnt.toNat = d + 1 := ⟨i.toNat - s.nodeCnt.toNat - 1, by omega⟩
        rw [show i.toNat - (s.nodeCnt.toNat + 1) = d by omega, hd]; simp

/-- NODE lists exactly its first NODECNT indexes still. -/
theorem keys_alloc {s : State} (r : Node) (hs : s.node.map Prod.fst = List.range s.nodeCnt.toNat)
    (h : s.nodeCnt.toNat < 1023) :
    (alloc r s).node.map Prod.fst = List.range (alloc r s).nodeCnt.toNat := by
  rw [alloc_count r h]; exact Memory.keys_write_next _ _ _ hs

theorem keys_allocLeaves (l : List (Byte × Word)) (s : State) (hs : s.node.map Prod.fst = List.range s.nodeCnt.toNat)
    (h : s.nodeCnt.toNat + l.length ≤ 1023) :
    (allocLeaves l s).node.map Prod.fst = List.range (allocLeaves l s).nodeCnt.toNat := by
  induction l generalizing s with
  | nil => exact hs
  | cons p l ih =>
    obtain ⟨b, w⟩ := p
    simp only [allocLeaves, List.length_cons] at *
    have hc := alloc_count (s := s) (leafNode b w) (by omega)
    exact ih _ (keys_alloc _ hs (by omega)) (by omega)

/-! ### The present symbols -/

/-- The present symbols by index: FREQ's entries in order, those above 0. -/
theorem presentSymbols_eq (s : State) :
    presentSymbols s.freq = (List.range 256).filterMap (fun k =>
      if freqAt s (BitVec.ofNat 8 k) = 0 then none else some (BitVec.ofNat 8 k, freqAt s (BitVec.ofNat 8 k))) := by
  have hz : s.freq.toList.zipIdx = (List.range 256).map (fun k => (freqAt s (BitVec.ofNat 8 k), k)) := by
    apply List.ext_getElem
    · simp
    · intro k h1 h2
      simp only [List.length_map, List.length_range] at h2
      simp [freqAt, Nat.mod_eq_of_lt h2]
  unfold presentSymbols
  rw [hz, List.filterMap_map]
  rfl

theorem mem_presentSymbols (s : State) (b : Byte) (w : Word) :
    (b, w) ∈ presentSymbols s.freq ↔ w = freqAt s b ∧ w ≠ 0 := by
  rw [presentSymbols_eq, List.mem_filterMap]
  constructor
  · rintro ⟨k, _, h⟩
    split at h
    · simp at h
    · simp only [Option.some.injEq, Prod.mk.injEq] at h
      obtain ⟨rfl, rfl⟩ := h
      exact ⟨rfl, by assumption⟩
  · rintro ⟨rfl, hw⟩
    refine ⟨b.toNat, by simpa using b.isLt, ?_⟩
    rw [BitVec.ofNat_toNat, BitVec.setWidth_eq, if_neg hw]

/-- The present symbols stand in strictly ascending order. -/
theorem presentSymbols_ascending (s : State) :
    (presentSymbols s.freq).Pairwise (fun p q => p.1.toNat < q.1.toNat) := by
  rw [presentSymbols_eq]
  refine List.Pairwise.filterMap _ ?_ (List.Pairwise.and_mem.1 List.pairwise_lt_range)
  rintro j k ⟨hj, hk, hjk⟩ p hp q hq
  simp only [List.mem_range] at hj hk
  split at hp
  · simp at hp
  · split at hq
    · simp at hq
    · simp only [Option.some.injEq] at hp hq
      subst hp hq
      simp; omega

theorem presentSymbols_length (s : State) : (presentSymbols s.freq).length = symbolCount s := by
  rw [presentSymbols_eq, symbolCount]
  generalize List.range 256 = l
  induction l with
  | nil => rfl
  | cons k l ih =>
    rw [List.filterMap_cons, List.countP_cons]
    by_cases h : freqAt s (BitVec.ofNat 8 k) = 0
    · rw [if_pos h, if_neg (by simpa using h)]; exact ih
    · rw [if_neg h, if_pos (by simpa using h)]; exact congrArg (· + 1) ih

theorem symbolCount_le (s : State) : symbolCount s ≤ 256 := by
  unfold symbolCount; simpa using List.countP_le_length (l := List.range 256)

theorem freqTotal_eq (s : State) : freqTotal s.freq = frequencySum s := by
  unfold freqTotal frequencySum
  congr 1
  apply List.ext_getElem
  · simp
  · intro k h1 h2
    simp only [List.length_map, List.length_range] at h2
    simp [freqAt, Nat.mod_eq_of_lt h2]

/-- The weights of the present symbols add up to the total. -/
theorem presentSymbols_sum (s : State) :
    ((presentSymbols s.freq).map (fun p => p.2.toNat)).sum = frequencySum s := by
  rw [presentSymbols_eq, frequencySum]
  generalize List.range 256 = l
  induction l with
  | nil => rfl
  | cons k l ih =>
    rw [List.filterMap_cons, List.map_cons, List.sum_cons, ← ih]
    by_cases h : freqAt s (BitVec.ofNat 8 k) = 0
    · rw [if_pos h, h]; simp
    · rw [if_neg h]; simp

theorem symbolCount_pos (s : State) : symbolCount s ≠ 0 ↔ SomeFrequency s := by
  rw [← presentSymbols_length, Ne, List.length_eq_zero_iff]
  constructor
  · intro h
    obtain ⟨⟨b, w⟩, hb⟩ := List.exists_mem_of_ne_nil _ h
    have := (mem_presentSymbols s b w).1 hb
    exact ⟨b, by rw [← this.1]; exact this.2⟩
  · rintro ⟨b, hb⟩ h
    have := (mem_presentSymbols s b _).2 ⟨rfl, hb⟩
    simp [h] at this

end Sys2Proof.Machine
end

