-- ==== Sys2Proof/Laws/Decode.lean ====
section
/-! SUPPORT. Laws of the command words: the fields of the three formats, and the opcode map's rows do not overlap. -/

namespace Sys2Proof

/-! ### The fields of a word as numbers -/

theorem opField_toNat (w : Word) : (opField w).toNat = w.toNat / 268435456 := by
  have := w.isLt
  simp [opField, BitVec.extractLsb'_toNat, Nat.shiftRight_eq_div_pow]; omega

theorem aField_toNat (w : Word) : (aField w).toNat = w.toNat / 65536 % 256 := by
  simp [aField, BitVec.extractLsb'_toNat, Nat.shiftRight_eq_div_pow]

theorem immField_toNat (w : Word) : (immField w).toNat = w.toNat % 65536 := by
  simp [immField, BitVec.extractLsb'_toNat]

@[simp] theorem formatZ_toNat (op : BitVec 4) : (formatZ op).toNat = op.toNat * 268435456 := by
  unfold formatZ; rw [BitVec.toNat_append]; simp [Nat.shiftLeft_eq]

@[simp] theorem formatSI_toNat (op : BitVec 4) (a : Byte) (imm : Imm) :
    (formatSI op a imm).toNat = op.toNat * 268435456 + a.toNat * 65536 + imm.toNat := by
  have ha := a.isLt
  have hi := imm.isLt
  simp only [formatSI, BitVec.toNat_append]
  rw [← Nat.shiftLeft_add_eq_or_of_lt hi, ← Nat.shiftLeft_add_eq_or_of_lt ha, ← Nat.shiftLeft_add_eq_or_of_lt (by simp)]
  simp [Nat.shiftLeft_eq]; omega

@[simp] theorem formatS_toNat (op : BitVec 4) (a : Byte) :
    (formatS op a).toNat = op.toNat * 268435456 + a.toNat * 65536 :=
  (formatSI_toNat op a 0).trans (by simp)

/-! ### The masks as numbers -/

theorem and_maskZ (w : Word) : w &&& maskZ = w := by
  rw [show maskZ = BitVec.allOnes 32 by decide, BitVec.and_allOnes]

theorem and_maskSI_toNat (w : Word) : (w &&& maskSI).toNat = w.toNat / 16777216 * 16777216 := by
  have h : w &&& maskSI = (w >>> 24) <<< 24 := by
    ext i hi
    rw [show maskSI = (BitVec.allOnes 32) <<< 24 by decide]
    simp only [BitVec.getElem_and, BitVec.getElem_shiftLeft, BitVec.getElem_allOnes]
    by_cases h24 : i < 24
    · simp [h24]
    · simp [h24, show 24 + (i - 24) = i by omega, BitVec.getLsbD_eq_getElem hi]
  rw [h]
  have := w.isLt
  simp [Nat.shiftLeft_eq, Nat.shiftRight_eq_div_pow]; omega

theorem and_maskS_toNat (w : Word) :
    (w &&& maskS).toNat = w.toNat / 16777216 * 16777216 + w.toNat % 65536 := by
  have h : w &&& maskS = (w &&& maskSI) ||| (w.setWidth 16).setWidth 32 := by
    rw [show maskS = maskSI ||| 0xFFFF by decide, BitVec.and_or_distrib_left]
    congr 1
    ext i hi
    rw [show (0xFFFF : Word) = (BitVec.allOnes 16).setWidth 32 by decide]
    simp only [BitVec.getElem_and, BitVec.getElem_setWidth, BitVec.getLsbD_allOnes, BitVec.getLsbD_setWidth]
    by_cases h16 : i < 16
    · simp [h16, BitVec.getLsbD_eq_getElem hi]
    · simp [h16]
  rw [h, BitVec.toNat_or, and_maskSI_toNat]
  have h1 := w.isLt
  have h2 : w.toNat / 16777216 * 16777216 = (w.toNat / 16777216) <<< 24 := by simp [Nat.shiftLeft_eq]
  rw [h2, ← Nat.shiftLeft_add_eq_or_of_lt (by simp; omega)]
  simp; omega

/-! ### The rows -/

/-- Every mask keeps the op field. -/
theorem rowMask_op (i : Instr) : rowMask i &&& 0xF0000000 = 0xF0000000 := by
  have hz : maskZ &&& 0xF0000000 = 0xF0000000 := by decide
  have hs : maskS &&& 0xF0000000 = 0xF0000000 := by decide
  have hsi : maskSI &&& 0xF0000000 = 0xF0000000 := by decide
  cases i <;> assumption

/-- Every match value has 0 outside the op field. -/
theorem rowMatch_op (i : Instr) : rowMatch i &&& 0xF0000000 = rowMatch i := by
  have h5 : (0x50000000 : Word) &&& 0xF0000000 = 0x50000000 := by decide
  have h8 : (0x80000000 : Word) &&& 0xF0000000 = 0x80000000 := by decide
  have h9 : (0x90000000 : Word) &&& 0xF0000000 = 0x90000000 := by decide
  have hC : (0xC0000000 : Word) &&& 0xF0000000 = 0xC0000000 := by decide
  cases i <;> first | assumption | decide

/-- No word is two rows' (R83): the rows' match values differ in bits both masks keep. -/
theorem rows_disjoint {i j : Instr} {w : Word} (hi : w &&& rowMask i = rowMatch i) (hj : w &&& rowMask j = rowMatch j) :
    rowMatch i = rowMatch j := by
  have key : ∀ k : Instr, w &&& rowMask k = rowMatch k → rowMatch k = w &&& 0xF0000000 := by
    intro k hk
    have h := congrArg (· &&& (0xF0000000 : Word)) hk
    simp only [BitVec.and_assoc] at h
    have hmask : rowMask k &&& 0xF0000000 = 0xF0000000 := rowMask_op k
    have hmatch : rowMatch k &&& 0xF0000000 = rowMatch k := rowMatch_op k
    rw [hmask, hmatch] at h
    exact h.symm
  rw [key i hi, key j hj]

end Sys2Proof
end

