-- ==== Sys2Proof/Laws/Decoder.lean ====
section
/-! SUPPORT. Everything the decoder's commands can answer. -/

namespace Sys2Proof.Machine

/-- The codes no command of HUFFDEC raises (44_reference_functions.md R195). -/
def HardwareError (e : ErrorName) : Prop := e ≠ .emptyCodeMap ∧ e ≠ .unknownSymbol

/-- The codes the commands' own pseudocode raises: not the dispatch's CommandSequenceError either (60_exceptions.md R232). -/
def BodyError (e : ErrorName) : Prop := HardwareError e ∧ e ≠ .commandSequence

/-- What DBIT answers in DECODE mode: a fault, a descent or an emission. -/
theorem dbitBody_cases {P : Config.Params} {a : Byte} {s t : State} (hm : s.mode = .decode)
    (h : dbitBody P a s = .next t) :
    (∃ e info, BodyError e ∧ t = decodeFault s e info s.bitPos) ∨
      ∃ b r rc, bitSymbol a = some b ∧ nodeAt s s.cur = some r ∧ r.child b ≠ NIL ∧ nodeAt s (r.child b) = some rc ∧
        ((rc.isLeaf = true ∧ s.outLen.toNat < P.outMax ∧
            t = countBit { pushOut (emitted rc) s with cur := s.root }) ∨
          (rc.isLeaf = false ∧ t = countBit { s with cur := r.child b })) := by
  unfold dbitBody at h
  split at h
  · cases h; exact .inl ⟨_, _, by simp [BodyError, HardwareError], raise_decode _ _ _ hm⟩
  · rename_i b hb
    split at h
    · simp at h
    · rename_i r hr
      split at h
      · cases h; exact .inl ⟨_, _, by simp [BodyError, HardwareError], raise_decode _ _ _ hm⟩
      · rename_i hc
        split at h
        · simp at h
        · rename_i rc hrc
          unfold arrive at h
          split at h
          · rename_i hl
            rcases room_cases s.outLen.toNat P.outMax with ⟨e, hlt⟩ | ⟨e, _⟩ | ⟨e, _⟩ <;> rw [e] at h <;> cases h
            · exact .inr ⟨b, r, rc, hb, hr, hc, hrc, .inl ⟨hl, hlt, rfl⟩⟩
            · exact .inl ⟨_, _, by simp [BodyError, HardwareError], raise_decode _ _ _ hm⟩
          · rename_i hl
            cases h
            exact .inr ⟨b, r, rc, hb, hr, hc, hrc, .inr ⟨by simpa using hl, rfl⟩⟩

end Sys2Proof.Machine
end

