-- ==== Sys2Proof/Laws/Loader.lean ====
section
/-! SUPPORT. Everything the loader's commands can answer; the walk of INSERT by one turn, and the induction over it. -/

namespace Sys2Proof.Machine

/-- The state after a walk made one node: a child of n on side b. -/
def grown (n : Idx) (r : Node) (b : Side) (s : State) : State :=
  writeNode n (r.withChild b s.nodeCnt) (alloc emptyNode s)

/-- One turn of the walk: what it can end in. -/
theorem walkStep_cases (P : Config.Params) (a : Byte) (i : Nat) (b : Side) (n : Idx) (s : State) :
    (nodeAt s n = none ∧ walkStep P a i b n s = .ended (.fault .unwrittenRead)) ∨
    ∃ r, nodeAt s n = some r ∧
      ((∃ held, r.sym = some held ∧
          walkStep P a i b n s = .ended (raised .prefixConflict (infoPair held a) (BitVec.ofNat 32 i) s)) ∨
        (r.sym = none ∧ r.child b ≠ NIL ∧ walkStep P a i b n s = .reached (r.child b) s) ∨
        (r.sym = none ∧ r.child b = NIL ∧ s.nodeCnt.toNat < P.nodeN ∧
          walkStep P a i b n s = .reached s.nodeCnt (grown n r b s)) ∨
        (r.sym = none ∧ r.child b = NIL ∧ s.nodeCnt.toNat = P.nodeN ∧
          walkStep P a i b n s = .ended (raised .nodeMemoryFull (zext32 a) (BitVec.ofNat 32 i) s)) ∨
        (P.nodeN < s.nodeCnt.toNat ∧ walkStep P a i b n s = .ended (.fault .outsideStore))) := by
  unfold walkStep
  cases hn : nodeAt s n with
  | none => exact .inl ⟨rfl, rfl⟩
  | some r =>
    refine .inr ⟨r, rfl, ?_⟩
    dsimp only
    cases hs : r.sym with
    | some held => exact .inl ⟨held, rfl, rfl⟩
    | none =>
      dsimp only
      by_cases hc : r.child b = NIL
      · rw [if_pos hc]
        rcases room_cases s.nodeCnt.toNat P.nodeN with ⟨e, h⟩ | ⟨e, h⟩ | ⟨e, h⟩ <;> rw [e]
        · exact .inr (.inr (.inl ⟨rfl, hc, h, rfl⟩))
        · exact .inr (.inr (.inr (.inl ⟨rfl, hc, h, rfl⟩)))
        · exact .inr (.inr (.inr (.inr ⟨h, rfl⟩)))
      · rw [if_neg hc]
        exact .inr (.inl ⟨rfl, hc, rfl⟩)

/-- The side a validated character selects. -/
def walkSide (c : Byte) : Side := if c = 0x30 then .left else .right

theorem walkSide_eq {c : Byte} {b : Side} (h : bitSymbol c = some b) : walkSide c = b := by
  rw [bitSymbol_eq_some.1 h]; cases b <;> rfl

theorem walk_cons (P : Config.Params) (a : Byte) (i : Nat) (c : Byte) (cs : List Byte) (n : Idx) (s : State) :
    walk P a i (c :: cs) n s =
      match walkStep P a i (walkSide c) n s with
      | .ended r => .ended r
      | .reached n' s' => walk P a (i + 1) cs n' s' := rfl

/-- The induction over a walk that reaches its end: what holds at its start and is kept by a descent and by a growth holds
at its end. -/
theorem walk_induct {P : Config.Params} {a : Byte} (I : Idx → State → Prop)
    (descend : ∀ n s r b, I n s → nodeAt s n = some r → r.sym = none → r.child b ≠ NIL → I (r.child b) s)
    (grow : ∀ n s r b, I n s → nodeAt s n = some r → r.sym = none → r.child b = NIL → s.nodeCnt.toNat < P.nodeN →
      I s.nodeCnt (grown n r b s)) :
    ∀ cs i n s n' s', I n s → walk P a i cs n s = .reached n' s' → I n' s' := by
  intro cs
  induction cs with
  | nil => intro i n s n' s' h hw; cases hw; exact h
  | cons c cs ih =>
    intro i n s n' s' h hw
    rw [walk_cons] at hw
    rcases walkStep_cases P a i (walkSide c) n s with ⟨_, e⟩ | ⟨r, hr, ⟨_, _, e⟩ | ⟨h1, h2, e⟩ | ⟨h1, h2, h3, e⟩ | ⟨_, _, _, e⟩ | ⟨_, e⟩⟩ <;>
      rw [e] at hw
    · simp at hw
    · simp at hw
    · exact ih _ _ _ _ _ (descend n s r _ h hr h1 h2) hw
    · exact ih _ _ _ _ _ (grow n s r _ h hr h1 h2 h3) hw
    · simp at hw
    · simp at hw

/-- The walk changes NODE and NODECNT only. -/
theorem walk_frame {P : Config.Params} {a : Byte} {cs : List Byte} {i : Nat} {n n' : Idx} {s s' : State}
    (h : walk P a i cs n s = .reached n' s') : s' = { s with node := s'.node, nodeCnt := s'.nodeCnt } := by
  refine walk_induct (P := P) (a := a) (fun _ t => t = { s with node := t.node, nodeCnt := t.nodeCnt }) ?_ ?_ cs i n s n' s' rfl h
  · intro _ _ _ _ h _ _ _; exact h
  · intro _ t _ _ h _ _ _ _; rw [h]; rfl

theorem loadFault_congr {s t : State} (h : t = { s with node := t.node, nodeCnt := t.nodeCnt })
    (e : ErrorName) (info pos : Word) : loadFault t e info pos = loadFault s e info pos := by
  rw [h]; rfl

/-- A walk that ends the command in LOAD mode ends in a fault that leaves no trace of it. -/
theorem walk_ended {P : Config.Params} {a : Byte} {t : State} :
    ∀ {cs : List Byte} {i : Nat} {n : Idx} {s : State}, s.mode = .load → walk P a i cs n s = .ended (.next t) →
      ∃ e info pos, BodyError e ∧ t = loadFault s e info pos := by
  intro cs
  induction cs with
  | nil => intro i n s _ hw; simp [walk] at hw
  | cons c cs ih =>
    intro i n s hm hw
    rw [walk_cons] at hw
    rcases walkStep_cases P a i (walkSide c) n s with ⟨_, e⟩ | ⟨r, hr, ⟨_, _, e⟩ | ⟨h1, h2, e⟩ | ⟨h1, h2, h3, e⟩ | ⟨_, _, _, e⟩ | ⟨_, e⟩⟩ <;>
      rw [e] at hw
    · simp at hw
    · cases hw; exact ⟨_, _, _, by simp [BodyError, HardwareError], raise_load _ _ _ hm⟩
    · exact ih hm hw
    · obtain ⟨e, info, pos, he, ht⟩ := ih (s := grown n r _ s) hm hw
      exact ⟨e, info, pos, he, ht.trans (loadFault_congr rfl e info pos)⟩
    · cases hw; exact ⟨_, _, _, by simp [BodyError, HardwareError], raise_load _ _ _ hm⟩
    · simp at hw

/-- What INSERT answers in LOAD mode: a fault, or the marked terminal node. -/
theorem insertBody_cases {P : Config.Params} {a : Byte} {s t : State} (hm : s.mode = .load)
    (h : insertBody P a s = .next t) :
    (∃ e info pos, BodyError e ∧ t = loadFault s e info pos) ∨
      ∃ p n s' r, s.pLen ≠ 0 ∧ recordPath s = some p ∧ firstBad 0 p = none ∧ walk P a 0 p s.root s = .reached n s' ∧
        nodeAt s' n = some r ∧ r.isLeaf = true ∧ (r.sym = none ∨ r.sym = some a) ∧
        t = clearPath (writeNode n (r.withSym a) s') := by
  unfold insertBody at h
  split at h
  · cases h; exact .inl ⟨_, _, _, by simp [BodyError, HardwareError], raise_load _ _ _ hm⟩
  · rename_i hp
    split at h
    · simp at h
    · rename_i p hrec
      split at h
      · cases h; exact .inl ⟨_, _, _, by simp [BodyError, HardwareError], raise_load _ _ _ hm⟩
      · rename_i hbad
        split at h
        · rename_i res hw
          subst h
          exact .inl (walk_ended hm hw)
        · rename_i n s' hw
          have hf := walk_frame hw
          have hm' : s'.mode = .load := by rw [hf]; exact hm
          unfold markTerminal at h
          split at h
          · simp at h
          · rename_i r hr
            have key : ∀ e info pos, BodyError e → raise e info pos s' = t →
                ∃ e info pos, BodyError e ∧ t = loadFault s e info pos := by
              intro e info pos he ht
              exact ⟨e, info, pos, he, by rw [← ht, raise_load _ _ _ hm', loadFault_congr hf]⟩
            dsimp only at h
            split at h
            · rename_i hs
              split at h
              · rename_i hl
                cases h
                exact .inr ⟨p, n, s', r, hp, hrec, hbad, hw, hr, hl, .inl hs, rfl⟩
              · cases h; exact .inl (key _ _ _ (by simp [BodyError, HardwareError]) rfl)
            · rename_i held hs
              split at h
              · rename_i heq
                split at h
                · rename_i hl
                  cases h
                  exact .inr ⟨p, n, s', r, hp, hrec, hbad, hw, hr, hl, .inr (by rw [hs, heq]), rfl⟩
                · cases h; exact .inl (key _ _ _ (by simp [BodyError, HardwareError]) rfl)
              · cases h; exact .inl (key _ _ _ (by simp [BodyError, HardwareError]) rfl)

/-! ### PATH and its first bad character -/

/-- The characters `PATH[i] ..` one by one. -/
theorem pathFrom_get {s : State} : ∀ {n i : Nat} {p : List Byte}, pathFrom s i n = some p →
    p.length = n ∧ ∀ j, j < n → pathAt s (i + j) = p[j]? := by
  intro n
  induction n with
  | zero => intro i p h; cases h; simp
  | succ n ih =>
    intro i p h
    simp only [pathFrom] at h
    split at h
    · simp at h
    · rename_i c hc
      cases hq : pathFrom s (i + 1) n with
      | none => simp [hq] at h
      | some q =>
        simp only [hq, Option.map_some, Option.some.injEq] at h
        subst h
        obtain ⟨h1, h2⟩ := ih hq
        refine ⟨by simp [h1], ?_⟩
        intro j hj
        cases j with
        | zero => simpa using hc
        | succ j =>
          have := h2 j (by omega)
          rw [show i + (j + 1) = i + 1 + j by omega, this]; simp

/-- PATH below PLEN is readable: the record's path is there. -/
theorem pathFrom_some {s : State} : ∀ {n i : Nat}, (∀ j, j < n → pathAt s (i + j) ≠ none) → ∃ p, pathFrom s i n = some p := by
  intro n
  induction n with
  | zero => intro i _; exact ⟨[], rfl⟩
  | succ n ih =>
    intro i h
    have h0 := h 0 (by omega)
    obtain ⟨p, hp⟩ := ih (i := i + 1) (fun j hj => by
      have := h (j + 1) (by omega)
      rwa [show i + (j + 1) = i + 1 + j by omega] at this)
    simp only [Nat.add_zero] at h0
    cases hc : pathAt s i with
    | none => exact absurd hc h0
    | some c => exact ⟨c :: p, by simp [pathFrom, hc, hp]⟩

theorem firstBad_none {i : Nat} {p : List Byte} : firstBad i p = none ↔ ∀ c ∈ p, bitSymbol c ≠ none := by
  induction p generalizing i with
  | nil => simp [firstBad]
  | cons c cs ih =>
    simp only [firstBad]
    split
    · simp_all
    · simp_all

/-- The first bad character is where it stands. -/
theorem firstBad_eq {i : Nat} {p q : List Byte} {c : Byte} (hq : ∀ d ∈ p, bitSymbol d ≠ none) (hc : bitSymbol c = none) :
    firstBad i (p ++ c :: q) = some (i + p.length, c) := by
  induction p generalizing i with
  | nil => simp [firstBad, hc]
  | cons d p ih =>
    simp only [List.mem_cons, forall_eq_or_imp] at hq
    simp only [List.cons_append, firstBad]
    rw [if_neg hq.1, ih hq.2]
    simp; omega

end Sys2Proof.Machine
end

