-- ==== Sys2Proof/Laws/Tree.lean ====
section
/-! SUPPORT. The tree invariant R36 (a) to (d) through every operation that writes NODE: discard, LBEGIN, the walk of
INSERT and its mark, the merges of BUILD. -/

namespace Sys2Proof.Machine

/-! ### Children -/

theorem childOf_congr {s t : State} (h : ∀ i, nodeAt t i = nodeAt s i) (p : Idx) (b : Side) (c : Idx) :
    ChildOf t p b c ↔ ChildOf s p b c := by
  simp [ChildOf, h]

theorem ChildOf.parent_lt {s : State} {p : Idx} {b : Side} {c : Idx} (h : ChildOf s p b c) :
    p.toNat < s.nodeCnt.toNat := by
  obtain ⟨_, r, hr, _⟩ := h
  exact nodeAt_lt hr

theorem childOf_of_nodeAt {s : State} {p : Idx} {r : Node} (hr : nodeAt s p = some r) {b : Side} (hc : r.child b ≠ NIL) :
    ChildOf s p b (r.child b) := ⟨hc, r, hr, rfl⟩

@[simp] theorem child_withChild_same (r : Node) (b : Side) (c : Idx) : (r.withChild b c).child b = c := by
  cases b <;> rfl

theorem child_withChild_other (r : Node) {b b' : Side} (c : Idx) (h : b' ≠ b) :
    (r.withChild b c).child b' = r.child b' := by
  cases b <;> cases b' <;> first | rfl | exact absurd rfl h

@[simp] theorem child_withSym (r : Node) (a : Byte) (b : Side) : (r.withSym a).child b = r.child b := by
  cases b <;> rfl

@[simp] theorem child_emptyNode (b : Side) : emptyNode.child b = NIL := by cases b <;> rfl

@[simp] theorem child_leafNode (x : Byte) (w : Word) (b : Side) : (leafNode x w).child b = NIL := by cases b <;> rfl

theorem isLeaf_withSym (r : Node) (a : Byte) : (r.withSym a).isLeaf = r.isLeaf := rfl

theorem not_leaf_of_child {r : Node} {b : Side} (h : r.child b ≠ NIL) : r.isLeaf = false := by
  by_contra hc
  exact h ((isLeaf_iff r).1 (by simpa using hc) b)

/-! ### One node more on a walk -/

theorem nodeAt_grown {s : State} {n : Idx} {r : Node} (b : Side) (hn : nodeAt s n = some r) (h : s.nodeCnt.toNat < 1023)
    (i : Idx) :
    nodeAt (grown n r b s) i =
      if i = n then some (r.withChild b s.nodeCnt) else if i = s.nodeCnt then some emptyNode else nodeAt s i := by
  have hlt := nodeAt_lt hn
  unfold grown
  rw [nodeAt_writeNode _ _ (by rw [alloc_count _ h]; omega), nodeAt_alloc _ h]

theorem grown_count {s : State} {n : Idx} {r : Node} (b : Side) (h : s.nodeCnt.toNat < 1023) :
    (grown n r b s).nodeCnt.toNat = s.nodeCnt.toNat + 1 :=
  alloc_count emptyNode h

theorem ne_NIL_of_lt {i : Idx} (h : i.toNat < 1023) : i ≠ NIL := by
  rintro rfl; simp at h

theorem childOf_grown {s : State} {n : Idx} {r : Node} {b : Side} (hn : nodeAt s n = some r) (hc : r.child b = NIL)
    (h : s.nodeCnt.toNat < 1023) (p : Idx) (b' : Side) (c : Idx) :
    ChildOf (grown n r b s) p b' c ↔ (p = n ∧ b' = b ∧ c = s.nodeCnt) ∨ ChildOf s p b' c := by
  have hlt := nodeAt_lt hn
  unfold ChildOf
  rw [nodeAt_grown b hn h]
  by_cases hp : p = n
  · subst hp
    rw [if_pos rfl, hn]
    by_cases hb : b' = b
    · subst hb
      constructor
      · rintro ⟨_, x, hx, hcx⟩
        cases hx
        exact .inl ⟨rfl, rfl, by simpa using hcx.symm⟩
      · rintro (⟨_, _, rfl⟩ | ⟨hne, x, hx, hcx⟩)
        · exact ⟨ne_NIL_of_lt h, _, rfl, by simp⟩
        · cases hx; exact absurd (hcx.symm.trans hc) hne
    · constructor
      · rintro ⟨hne, x, hx, hcx⟩
        cases hx
        rw [child_withChild_other _ _ hb] at hcx
        exact .inr ⟨hne, r, rfl, hcx⟩
      · rintro (⟨_, hb', _⟩ | ⟨hne, x, hx, hcx⟩)
        · exact absurd hb' hb
        · cases hx
          exact ⟨hne, _, rfl, by rwa [child_withChild_other _ _ hb]⟩
  · rw [if_neg hp]
    by_cases hz : p = s.nodeCnt
    · subst hz
      rw [if_pos rfl]
      constructor
      · rintro ⟨hne, x, hx, hcx⟩
        cases hx
        exact absurd (by simpa using hcx.symm) hne
      · rintro (⟨hp', _⟩ | ⟨_, x, hx, _⟩)
        · exact absurd hp' hp
        · exact absurd (nodeAt_lt hx) (by omega)
    · rw [if_neg hz]
      constructor
      · exact .inr
      · rintro (⟨hp', _⟩ | h')
        · exact absurd hp' hp
        · exact h'

/-! ### The walk of INSERT -/

/-- What holds on the walk of INSERT at node n: the tree invariant, but for n, which may stand without symbol and child. -/
structure LoadWalk (n : Idx) (s : State) : Prop where
  keys         : s.node.map Prod.fst = List.range s.nodeCnt.toNat
  bound        : s.nodeCnt.toNat ≤ 512
  root         : s.root = 0
  nonempty     : 0 < s.nodeCnt.toNat
  here         : n.toNat < s.nodeCnt.toNat
  childWritten : ∀ p b c, ChildOf s p b c → c.toNat < s.nodeCnt.toNat
  oneParent    : ∀ c : Idx, c.toNat < s.nodeCnt.toNat → c ≠ s.root →
    ∃ p b, ChildOf s p b c ∧ ∀ p' b', ChildOf s p' b' c → p' = p ∧ b' = b
  rootFree     : ∀ p b, ¬ ChildOf s p b s.root
  above        : ∀ p b c, ChildOf s p b c → p < c
  symbolOnLeaf : ∀ i r, nodeAt s i = some r → r.sym ≠ none → r.isLeaf = true
  bareLeaf     : ∀ i r, nodeAt s i = some r → r.sym = none → r.isLeaf = true → i = n

theorem LoadWalk.start {s : State} (hk : s.node.map Prod.fst = List.range s.nodeCnt.toNat) (ht : TreeInv s)
    (ha : ChildrenAbove s) (hb : s.nodeCnt.toNat ≤ 512) : LoadWalk s.root s := by
  have hr : s.root ≠ NIL := by rw [ha.1]; decide
  have hw := ht.rootWritten hr
  exact ⟨hk, hb, ha.1, by omega, hw, ht.childWritten, ht.oneParent, ht.rootFree, ha.2, ht.symbolOnLeaf,
    fun i r h1 h2 h3 => (ht.bareLeaf i r h1 h2 h3).1⟩

theorem LoadWalk.descend {n : Idx} {s : State} (h : LoadWalk n s) {r : Node} {b : Side} (hr : nodeAt s n = some r)
    (hc : r.child b ≠ NIL) : LoadWalk (r.child b) s := by
  have hlt := h.childWritten _ _ _ (childOf_of_nodeAt hr hc)
  refine { h with here := hlt, bareLeaf := ?_ }
  intro i x hx hs hl
  have hi := h.bareLeaf i x hx hs hl
  subst hi
  rw [hr] at hx; cases hx
  exact absurd ((isLeaf_iff r).1 hl b) hc

theorem LoadWalk.grow {n : Idx} {s : State} (h : LoadWalk n s) {r : Node} {b : Side} (hr : nodeAt s n = some r)
    (hs : r.sym = none) (hc : r.child b = NIL) (hroom : s.nodeCnt.toNat < 512) : LoadWalk s.nodeCnt (grown n r b s) := by
  have hlt := nodeAt_lt hr
  have hcnt : (grown n r b s).nodeCnt.toNat = s.nodeCnt.toNat + 1 := grown_count b (by omega)
  have hroot : (grown n r b s).root = s.root := rfl
  have hch := childOf_grown hr hc (by omega : s.nodeCnt.toNat < 1023)
  have hnode := nodeAt_grown b hr (by omega : s.nodeCnt.toNat < 1023)
  refine ⟨?_, by omega, h.root, by omega, by omega, ?_, ?_, ?_, ?_, ?_, ?_⟩
  · rw [show (grown n r b s).nodeCnt = (alloc emptyNode s).nodeCnt from rfl,
      ← keys_alloc emptyNode h.keys (by omega)]
    refine Memory.keys_write_old _ _ _ ?_ ?_
    · exact Memory.wf_of_range _ _ (keys_alloc emptyNode h.keys (by omega))
    · rw [keys_alloc emptyNode h.keys (by omega), alloc_count _ (by omega)]
      simp; omega
  · intro p b' c hx
    rw [hcnt]
    rcases (hch p b' c).1 hx with ⟨_, _, rfl⟩ | hx
    · omega
    · have := h.childWritten _ _ _ hx; omega
  · intro c hcl hne
    rw [hcnt] at hcl
    rw [hroot] at hne
    by_cases hz : c = s.nodeCnt
    · subst hz
      refine ⟨n, b, (hch _ _ _).2 (.inl ⟨rfl, rfl, rfl⟩), ?_⟩
      intro p' b' hx
      rcases (hch _ _ _).1 hx with ⟨h1, h2, _⟩ | hx
      · exact ⟨h1, h2⟩
      · exact absurd (h.childWritten _ _ _ hx) (by omega)
    · have : c.toNat ≠ s.nodeCnt.toNat := fun e => hz (BitVec.eq_of_toNat_eq e)
      obtain ⟨p, b0, hp, hu⟩ := h.oneParent c (by omega) hne
      refine ⟨p, b0, (hch _ _ _).2 (.inr hp), ?_⟩
      intro p' b' hx
      rcases (hch _ _ _).1 hx with ⟨_, _, h3⟩ | hx
      · exact absurd h3 hz
      · exact hu _ _ hx
  · intro p b' hx
    rw [hroot] at hx
    rcases (hch _ _ _).1 hx with ⟨_, _, h3⟩ | hx
    · have := h.nonempty; rw [← h3, h.root] at this; simp at this
    · exact h.rootFree _ _ hx
  · intro p b' c hx
    rcases (hch _ _ _).1 hx with ⟨rfl, _, rfl⟩ | hx
    · exact BitVec.lt_def.2 hlt
    · exact h.above _ _ _ hx
  · intro i x hx hsx
    rw [hnode] at hx
    split at hx
    · cases hx
      cases b <;> exact absurd hs hsx
    · split at hx
      · cases hx; exact absurd rfl hsx
      · exact h.symbolOnLeaf i x hx hsx
  · intro i x hx hsx hl
    rw [hnode] at hx
    split at hx
    · cases hx
      have := (isLeaf_iff _).1 hl b
      rw [child_withChild_same] at this
      rw [this] at hroom; simp at hroom
    · split at hx
      · assumption
      · rename_i hne _
        exact absurd (h.bareLeaf i x hx hsx hl) hne

/-- The mark at the end of the walk completes the tree. -/
theorem LoadWalk.mark {n : Idx} {s : State} (h : LoadWalk n s) {r : Node} (a : Byte) (hr : nodeAt s n = some r)
    (hl : r.isLeaf = true) :
    TreeInv (writeNode n (r.withSym a) s) ∧ ChildrenAbove (writeNode n (r.withSym a) s) ∧
      (writeNode n (r.withSym a) s).node.map Prod.fst = List.range (writeNode n (r.withSym a) s).nodeCnt.toNat := by
  have hlt := nodeAt_lt hr
  have hnode := nodeAt_writeNode n (r.withSym a) hlt
  have hch : ∀ p b c, ChildOf (writeNode n (r.withSym a) s) p b c ↔ ChildOf s p b c := by
    intro p b c
    unfold ChildOf
    rw [hnode]
    by_cases hp : p = n
    · subst hp; simp [hr]
    · rw [if_neg hp]
  have hroot : (writeNode n (r.withSym a) s).root = s.root := rfl
  have hcnt : (writeNode n (r.withSym a) s).nodeCnt = s.nodeCnt := rfl
  have habove : ChildrenAbove (writeNode n (r.withSym a) s) :=
    ⟨h.root, fun p b c hx => h.above p b c ((hch p b c).1 hx)⟩
  refine ⟨⟨?_, ?_, ?_, ?_, ?_, .inr habove, ?_, ?_⟩, habove, ?_⟩
  · rw [hroot, hcnt, h.root]
    constructor
    · intro hx; exact absurd hx (by decide)
    · intro hx; have := h.nonempty; rw [hx] at this; simp at this
  · intro _; rw [hroot, hcnt, h.root]; exact h.nonempty
  · intro p b c hx; exact h.childWritten p b c ((hch p b c).1 hx)
  · intro c hcl hne
    obtain ⟨p, b, hp, hu⟩ := h.oneParent c hcl hne
    exact ⟨p, b, (hch p b c).2 hp, fun p' b' hx => hu p' b' ((hch p' b' c).1 hx)⟩
  · intro p b hx; exact h.rootFree p b ((hch _ _ _).1 hx)
  · intro i x hx hs
    rw [hnode] at hx
    split at hx
    · cases hx; rw [isLeaf_withSym]; exact hl
    · exact h.symbolOnLeaf i x hx hs
  · intro i x hx hs hlx
    rw [hnode] at hx
    split at hx
    · cases hx; simp [Node.withSym] at hs
    · rename_i hne
      exact absurd (h.bareLeaf i x hx hs hlx) hne
  · exact (Memory.keys_write_old _ _ _ (Memory.wf_of_range _ _ h.keys) (by rw [h.keys]; simpa using hlt)).trans h.keys

/-! ### No tree, and the empty root -/

theorem TreeInv.of_no_nodes {s : State} (hr : s.root = NIL) (hc : s.nodeCnt = 0) : TreeInv s := by
  have hn : ∀ i, nodeAt s i = none := by intro i; simp [nodeAt, hc]
  refine ⟨by simp [hr, hc], fun h => absurd hr h, ?_, ?_, ?_, .inl ?_, ?_, ?_⟩
  · rintro p b c ⟨_, r, h, _⟩; simp [hn] at h
  · intro c h; simp [hc] at h
  · rintro p b ⟨_, r, h, _⟩; simp [hn] at h
  · rintro p b c ⟨_, r, h, _⟩; simp [hn] at h
  · intro i r h; simp [hn] at h
  · intro i r h; simp [hn] at h

/-- The tree invariant sees NODE's entries, NODECNT and ROOT only. -/
theorem TreeInv.congr {s t : State} (h : TreeInv s) (hn : t.node = s.node) (hc : t.nodeCnt = s.nodeCnt)
    (hr : t.root = s.root) : TreeInv t := by
  have hnode := nodeAt_congr hn hc
  have hch := childOf_congr hnode
  refine ⟨by rw [hr, hc]; exact h.rootNil, by rw [hr, hc]; exact h.rootWritten, ?_, ?_, ?_, ?_, ?_, ?_⟩
  · intro p b c hx; rw [hc]; exact h.childWritten p b c ((hch p b c).1 hx)
  · intro c hcl hne
    rw [hc] at hcl; rw [hr] at hne
    obtain ⟨p, b, hp, hu⟩ := h.oneParent c hcl hne
    exact ⟨p, b, (hch p b c).2 hp, fun p' b' hx => hu p' b' ((hch p' b' c).1 hx)⟩
  · intro p b hx; rw [hr] at hx; exact h.rootFree p b ((hch _ _ _).1 hx)
  · rcases h.order with ho | ho
    · exact .inl fun p b c hx => ho p b c ((hch p b c).1 hx)
    · exact .inr ⟨hr.trans ho.1, fun p b c hx => ho.2 p b c ((hch p b c).1 hx)⟩
  · intro i r hx; rw [hnode] at hx; exact h.symbolOnLeaf i r hx
  · intro i r hx; rw [hnode] at hx; rw [hr, hc]; exact h.bareLeaf i r hx

theorem ChildrenAbove.congr {s t : State} (h : ChildrenAbove s) (hn : t.node = s.node) (hc : t.nodeCnt = s.nodeCnt)
    (hr : t.root = s.root) : ChildrenAbove t :=
  ⟨hr.trans h.1, fun p b c hx => h.2 p b c ((childOf_congr (nodeAt_congr hn hc) p b c).1 hx)⟩

theorem ChildrenBelow.congr {s t : State} (h : ChildrenBelow s) (hn : t.node = s.node) (hc : t.nodeCnt = s.nodeCnt) :
    ChildrenBelow t :=
  fun p b c hx => h p b c ((childOf_congr (nodeAt_congr hn hc) p b c).1 hx)

/-- The tree of LBEGIN: one empty root at index 0. -/
theorem TreeInv.of_empty_root {s : State} (hn : s.node = [(0, emptyNode)]) (hc : s.nodeCnt = 1) (hr : s.root = 0) :
    TreeInv s ∧ ChildrenAbove s := by
  have hnode : ∀ i r, nodeAt s i = some r → i = 0 ∧ r = emptyNode := by
    intro i r h
    have hlt := nodeAt_lt h
    rw [hc] at hlt
    have hi : i = 0 := BitVec.eq_of_toNat_eq (by simpa using hlt)
    subst hi
    simp [nodeAt, hn, hc, Memory.read] at h
    exact ⟨rfl, h.symm⟩
  have hch : ∀ p b c, ¬ ChildOf s p b c := by
    rintro p b c ⟨hne, r, h, hx⟩
    obtain ⟨_, rfl⟩ := hnode p r h
    exact hne (by simpa using hx.symm)
  have habove : ChildrenAbove s := ⟨hr, fun p b c hx => absurd hx (hch p b c)⟩
  refine ⟨⟨?_, ?_, ?_, ?_, ?_, .inr habove, ?_, ?_⟩, habove⟩
  · rw [hr, hc]; decide
  · intro _; rw [hr, hc]; decide
  · intro p b c hx; exact absurd hx (hch p b c)
  · intro c hcl hne
    rw [hc] at hcl
    exact absurd (BitVec.eq_of_toNat_eq (by rw [hr]; simpa using hcl)) hne
  · intro p b; exact hch p b _
  · intro i r h hs
    obtain ⟨_, rfl⟩ := hnode i r h
    exact absurd rfl hs
  · intro i r h _ _
    obtain ⟨rfl, _⟩ := hnode i r h
    exact ⟨hr.symm, hc⟩

end Sys2Proof.Machine
end

