-- ==== Sys2Proof/Laws/Follow.lean ====
section
/-! SUPPORT. Paths in a tree, and the walk of INSERT along them: where the path is there, and from where it leaves the
tree. -/

namespace Sys2Proof.Machine

/-- The walk from a fresh node, the last allocated, makes one node per character. -/
theorem walk_fresh {P : Config.Params} {a : Byte} (hP : P.nodeN ≤ 1023) : ∀ (cs : List Byte) (i : Nat) (n : Idx) (s : State),
    n.toNat + 1 = s.nodeCnt.toNat → nodeAt s n = some emptyNode → (∀ c ∈ cs, bitSymbol c ≠ none) →
    s.nodeCnt.toNat + cs.length ≤ P.nodeN →
    ∃ t, walk P a i cs n s = .reached (BitVec.ofNat 10 (n.toNat + cs.length)) t ∧
      t.nodeCnt.toNat = s.nodeCnt.toNat + cs.length ∧
      nodeAt t (BitVec.ofNat 10 (n.toNat + cs.length)) = some emptyNode ∧
      (∀ j b, cs[j]?.bind bitSymbol = some b →
        nodeAt t (BitVec.ofNat 10 (n.toNat + j)) = some (emptyNode.withChild b (BitVec.ofNat 10 (n.toNat + j + 1)))) ∧
      ∀ k r, nodeAt s k = some r → k ≠ n → nodeAt t k = some r := by
  intro cs
  induction cs with
  | nil =>
    intro i n s hn he _ _
    refine ⟨s, ?_, rfl, ?_, ?_, fun _ _ h _ => h⟩
    · simp [walk]
    · simpa using he
    · intro j b h; simp at h
  | cons c cs ih =>
    intro i n s hn he hv hr
    have hlt := nodeAt_lt he
    simp only [List.length_cons] at hr
    obtain ⟨b, hb⟩ := Option.ne_none_iff_exists'.1 (hv c (by simp))
    have hroom : s.nodeCnt.toNat < P.nodeN := by omega
    have hstep : walkStep P a i (walkSide c) n s = .reached s.nodeCnt (grown n emptyNode b s) := by
      rw [walkSide_eq hb]
      simp only [walkStep, he]
      rw [show emptyNode.sym = none from rfl]
      simp only [child_emptyNode, if_true, room_free hroom]
      rfl
    have hcnt := grown_count (n := n) (r := emptyNode) b (s := s) (by omega)
    have hnode := nodeAt_grown b he (by omega : s.nodeCnt.toNat < 1023)
    have hne : s.nodeCnt ≠ n := by intro e; rw [e] at hn; omega
    have hcn : BitVec.ofNat 10 (n.toNat + 1) = s.nodeCnt := by rw [hn]; simp
    obtain ⟨t, h1, h2, h3, h4, h5⟩ := ih (i + 1) s.nodeCnt (grown n emptyNode b s) (by omega)
      (by rw [hnode, if_neg hne, if_pos rfl]) (fun c hc => hv c (by simp [hc])) (by omega)
    have hsum : s.nodeCnt.toNat + cs.length = n.toNat + (cs.length + 1) := by omega
    refine ⟨t, ?_, ?_, ?_, ?_, ?_⟩
    · rw [walk_cons, hstep]; simp only [List.length_cons]; rw [← hsum]; exact h1
    · rw [h2, hcnt]; simp; omega
    · simp only [List.length_cons]; rw [← hsum]; exact h3
    · intro j b' hj
      cases j with
      | zero =>
        simp [hb] at hj; subst hj
        have := h5 n _ (by rw [hnode, if_pos rfl]) hne.symm
        simpa [hcn] using this
      | succ j =>
        have := h4 j b' (by simpa using hj)
        rw [show n.toNat + (j + 1) = s.nodeCnt.toNat + j by omega]
        exact this
    · intro k r hk hkn
      refine h5 k r ?_ ?_
      · rw [hnode, if_neg hkn, if_neg]; exact hk
        rintro rfl; have := nodeAt_lt hk; omega
      · rintro rfl; have := nodeAt_lt hk; omega

/-- A path stays where every node keeps the children it has. -/
theorem follow_congr {s t : State} : ∀ (cs : List Byte) (n m : Idx),
    (∀ k r, nodeAt s k = some r → ∃ r', nodeAt t k = some r' ∧ ∀ b, r.child b ≠ NIL → r'.child b = r.child b) →
    follow s n cs = some m → follow t n cs = some m := by
  intro cs
  induction cs with
  | nil => intro n m _ h; exact h
  | cons c cs ih =>
    intro n m H h
    simp only [follow] at h ⊢
    cases hb : bitSymbol c with
    | none => simp [hb] at h
    | some b =>
      cases hr : nodeAt s n with
      | none => simp [hb, hr] at h
      | some r =>
        simp only [hb, hr] at h
        split at h
        · exact absurd h nofun
        · rename_i hc
          obtain ⟨r', hr', hch⟩ := H n r hr
          simp only [hr']
          rw [hch b hc, if_neg hc]
          exact ih _ _ H h
theorem follow_append {s : State} : ∀ (p q : List Byte) (n m k : Idx), follow s n p = some m → follow s m q = some k →
    follow s n (p ++ q) = some k := by
  intro p
  induction p with
  | nil => intro q n m k h1 h2; cases h1; exact h2
  | cons c p ih =>
    intro q n m k h1 h2
    simp only [List.cons_append, follow] at h1 ⊢
    cases hb : bitSymbol c with
    | none => simp [hb] at h1
    | some b =>
      cases hr : nodeAt s n with
      | none => simp [hb, hr] at h1
      | some r =>
        simp only [hb, hr] at h1 ⊢
        split at h1
        · exact absurd h1 nofun
        · rename_i hc
          rw [if_neg hc]; exact ih _ _ _ _ h1 h2

/-- The walk along a path that is there, past no symbol, changes nothing. -/
theorem walk_existing {P : Config.Params} {a : Byte} {s : State} (rest : List Byte) :
    ∀ (q : List Byte) (i : Nat) (n m : Idx), follow s n q = some m →
      (∀ q', q' <+: q → q' ≠ q → ∀ k r, follow s n q' = some k → nodeAt s k = some r → r.sym = none) →
      walk P a i (q ++ rest) n s = walk P a (i + q.length) rest m s := by
  intro q
  induction q with
  | nil => intro i n m h _; cases h; rfl
  | cons c q ih =>
    intro i n m h ho
    simp only [follow] at h
    cases hb : bitSymbol c with
    | none => simp [hb] at h
    | some b =>
      cases hr : nodeAt s n with
      | none => simp [hb, hr] at h
      | some r =>
        simp only [hb, hr] at h
        split at h
        · exact absurd h nofun
        · rename_i hc
          have hs : r.sym = none := ho [] (List.nil_prefix) (by simp) n r rfl hr
          rw [List.cons_append, walk_cons, walkSide_eq hb]
          have : walkStep P a i b n s = .reached (r.child b) s := by
            simp only [walkStep, hr, hs, if_neg hc]
          rw [this]
          simp only
          rw [ih (i+1) (r.child b) m h]
          · simp; congr 1; omega
          · intro q' hq' hne k r' hf hr'
            refine ho (c :: q') (by simpa using hq') (by simpa using hne) k r' ?_ hr'
            simp [follow, hb, hr, hc, hf]

/-- INSERT of a valid record is the walk and the mark. -/
theorem insert_run {a : Byte} {s : State} {p : List Byte} (h : s.mode = .load) (hv : ValidRecord s p) :
    exec (.insert a) s =
      match walk Config.params a 0 p s.root s with | .ended r => r | .reached n s' => markTerminal a n s' := by
  obtain ⟨h1, h2, h3⟩ := hv
  have hlen : p.length = s.pLen.toNat := (pathFrom_get h1).1
  have hp : s.pLen ≠ 0 := by
    intro e; rw [e] at hlen; simp at hlen; exact h2 hlen
  rw [exec_run (i := .insert a) (by simp [access, accessRow, h])]
  cases hw : walk Config.params a 0 p s.root s <;>
    simp only [bodyOf, insertBody, if_neg hp, h1, firstBad_none.2 h3, hw]

end Sys2Proof.Machine
end

