-- ==== Sys2Proof/Laws/Forest.lean ====
section
/-! SUPPORT. The forest BUILD works on: the written nodes and Q, through the leaves and the merges, to the finished tree;
and its weights. -/

namespace Sys2Proof.Machine

/-- The arena and Q during BUILD: the elements of Q are the roots of a forest over all written nodes. -/
structure Forest (s : State) (q : List Key) : Prop where
  keys         : s.node.map Prod.fst = List.range s.nodeCnt.toNat
  room         : s.nodeCnt.toNat + q.length ≤ 512
  records      : ∀ k ∈ q, ∃ r, nodeAt s k.idx = some r ∧ k = keyOf k.idx r
  distinct     : (q.map Key.idx).Nodup
  childWritten : ∀ p b c, ChildOf s p b c → c.toNat < s.nodeCnt.toNat
  below        : ChildrenBelow s
  rootless     : ∀ k ∈ q, ∀ p b, ¬ ChildOf s p b k.idx
  oneParent    : ∀ c : Idx, c.toNat < s.nodeCnt.toNat → (∀ k ∈ q, k.idx ≠ c) →
    ∃ p b, ChildOf s p b c ∧ ∀ p' b', ChildOf s p' b' c → p' = p ∧ b' = b
  symbolOnLeaf : ∀ i r, nodeAt s i = some r → r.sym ≠ none → r.isLeaf = true
  inner        : ∀ i r, nodeAt s i = some r → r.sym = none → r.isLeaf = false

/-- The children after a merge: the two extracted nodes under the new one, and those there were. -/
theorem childOf_merged {s : State} {x y : Key} (hx : x.idx.toNat < 1023) (hy : y.idx.toNat < 1023)
    (h : s.nodeCnt.toNat < 1023) (p : Idx) (b : Side) (c : Idx) :
    ChildOf (alloc (mergedNode x y) s) p b c ↔
      (p = s.nodeCnt ∧ ((b = .left ∧ c = x.idx) ∨ (b = .right ∧ c = y.idx))) ∨ ChildOf s p b c := by
  unfold ChildOf
  rw [nodeAt_alloc _ h]
  by_cases hp : p = s.nodeCnt
  · subst hp
    rw [if_pos rfl]
    constructor
    · rintro ⟨_, r, hr, hc⟩
      cases hr
      refine .inl ⟨rfl, ?_⟩
      cases b
      · exact .inl ⟨rfl, hc.symm⟩
      · exact .inr ⟨rfl, hc.symm⟩
    · rintro (⟨_, ⟨rfl, rfl⟩ | ⟨rfl, rfl⟩⟩ | ⟨_, r, hr, _⟩)
      · exact ⟨ne_NIL_of_lt hx, _, rfl, rfl⟩
      · exact ⟨ne_NIL_of_lt hy, _, rfl, rfl⟩
      · exact absurd (nodeAt_lt hr) (by omega)
  · rw [if_neg hp]
    constructor
    · exact .inr
    · rintro (⟨hp', _⟩ | h')
      · exact absurd hp' hp
      · exact h'

theorem idx_ne_of_distinct {q : List Key} {x y : Key} {q2 : List Key} (hd : (q.map Key.idx).Nodup)
    (hp : q.Perm (x :: y :: q2)) :
    x.idx ≠ y.idx ∧ (∀ k ∈ q2, k.idx ≠ x.idx ∧ k.idx ≠ y.idx) ∧ (q2.map Key.idx).Nodup := by
  have h := (hp.map Key.idx).nodup_iff.1 hd
  simp only [List.map_cons, List.nodup_cons, List.mem_cons, not_or] at h
  obtain ⟨⟨h1, h2⟩, h3, h4⟩ := h
  refine ⟨h1, ?_, h4⟩
  intro k hk
  refine ⟨?_, ?_⟩
  · rintro e; exact h2 (e ▸ List.mem_map_of_mem hk)
  · rintro e; exact h3 (e ▸ List.mem_map_of_mem hk)

/-- Q after two extractions, as one permutation. -/
theorem pop_two_perm {q q1 q2 : List Key} {x y : Key} (h1 : popLeast q = some (x, q1)) (h2 : popLeast q1 = some (y, q2)) :
    q.Perm (x :: y :: q2) :=
  (popLeast_perm h1).trans ((popLeast_perm h2).cons x)

theorem Forest.merge {s : State} {q : List Key} (h : Forest s q) {x y : Key} {q1 q2 : List Key}
    (h1 : popLeast q = some (x, q1)) (h2 : popLeast q1 = some (y, q2)) :
    Forest (alloc (mergedNode x y) s) (keyOf s.nodeCnt (mergedNode x y) :: q2) := by
  have hperm := pop_two_perm h1 h2
  obtain ⟨hxy, hq2, hnd⟩ := idx_ne_of_distinct h.distinct hperm
  have hmem : ∀ k, k ∈ q ↔ k = x ∨ k = y ∨ k ∈ q2 := by
    intro k; rw [hperm.mem_iff]; simp
  have hlen : q.length = q2.length + 2 := by rw [hperm.length_eq]; simp
  have hroom := h.room
  have hlt : ∀ k ∈ q, k.idx.toNat < s.nodeCnt.toNat := by
    intro k hk; obtain ⟨r, hr, _⟩ := h.records k hk; exact nodeAt_lt hr
  have hx := hlt x ((hmem x).2 (.inl rfl))
  have hy := hlt y ((hmem y).2 (.inr (.inl rfl)))
  have hcnt := alloc_count (mergedNode x y) (s := s) (by omega)
  have hnode := nodeAt_alloc (mergedNode x y) (s := s) (by omega)
  have hch := childOf_merged (x := x) (y := y) (s := s) (by omega) (by omega) (by omega)
  have hsub : ∀ k ∈ q2, k ∈ q := fun k hk => (hmem k).2 (.inr (.inr hk))
  have hz : ∀ k ∈ q, k.idx ≠ s.nodeCnt := by
    rintro k hk e; have := hlt k hk; rw [e] at this; omega
  refine ⟨keys_alloc _ h.keys (by omega), ?_, ?_, ?_, ?_, ?_, ?_, ?_, ?_, ?_⟩
  · rw [hcnt]; simp; omega
  · intro k hk
    rcases List.mem_cons.1 hk with rfl | hk
    · exact ⟨mergedNode x y, by rw [hnode]; simp [keyOf], rfl⟩
    · obtain ⟨r, hr, he⟩ := h.records k (hsub k hk)
      exact ⟨r, by rw [hnode, if_neg (hz k (hsub k hk))]; exact hr, he⟩
  · simp only [List.map_cons, List.nodup_cons]
    refine ⟨?_, hnd⟩
    intro hin
    obtain ⟨k, hk, he⟩ := List.mem_map.1 hin
    exact hz k (hsub k hk) he
  · intro p b c hc
    rw [hcnt]
    rcases (hch p b c).1 hc with ⟨_, ⟨_, rfl⟩ | ⟨_, rfl⟩⟩ | hc
    · omega
    · omega
    · have := h.childWritten _ _ _ hc; omega
  · intro p b c hc
    rcases (hch p b c).1 hc with ⟨rfl, ⟨_, rfl⟩ | ⟨_, rfl⟩⟩ | hc
    · exact BitVec.lt_def.2 hx
    · exact BitVec.lt_def.2 hy
    · exact h.below _ _ _ hc
  · intro k hk p b hc
    rcases List.mem_cons.1 hk with rfl | hk
    · rcases (hch p b _).1 hc with ⟨_, ⟨_, e⟩ | ⟨_, e⟩⟩ | hc
      · exact hz x ((hmem x).2 (.inl rfl)) e.symm
      · exact hz y ((hmem y).2 (.inr (.inl rfl))) e.symm
      · have := h.childWritten _ _ _ hc; simp [keyOf] at this
    · rcases (hch p b _).1 hc with ⟨_, ⟨_, e⟩ | ⟨_, e⟩⟩ | hc
      · exact (hq2 k hk).1 e
      · exact (hq2 k hk).2 e
      · exact h.rootless k (hsub k hk) p b hc
  · intro c hc hq
    rw [hcnt] at hc
    have hcz : c ≠ s.nodeCnt := fun e => hq _ (List.mem_cons_self) (by simpa [keyOf] using e.symm)
    have hcz' : c.toNat ≠ s.nodeCnt.toNat := fun e => hcz (BitVec.eq_of_toNat_eq e)
    by_cases hcx : c = x.idx
    · subst hcx
      refine ⟨s.nodeCnt, .left, (hch _ _ _).2 (.inl ⟨rfl, .inl ⟨rfl, rfl⟩⟩), ?_⟩
      intro p' b' hc'
      rcases (hch _ _ _).1 hc' with ⟨e1, ⟨e2, _⟩ | ⟨_, e⟩⟩ | hc'
      · exact ⟨e1, e2⟩
      · exact absurd e hxy
      · exact absurd hc' (h.rootless x ((hmem x).2 (.inl rfl)) _ _)
    · by_cases hcy : c = y.idx
      · subst hcy
        refine ⟨s.nodeCnt, .right, (hch _ _ _).2 (.inl ⟨rfl, .inr ⟨rfl, rfl⟩⟩), ?_⟩
        intro p' b' hc'
        rcases (hch _ _ _).1 hc' with ⟨e1, ⟨_, e⟩ | ⟨e2, _⟩⟩ | hc'
        · exact absurd e.symm hxy
        · exact ⟨e1, e2⟩
        · exact absurd hc' (h.rootless y ((hmem y).2 (.inr (.inl rfl))) _ _)
      · obtain ⟨p, b, hp, hu⟩ := h.oneParent c (by omega) (by
          intro k hk
          rcases (hmem k).1 hk with rfl | rfl | hk
          · exact fun e => hcx e.symm
          · exact fun e => hcy e.symm
          · exact hq k (List.mem_cons_of_mem _ hk))
        refine ⟨p, b, (hch _ _ _).2 (.inr hp), ?_⟩
        intro p' b' hc'
        rcases (hch _ _ _).1 hc' with ⟨_, ⟨_, e⟩ | ⟨_, e⟩⟩ | hc'
        · exact absurd e hcx
        · exact absurd e hcy
        · exact hu _ _ hc'
  · intro i r hr hs
    rw [hnode] at hr
    split at hr
    · cases hr; exact absurd rfl hs
    · exact h.symbolOnLeaf i r hr hs
  · intro i r hr hs
    rw [hnode] at hr
    split at hr
    · cases hr
      exact not_leaf_of_child (b := .left) (ne_NIL_of_lt (by show x.idx.toNat < 1023; omega))
    · exact h.inner i r hr hs

/-- A forest of one root is a tree. -/
theorem Forest.tree {s : State} {x : Key} (h : Forest s [x]) :
    TreeInv { s with root := x.idx } ∧ ChildrenBelow { s with root := x.idx } := by
  have hch : ∀ p b c, ChildOf { s with root := x.idx } p b c ↔ ChildOf s p b c := fun p b c => Iff.rfl
  obtain ⟨r, hr, _⟩ := h.records x (by simp)
  have hlt := nodeAt_lt hr
  have hroom := h.room
  simp only [List.length_singleton] at hroom
  have hbelow : ChildrenBelow { s with root := x.idx } := h.below
  refine ⟨⟨?_, fun _ => hlt, h.childWritten, ?_, h.rootless x (by simp), .inl hbelow, h.symbolOnLeaf, ?_⟩, hbelow⟩
  · constructor
    · intro e; exact absurd e (ne_NIL_of_lt (by show x.idx.toNat < 1023; omega))
    · intro e
      have : s.nodeCnt = 0 := e
      rw [this] at hlt; simp at hlt
  · intro c hc hne
    exact h.oneParent c hc (by simpa using fun e => hne e.symm)
  · intro i x hx hs hl
    have := h.inner i x hx hs
    simp [this] at hl

theorem mem_leafKeys {l : List (Byte × Word)} {k : Key} :
    k ∈ leafKeys l ↔ ∃ (j : Nat) (h : j < l.length), k = keyOf (BitVec.ofNat 10 j) (leafNode l[j].1 l[j].2) := by
  unfold leafKeys
  rw [List.mem_map]
  constructor
  · rintro ⟨⟨p, j⟩, hp, rfl⟩
    have := List.mem_zipIdx' hp
    exact ⟨j, this.1, by simp [this.2]⟩
  · rintro ⟨j, h, rfl⟩
    exact ⟨(l[j], j), by simp [List.mem_zipIdx_iff_getElem?, h], rfl⟩

theorem leafKeys_idx (l : List (Byte × Word)) : (leafKeys l).map Key.idx = (List.range l.length).map (BitVec.ofNat 10) := by
  unfold leafKeys
  apply List.ext_getElem
  · simp
  · intro i h1 h2; simp [keyOf]

/-- The leaves are a forest in which each is a root. -/
theorem Forest.leaves {l : List (Byte × Word)} {s : State} (hn : s.node = []) (hc : s.nodeCnt = 0) (hl : l.length ≤ 256) :
    Forest (allocLeaves l s) (leafKeys l) := by
  have hc0 : s.nodeCnt.toNat = 0 := by simp [hc]
  have hcnt := allocLeaves_count l s (by omega)
  have hnode := nodeAt_allocLeaves l s (by omega)
  have hrec : ∀ i r, nodeAt (allocLeaves l s) i = some r → ∃ b w, r = leafNode b w := by
    intro i r hr
    rw [hnode, if_neg (by omega)] at hr
    cases hg : l[i.toNat - s.nodeCnt.toNat]? with
    | none => rw [hg] at hr; simp at hr
    | some p => rw [hg] at hr; exact ⟨p.1, p.2, by simpa using hr.symm⟩
  have hch : ∀ p b c, ¬ ChildOf (allocLeaves l s) p b c := by
    rintro p b c ⟨hne, r, hr, hx⟩
    obtain ⟨b', w, rfl⟩ := hrec p r hr
    exact hne (by simpa using hx.symm)
  refine ⟨keys_allocLeaves l s (by simp [hn, hc0]) (by omega), ?_, ?_, ?_, ?_, ?_, ?_, ?_, ?_, ?_⟩
  · rw [hcnt]; simp [leafKeys]; omega
  · intro k hk
    obtain ⟨j, hj, rfl⟩ := mem_leafKeys.1 hk
    have hjn : (BitVec.ofNat 10 j).toNat = j := by simp; omega
    refine ⟨leafNode l[j].1 l[j].2, ?_, rfl⟩
    show nodeAt _ (BitVec.ofNat 10 j) = _
    rw [hnode, hjn, if_neg (by omega)]
    simp [hc0, hj]
  · rw [leafKeys_idx]
    refine List.Nodup.map_on ?_ List.nodup_range
    intro i hi j hj e
    simp only [List.mem_range] at hi hj
    have := congrArg BitVec.toNat e
    simp at this; omega
  · intro p b c hx; exact absurd hx (hch p b c)
  · intro p b c hx; exact absurd hx (hch p b c)
  · intro k _ p b; exact hch p b _
  · intro c hcl hq
    rw [hcnt] at hcl
    exfalso
    refine hq (keyOf (BitVec.ofNat 10 c.toNat) (leafNode l[c.toNat].1 l[c.toNat].2)) ?_ ?_
    · exact mem_leafKeys.2 ⟨c.toNat, by omega, rfl⟩
    · simp [keyOf]
  · intro i r hr _
    obtain ⟨b, w, rfl⟩ := hrec i r hr
    exact (isLeaf_iff _).2 (by simp)
  · intro i r hr hs
    obtain ⟨b, w, rfl⟩ := hrec i r hr
    simp [leafNode] at hs

theorem mergeLoop_frame (fuel : Nat) (q : List Key) (s : State) :
    mergeLoop fuel q s = { s with node := (mergeLoop fuel q s).node, nodeCnt := (mergeLoop fuel q s).nodeCnt,
                                  root := (mergeLoop fuel q s).root } := by
  induction fuel generalizing q s with
  | zero => rfl
  | succ fuel ih =>
    simp only [mergeLoop]
    split
    · rfl
    · split
      · rfl
      · rw [ih]; rfl

/-- BUILD's tree changes NODE, NODECNT and ROOT only. -/
theorem growTree_frame (l : List (Byte × Word)) (s : State) :
    growTree l s = { s with node := (growTree l s).node, nodeCnt := (growTree l s).nodeCnt, root := (growTree l s).root } := by
  unfold growTree
  split
  · rename_i b w
    show wrapSingle w (allocLeaves [(b, w)] s) = _
    have := allocLeaves_frame [(b, w)] s
    unfold wrapSingle; rw [this]; rfl
  · rw [mergeLoop_frame, allocLeaves_frame]

/-- The tree of one symbol (41_frequency_and_build.md R137). -/
theorem growTree_single (b : Byte) (w : Word) (s : State) (hn : s.node = []) (hc : s.nodeCnt = 0) :
    growTree [(b, w)] s = { s with root := 1, nodeCnt := 2, node := [(0, leafNode b w), (1, ⟨none, w, 0, NIL⟩)] } := by
  simp [growTree, wrapSingle, allocLeaves, alloc, hn, hc, Memory.write]

theorem TreeInv.of_single {s : State} {b : Byte} {w : Word} (hn : s.node = [(0, leafNode b w), (1, ⟨none, w, 0, NIL⟩)])
    (hc : s.nodeCnt = 2) (hr : s.root = 1) : TreeInv s ∧ ChildrenBelow s := by
  have h0 : nodeAt s 0 = some (leafNode b w) := by simp [nodeAt, hn, hc, Memory.read]
  have h1 : nodeAt s 1 = some ⟨none, w, 0, NIL⟩ := by simp [nodeAt, hn, hc, Memory.read]
  have hnode : ∀ i r, nodeAt s i = some r → (i = 0 ∧ r = leafNode b w) ∨ (i = 1 ∧ r = ⟨none, w, 0, NIL⟩) := by
    intro i r h
    have hlt := nodeAt_lt h
    rw [hc] at hlt
    have : i.toNat = 0 ∨ i.toNat = 1 := by simp at hlt; omega
    rcases this with e | e
    · have hi : i = 0 := BitVec.eq_of_toNat_eq (by simpa using e)
      subst hi; rw [h0] at h; cases h; exact .inl ⟨rfl, rfl⟩
    · have hi : i = 1 := BitVec.eq_of_toNat_eq (by simpa using e)
      subst hi; rw [h1] at h; cases h; exact .inr ⟨rfl, rfl⟩
  have hch : ∀ p x c, ChildOf s p x c ↔ p = 1 ∧ x = .left ∧ c = 0 := by
    intro p x c
    constructor
    · rintro ⟨hne, r, h, hx⟩
      rcases hnode p r h with ⟨_, rfl⟩ | ⟨rfl, rfl⟩
      · exact absurd (by simpa using hx.symm) hne
      · cases x
        · exact ⟨rfl, rfl, hx.symm⟩
        · exact absurd hx.symm hne
    · rintro ⟨rfl, rfl, rfl⟩
      exact ⟨by decide, _, h1, rfl⟩
  have hbelow : ChildrenBelow s := by
    intro p x c h
    obtain ⟨rfl, _, rfl⟩ := (hch p x c).1 h
    decide
  refine ⟨⟨?_, ?_, ?_, ?_, ?_, .inl hbelow, ?_, ?_⟩, hbelow⟩
  · rw [hr, hc]; decide
  · intro _; rw [hr, hc]; decide
  · intro p x c h
    obtain ⟨_, _, rfl⟩ := (hch p x c).1 h
    rw [hc]; decide
  · intro c hcl hne
    rw [hc] at hcl
    have : c.toNat = 0 ∨ c.toNat = 1 := by simp at hcl; omega
    rcases this with e | e
    · have hi : c = 0 := BitVec.eq_of_toNat_eq (by simpa using e)
      subst hi
      refine ⟨1, .left, (hch _ _ _).2 ⟨rfl, rfl, rfl⟩, ?_⟩
      intro p' x' h; exact ⟨((hch _ _ _).1 h).1, ((hch _ _ _).1 h).2.1⟩
    · exact absurd (BitVec.eq_of_toNat_eq (by rw [hr]; simpa using e)) hne
  · intro p x h
    rw [hr] at h
    exact absurd ((hch _ _ _).1 h).2.2 (by decide)
  · intro i r h hs
    rcases hnode i r h with ⟨_, rfl⟩ | ⟨_, rfl⟩
    · exact (isLeaf_iff _).2 (by simp)
    · exact absurd rfl hs
  · intro i r h hs hl
    rcases hnode i r h with ⟨_, rfl⟩ | ⟨_, rfl⟩
    · simp [leafNode] at hs
    · exact absurd ((isLeaf_iff _).1 hl .left) (show (0 : Idx) ≠ NIL by decide)

/-- The loop over two or more leaves, with any further invariant of the arena and Q carried to the end. -/
theorem growTree_forest (I : State → List Key → Prop) {l : List (Byte × Word)} {s : State} (hn : s.node = [])
    (hc : s.nodeCnt = 0) (hl : l.length ≤ 256) (h2 : 2 ≤ l.length) (start : I (allocLeaves l s) (leafKeys l))
    (merge : ∀ s q x q1 y q2, Forest s q → I s q → popLeast q = some (x, q1) → popLeast q1 = some (y, q2) →
      I (alloc (mergedNode x y) s) (keyOf s.nodeCnt (mergedNode x y) :: q2)) :
    ∃ s' x, Forest s' [x] ∧ I s' [x] ∧ growTree l s = { s' with root := x.idx } := by
  have hlen : (leafKeys l).length = l.length := by simp [leafKeys]
  obtain ⟨s', x, ⟨hf, hI⟩, he⟩ := mergeLoop_induct (fun s q => Forest s q ∧ I s q)
    (fun s q x q1 y q2 h h1 h2 => ⟨h.1.merge h1 h2, merge s q x q1 y q2 h.1 h.2 h1 h2⟩)
    l.length (leafKeys l) (allocLeaves l s) ⟨Forest.leaves hn hc hl, start⟩ (by intro e; rw [e] at hlen; simp at hlen; omega)
    (by omega)
  refine ⟨s', x, hf, hI, ?_⟩
  rw [← he]
  unfold growTree
  split
  · simp at h2
  · rfl

/-- BUILD's tree satisfies the invariant, its children below their parents. -/
theorem growTree_tree {l : List (Byte × Word)} {s : State} (hn : s.node = []) (hc : s.nodeCnt = 0) (hl : l.length ≤ 256)
    (h1 : l ≠ []) :
    TreeInv (growTree l s) ∧ ChildrenBelow (growTree l s) ∧
      (growTree l s).node.map Prod.fst = List.range (growTree l s).nodeCnt.toNat ∧
      (growTree l s).nodeCnt.toNat ≤ 512 ∧ (growTree l s).root ≠ NIL := by
  by_cases h2 : 2 ≤ l.length
  · obtain ⟨s', x, hf, _, he⟩ := growTree_forest (fun _ _ => True) hn hc hl h2 trivial (fun _ _ _ _ _ _ _ _ _ _ => trivial)
    rw [he]
    have hroom := hf.room
    obtain ⟨r, hr, _⟩ := hf.records x (by simp)
    have hlt := nodeAt_lt hr
    exact ⟨hf.tree.1, hf.tree.2, hf.keys, by
      show s'.nodeCnt.toNat ≤ 512; omega, ne_NIL_of_lt (by show x.idx.toNat < 1023; omega)⟩
  · obtain ⟨⟨b, w⟩, rfl⟩ : ∃ p, l = [p] := by
      cases l with
      | nil => exact absurd rfl h1
      | cons p l =>
        simp at h2
        exact ⟨p, by simp [h2]⟩
    rw [growTree_single b w s hn hc]
    have := TreeInv.of_single (s := { s with root := 1, nodeCnt := 2, node := [(0, leafNode b w), (1, ⟨none, w, 0, NIL⟩)] })
      rfl rfl rfl
    exact ⟨this.1, this.2, rfl, by show (2 : Idx).toNat ≤ 512; decide, by show (1 : Idx) ≠ NIL; decide⟩

end Sys2Proof.Machine
end

