-- ==== Sys2Proof/Laws/Invariant.lean ====
section
/-! SUPPORT. The invariants of Safety.lean through the shared operations and the bodies of INSERT, BUILD and DBIT. -/

namespace Sys2Proof.Machine

/-- The invariants of a state in FAULT mode, from its stores, its tree and its bounds. -/
theorem Inv.latched {s : State} (hn : s.node.map Prod.fst = List.range s.nodeCnt.toNat)
    (ho : s.out.map Prod.fst = List.range s.outLen.toNat) (ht : TreeInv s) (hb : s.nodeCnt.toNat ≤ 512)
    (hol : s.outLen.toNat ≤ Config.params.outMax) {e : ErrorName} (he : HardwareError e) (hm : s.mode = .fault)
    (hc : s.errCode = some e) (hcur : s.cur = NIL) (hp : s.pLen = 0) (hpa : s.path = []) : Inv s := by
  refine ⟨⟨hn, ?_, ho⟩, ht, ?_, ⟨hb, ?_, hol⟩, ?_⟩
  · rw [hpa, hp]; rfl
  · refine ⟨?_, ?_, ?_, ?_, fun _ => hcur, fun _ => hp, ?_, ?_, ?_⟩
    · rw [hm]; exact nofun
    · rw [hm]; exact nofun
    · rw [hm]; exact nofun
    · rw [hm]; exact nofun
    · rw [hm, hc]; simp
    · intro h; exact absurd hm h
    · rw [hc]; exact ⟨fun h => he.1 (Option.some.inj h), fun h => he.2 (Option.some.inj h)⟩
  · rw [hp]; exact Nat.zero_le _
  · intro h; rw [hm] at h; exact absurd h nofun

theorem Inv.plainFault {s : State} (h : Inv s) {e : ErrorName} (he : HardwareError e) (info pos : Word) :
    Inv (plainFault s e info pos) :=
  .latched h.stores.nodes h.stores.out (h.tree.congr rfl rfl rfl) h.bounds.nodes h.bounds.out he rfl rfl rfl rfl rfl

theorem Inv.loadFault {s : State} (h : Inv s) {e : ErrorName} (he : HardwareError e) (info pos : Word) :
    Inv (loadFault s e info pos) :=
  .latched rfl h.stores.out (.of_no_nodes rfl rfl) (Nat.zero_le _) h.bounds.out he rfl rfl rfl rfl rfl

theorem Inv.decodeFault {s : State} (h : Inv s) {e : ErrorName} (he : HardwareError e) (info pos : Word) :
    Inv (decodeFault s e info pos) :=
  .latched h.stores.nodes rfl (h.tree.congr rfl rfl rfl) h.bounds.nodes (Nat.zero_le _) he rfl rfl rfl rfl rfl

/-- Fault entry keeps the invariants, in every mode that can raise. -/
theorem Inv.raise {s : State} (h : Inv s) (hm : s.mode ≠ .fault) {e : ErrorName} (he : HardwareError e) (info pos : Word) :
    Inv (raise e info pos s) := by
  cases hs : s.mode with
  | idle => rw [raise_quiet _ _ _ (.inl hs)]; exact h.plainFault he info pos
  | ready => rw [raise_quiet _ _ _ (.inr hs)]; exact h.plainFault he info pos
  | load => rw [raise_load _ _ _ hs]; exact h.loadFault he info pos
  | decode => rw [raise_decode _ _ _ hs]; exact h.decodeFault he info pos
  | fault => exact absurd hs hm

/-- The environment's side is in no invariant. -/
theorem Inv.withHost {s : State} (h : Inv s) (e : HostSide) : Inv { s with host := e } :=
  ⟨⟨h.stores.nodes, h.stores.path, h.stores.out⟩, h.tree.congr rfl rfl rfl,
    ⟨h.modes.idle, h.modes.ready, h.modes.decode, fun x => (h.modes.load x).congr rfl rfl rfl, h.modes.curNil,
      h.modes.pathEmpty, h.modes.latched, h.modes.cleared, h.modes.hardware⟩,
    ⟨h.bounds.nodes, h.bounds.path, h.bounds.out⟩, h.cursor⟩

/-- The invariants of a state outside sessions and faults. -/
theorem Inv.of_quiet {s : State} (hn : s.node.map Prod.fst = List.range s.nodeCnt.toNat)
    (ho : s.out.map Prod.fst = List.range s.outLen.toNat) (ht : TreeInv s) (hb : s.nodeCnt.toNat ≤ 512)
    (hol : s.outLen.toNat ≤ Config.params.outMax)
    (hm : (s.mode = .idle ∧ s.root = NIL) ∨ (s.mode = .ready ∧ s.root ≠ NIL)) (hc : s.errCode = none)
    (hz : s.errInfo = 0 ∧ s.errPos = 0) (hcur : s.cur = NIL) (hp : s.pLen = 0) (hpa : s.path = []) : Inv s := by
  refine ⟨⟨hn, by rw [hpa, hp]; rfl, ho⟩, ht, ?_, ⟨hb, by rw [hp]; exact Nat.zero_le _, hol⟩, ?_⟩
  · rcases hm with ⟨hm, hr⟩ | ⟨hm, hr⟩ <;> constructor <;> simp_all
  · intro h; rcases hm with ⟨hm, _⟩ | ⟨hm, _⟩ <;> rw [hm] at h <;> exact absurd h nofun

/-- What the invariants say outside sessions and faults. -/
theorem Inv.quiet {s : State} (h : Inv s) (hq : Quiet s) :
    s.errCode = none ∧ (s.errInfo = 0 ∧ s.errPos = 0) ∧ s.cur = NIL ∧ s.pLen = 0 ∧ s.path = [] ∧
      ((s.mode = .idle ∧ s.root = NIL) ∨ (s.mode = .ready ∧ s.root ≠ NIL)) := by
  have hnf : s.mode ≠ .fault := by rcases hq with h | h <;> rw [h] <;> exact nofun
  have hnl : s.mode ≠ .load := by rcases hq with h | h <;> rw [h] <;> exact nofun
  have hnd : s.mode ≠ .decode := by rcases hq with h | h <;> rw [h] <;> exact nofun
  have hp := h.modes.pathEmpty hnl
  refine ⟨?_, h.modes.cleared hnf, h.modes.curNil hnd, hp, ?_,
    hq.imp (fun e => ⟨e, h.modes.idle e⟩) (fun e => ⟨e, h.modes.ready e⟩)⟩
  · by_contra hc; exact hnf (h.modes.latched.2 hc)
  · have := h.stores.path
    rw [hp] at this
    simpa using this

/-- The walk of INSERT never stops the model: it ends in a fault of HUFFDEC or at a node. -/
theorem walk_safe {a : Byte} : ∀ (cs : List Byte) (i : Nat) (n : Idx) (s : State), LoadWalk n s →
    (∃ t, walk Config.params a i cs n s = .ended (.next t)) ∨
      ∃ n' s', walk Config.params a i cs n s = .reached n' s' ∧ LoadWalk n' s' := by
  intro cs
  induction cs with
  | nil => intro i n s h; exact .inr ⟨n, s, rfl, h⟩
  | cons c cs ih =>
    intro i n s h
    rw [walk_cons]
    rcases walkStep_cases Config.params a i (walkSide c) n s with
      ⟨e0, e⟩ | ⟨r, hr, ⟨_, _, e⟩ | ⟨h1, h2, e⟩ | ⟨h1, h2, h3, e⟩ | ⟨_, _, _, e⟩ | ⟨hb, e⟩⟩ <;> rw [e]
    · obtain ⟨r, hr⟩ := nodeAt_of_range h.keys h.here
      rw [hr] at e0; exact absurd e0 nofun
    · exact .inl ⟨_, rfl⟩
    · exact ih _ _ _ (h.descend hr h2)
    · exact ih _ _ _ (h.grow hr h1 h2 h3)
    · exact .inl ⟨_, rfl⟩
    · have := h.bound; simp at hb; omega

/-- The tree and the records an accepted INSERT leaves. -/
theorem insert_walk_tree {a : Byte} {s s' : State} {p : List Byte} {n : Idx} {r : Node} (h : Inv s) (hm : s.mode = .load)
    (hw : walk Config.params a 0 p s.root s = .reached n s') (hr : nodeAt s' n = some r) (hl : r.isLeaf = true) :
    let t := clearPath (writeNode n (r.withSym a) s')
    TreeInv t ∧ ChildrenAbove t ∧ t.node.map Prod.fst = List.range t.nodeCnt.toNat ∧ t.nodeCnt.toNat ≤ 512 := by
  have start := LoadWalk.start h.stores.nodes h.tree (h.modes.load hm) h.bounds.nodes
  have hend := walk_induct (P := Config.params) (a := a) LoadWalk
    (fun _ _ _ _ hi h1 _ h3 => hi.descend h1 h3) (fun _ _ _ _ hi h1 h2 h3 h4 => hi.grow h1 h2 h3 h4) p 0 s.root s n s' start hw
  obtain ⟨h1, h2, h3⟩ := hend.mark a hr hl
  exact ⟨h1.congr rfl rfl rfl, h2.congr rfl rfl rfl, h3, hend.bound⟩

/-- The tree and the records an accepted BUILD leaves. -/
theorem build_tree {s s0 : State} (hf : SomeFrequency s) (hn : s0.node = []) (hc : s0.nodeCnt = 0) :
    let t := growTree (presentSymbols s.freq) s0
    TreeInv t ∧ ChildrenBelow t ∧ t.node.map Prod.fst = List.range t.nodeCnt.toNat ∧ t.nodeCnt.toNat ≤ 512 ∧
      t.root ≠ NIL := by
  refine growTree_tree hn hc ?_ ?_
  · rw [presentSymbols_length]; exact symbolCount_le s
  · intro e
    have := presentSymbols_length s
    rw [e] at this
    exact (symbolCount_pos s).2 hf this.symm

/-- What BUILD answers in IDLE and READY: a fault without a tree, or the grown tree. -/
theorem buildBody_cases {P : Config.Params} {s t : State} (h : buildBody P s = .next t) :
    (∃ e info, BodyError e ∧ t = plainFault (discardTree s) e info 0) ∨
      (SomeFrequency s ∧ frequencySum s < 4294967296 ∧
        t = { growTree (presentSymbols s.freq) { discardTree s with mode := .idle } with mode := .ready }) := by
  unfold buildBody at h
  dsimp only at h
  split at h
  · cases h; exact .inl ⟨_, _, by simp [BodyError, HardwareError], (raise_quiet _ _ _ (.inl rfl)).trans rfl⟩
  · rename_i h0
    split at h
    · cases h; exact .inl ⟨_, _, by simp [BodyError, HardwareError], (raise_quiet _ _ _ (.inl rfl)).trans rfl⟩
    · split at h
      · cases h; exact .inl ⟨_, _, by simp [BodyError, HardwareError], (raise_quiet _ _ _ (.inl rfl)).trans rfl⟩
      · rename_i ht
        cases h
        refine .inr ⟨?_, ?_, rfl⟩
        · rw [← symbolCount_pos, ← presentSymbols_length]; exact h0
        · rw [← freqTotal_eq]; omega

/-- No command's own pseudocode raises CommandSequenceError. -/
theorem bodyOf_errCode {i : Instr} {s t : State} (ha : access i s.mode = .run) (h : bodyOf i s = .next t)
    (hs : s.errCode ≠ some .commandSequence) : t.errCode ≠ some .commandSequence := by
  cases i with
  | nop => cases h; exact hs
  | reset => cases h; exact nofun
  | eclr => cases h; split; exacts [nofun, hs]
  | tdrop => cases h; exact hs
  | fclr => cases h; exact hs
  | fadd a imm =>
    simp only [bodyOf, faddBody] at h
    split at h <;> cases h
    · rw [raise_errCode]; decide
    · exact hs
  | build =>
    rcases buildBody_cases h with ⟨e, info, he, rfl⟩ | ⟨_, _, rfl⟩
    · exact fun hc => he.2 (Option.some.inj hc)
    · rw [growTree_frame]; exact hs
  | lbegin => cases h; exact hs
  | ppush a =>
    simp only [bodyOf, ppushBody] at h
    split at h <;> cases h
    · exact hs
    · rw [raise_errCode]; decide
  | insert a =>
    have hm : s.mode = .load := by cases hm : s.mode <;> simp_all [access, accessRow]
    rcases insertBody_cases hm h with ⟨e, info, pos, he, rfl⟩ | ⟨_, _, s', _, _, _, _, hw, _, _, _, rfl⟩
    · exact fun hc => he.2 (Option.some.inj hc)
    · show s'.errCode ≠ _
      rw [walk_frame hw]; exact hs
  | lend => cases h; exact hs
  | dbegin =>
    simp only [bodyOf, dbeginBody] at h
    split at h <;> cases h
    · rw [raise_errCode]; decide
    · exact hs
  | dbit a =>
    have hm : s.mode = .decode := by cases hm : s.mode <;> simp_all [access, accessRow]
    rcases dbitBody_cases hm h with ⟨e, info, he, rfl⟩ | ⟨_, _, _, _, _, _, _, ⟨_, _, rfl⟩ | ⟨_, rfl⟩⟩
    · exact fun hc => he.2 (Option.some.inj hc)
    · exact hs
    · exact hs
  | dend =>
    simp only [bodyOf, dendBody] at h
    split at h <;> cases h
    · rw [raise_errCode]; decide
    · exact hs

end Sys2Proof.Machine
end

