-- ==== Sys2Proof/Laws/PerInstr.lean ====
section
/-! SUPPORT. Statements proved command by command. -/

namespace Sys2Proof.Laws.EncodesItsRow

/-- The word of a command is its row's: `(encode i & mask) = match` (30_encoding.md R83). -/
def Statement (i : Instr) : Prop := encode i &&& rowMask i = rowMatch i

theorem nop : Statement .nop := by unfold Statement; decide
theorem reset : Statement .reset := by unfold Statement; decide
theorem eclr : Statement .eclr := by unfold Statement; decide
theorem tdrop : Statement .tdrop := by unfold Statement; decide
theorem fclr : Statement .fclr := by unfold Statement; decide
theorem fadd (a : Byte) (imm : Imm) : Statement (.fadd a imm) := by
  have ha := a.isLt
  have hi := imm.isLt
  refine BitVec.eq_of_toNat_eq ?_
  show (formatSI 0x5 a imm &&& maskSI).toNat = _
  rw [and_maskSI_toNat, formatSI_toNat]
  simp [rowMatch]; omega
theorem build : Statement .build := by unfold Statement; decide
theorem lbegin : Statement .lbegin := by unfold Statement; decide

theorem format_s (op : BitVec 4) (a : Byte) : (formatS op a &&& maskS).toNat = op.toNat * 268435456 := by
  have ha := a.isLt
  rw [and_maskS_toNat, formatS_toNat]; omega

theorem ppush (a : Byte) : Statement (.ppush a) := BitVec.eq_of_toNat_eq (format_s 0x8 a)
theorem insert (a : Byte) : Statement (.insert a) := BitVec.eq_of_toNat_eq (format_s 0x9 a)
theorem lend : Statement .lend := by unfold Statement; decide
theorem dbegin : Statement .dbegin := by unfold Statement; decide
theorem dbit (a : Byte) : Statement (.dbit a) := BitVec.eq_of_toNat_eq (format_s 0xC a)
theorem dend : Statement .dend := by unfold Statement; decide

end Sys2Proof.Laws.EncodesItsRow
end

