-- ==== Sys2Proof/Laws/ReadPort.lean ====
section
/-! SUPPORT. The read map by its windows (10_state.md R40). -/

namespace Sys2Proof.Machine

/-- Behind the single words the read port shows the stores. -/
theorem readPort_stores (P : Config.Params) (s : State) {ra : Word} (h : 14 ≤ ra.toNat) :
    readPort P s ra = readStores P s ra.toNat := by
  unfold readPort
  have : readRegister P s ra.toNat = none := by
    generalize ra.toNat = n at h
    unfold readRegister
    split <;> first | rfl | omega
  rw [this]

variable {P : Config.Params} (s : State) (hP : P.ok)
include hP

theorem readStores_path {i : Nat} (h : i < P.pathMax) : readStores P s (0x200 + i) = entryAnswer zext32 (pathAt s i) := by
  obtain ⟨_, _, _, _, _, _⟩ := hP
  rw [readStores, if_neg (by omega), if_pos (by omega), Nat.add_sub_cancel_left]

theorem readStores_node {i : Nat} (h : i < P.nodeN) :
    readStores P s (0x400 + 2 * i) = entryAnswer nodeLowWord (nodeAt s (BitVec.ofNat 10 i)) ∧
      readStores P s (0x401 + 2 * i) = entryAnswer Node.weight (nodeAt s (BitVec.ofNat 10 i)) := by
  obtain ⟨_, _, _, _, _, _⟩ := hP
  constructor
  · rw [readStores, if_neg (by omega), if_neg (by omega), if_pos (by omega)]
    rw [show (0x400 + 2 * i - 0x400) / 2 = i by omega, show (0x400 + 2 * i - 0x400) % 2 = 0 by omega]
    cases nodeAt s (BitVec.ofNat 10 i) <;> rfl
  · rw [readStores, if_neg (by omega), if_neg (by omega), if_pos (by omega)]
    rw [show (0x401 + 2 * i - 0x400) / 2 = i by omega, show (0x401 + 2 * i - 0x400) % 2 = 1 by omega]
    cases nodeAt s (BitVec.ofNat 10 i) <;> rfl

theorem readStores_out {k : Nat} (h : k < P.outMax) : readStores P s (0x10000 + k) = entryAnswer zext32 (outAt s k) := by
  obtain ⟨_, _, _, _, _, _⟩ := hP
  rw [readStores, if_neg (by omega), if_neg (by omega), if_neg (by omega), if_pos (by omega), Nat.add_sub_cancel_left]

end Sys2Proof.Machine
end

