-- ==== Sys2Proof/Tests/Slice0.lean ====
section
/-! SUPPORT. Tests: ill-formed lines, words of every command, one step per command, and a witness for every statement
that has hypotheses. Expected results are the vectors of spec 95_test_vectors.md, named in each comment. -/

namespace Sys2Proof.Tests

open Sys2Proof.Machine

/-! ### WellFormed refuses ill-formed lines (30_encoding.md R88, R89) -/

theorem test_wf_plain : Asm.assemble (.plain (.dbit 0x30)) = none ∧ Asm.assemble (.plain (.fadd 0 0)) = none ∧
    Asm.assemble (.plain (.ppush 0)) = none ∧ Asm.assemble (.plain (.insert 0)) = none := by decide
theorem test_wf_fadd_sym : Asm.assemble (.fadd 256 1) = none := by decide
theorem test_wf_fadd_imm : Asm.assemble (.fadd 0x61 65536) = none := by decide
theorem test_wf_ppush : Asm.assemble (.ppush 256) = none := by decide
theorem test_wf_insert : Asm.assemble (.insert 256) = none := by decide
theorem test_wf_dbit : Asm.assemble (.dbit 256) = none := by decide
theorem test_wf_count : Asm.assemble (.count 256) = none := by decide
theorem test_wf_counts : Asm.assemble (.counts [0x61, 256]) = none := by decide
theorem test_wf_fset32 : Asm.assemble (.fset32 256 1) = none ∧ Asm.assemble (.fset32 0 4294967296) = none := by decide
theorem test_wf_pstr : Asm.assemble (.pstr [0x30, 256]) = none := by decide
theorem test_wf_code : Asm.assemble (.code 256 [0x30]) = none ∧ Asm.assemble (.code 0x61 [256]) = none := by decide
theorem test_wf_dstr : Asm.assemble (.dstr [256]) = none := by decide
theorem test_wf_decode : Asm.assemble (.decode [0x30, 256]) = none := by decide

/-- R89: `FSET32 0x61, 131071` is FADD 65535 twice, then FADD 1; `CODE` ends with INSERT. -/
theorem test_expand : Asm.assemble (.fset32 0x61 131071) = some [.fadd 0x61 65535, .fadd 0x61 65535, .fadd 0x61 1] ∧
    Asm.assemble (.code 0x62 [0x30, 0x31]) = some [.ppush 0x30, .ppush 0x31, .insert 0x62] := by decide

/-! ### Words written out from the formats of R81 decode to their commands (V43) -/

theorem test_decode_nop : decode 0x00000000 = .instr .nop := by decide
theorem test_decode_reset : decode 0x10000000 = .instr .reset := by decide
theorem test_decode_eclr : decode 0x20000000 = .instr .eclr := by decide
theorem test_decode_tdrop : decode 0x30000000 = .instr .tdrop := by decide
theorem test_decode_fclr : decode 0x40000000 = .instr .fclr := by decide
theorem test_decode_fadd : decode 0b0101_0000_01100110_0000000000101101 = .instr (.fadd 0x66 45) ∧
    decode 0x50FFFFFF = .instr (.fadd 0xFF 65535) := by decide
theorem test_decode_build : decode 0x60000000 = .instr .build := by decide
theorem test_decode_lbegin : decode 0x70000000 = .instr .lbegin := by decide
theorem test_decode_ppush : decode 0b1000_0000_01111000_0000000000000000 = .instr (.ppush 0x78) := by decide
theorem test_decode_insert : decode 0b1001_0000_01100001_0000000000000000 = .instr (.insert 0x61) := by decide
theorem test_decode_lend : decode 0xA0000000 = .instr .lend := by decide
theorem test_decode_dbegin : decode 0xB0000000 = .instr .dbegin := by decide
theorem test_decode_dbit : decode 0b1100_0000_00110001_0000000000000000 = .instr (.dbit 0x31) ∧
    decode 0xC0000000 = .instr (.dbit 0) := by decide
theorem test_decode_dend : decode 0xD0000000 = .instr .dend := by decide
/-- V37, V38, V43: the illegal words. -/
theorem test_decode_illegal : decode 0xE0000000 = .illegal .reservedOp ∧ decode 0xF0000000 = .illegal .reservedOp ∧
    decode 0xFFFFFFFF = .illegal .reservedOp ∧ decode 0xC0310001 = .illegal .nonzeroField ∧
    decode 0x60000001 = .illegal .nonzeroField ∧ decode 0x51610005 = .illegal .nonzeroField ∧
    decode 0x88300000 = .illegal .nonzeroField := by decide
theorem test_table_word : decodeTableWord 32 0x5066002D = some (.fadd 0x66 45) ∧ decodeTableWord 32 0xE0000000 = none := by
  decide

/-! ### Small states -/

/-- The result is a next state with the property. -/
def holdsAfter (r : Result) (p : State → Bool) : Bool :=
  match r with
  | .next t => p t
  | .fault _ => false
  | .refused _ => false

theorem holdsAfter_iff {r : Result} {p : State → Bool} : holdsAfter r p = true ↔ ∃ t, r = .next t ∧ p t = true := by
  cases r <;> simp [holdsAfter]

/-- A table with up to three counts, the rest 0. -/
def table (l : List (Byte × Word)) : Vector Word 256 :=
  l.foldl (fun f p => f.set p.1.toNat p.2 p.1.isLt) clearFreq

/-- Reset state with a frequency table. -/
def counted (l : List (Byte × Word)) : State := { State.reset with freq := table l }

/-- The state after LBEGIN from reset (V22). -/
def loading : State := { State.reset with mode := .load, root := 0, nodeCnt := 1, node := [(0, emptyNode)] }

/-- LOAD mode with a path pushed. -/
def pushed (s : State) (p : List Byte) : State :=
  { s with pLen := BitVec.ofNat 8 p.length, path := p.zipIdx.map (fun x => (x.2, x.1)) }

/-- The session of V18 after its first record, {a:"0"}. -/
def loadedA : State :=
  { loading with nodeCnt := 2, node := [(0, ⟨none, 0, 1, NIL⟩), (1, ⟨some 0x61, 0, NIL, NIL⟩)] }

/-- The tree of V3: ROOT 4; c "0", a "10", b "11". -/
def nodes3 : Memory Node :=
  [(0, ⟨some 0x61, 1, NIL, NIL⟩), (1, ⟨some 0x62, 1, NIL, NIL⟩), (2, ⟨some 0x63, 2, NIL, NIL⟩), (3, ⟨none, 2, 0, 1⟩),
    (4, ⟨none, 4, 2, 3⟩)]

/-- READY with the tree of V3. -/
def ready3 : State := { State.reset with mode := .ready, root := 4, nodeCnt := 5, node := nodes3 }

/-- A decode session over the tree of V3 at a position. -/
def decoding3 (cur : Idx) : State := { ready3 with mode := .decode, cur := cur }

/-- A latched EmptyInputError (V7). -/
def faulted : State := { State.reset with mode := .fault, errCode := some .emptyInput }

/-- A state whose OUT is full, in a decode session at the root of V3's tree. -/
def full3 : State := { decoding3 4 with outLen := BitVec.ofNat 23 Config.params.outMax }

/-- The state with the host's queue. -/
def asked (s : State) (q : List HostEvent) : State := { s with host := { s.host with pending := q } }

/-! ### One step per command -/

/-- V34: NOP in a session. -/
theorem test_nop : holdsAfter (exec .nop (decoding3 3)) (fun t => t.mode = .decode && t.cur = 3) = true := by decide
/-- V40: RESET leaves FAULT mode. -/
theorem test_reset : holdsAfter (exec .reset faulted) (fun t => t.mode = .idle && t.errCode = none) = true := by decide
/-- V42: ECLR with no tree; V34: in a session it changes nothing. -/
theorem test_eclr : holdsAfter (exec .eclr faulted) (fun t => t.mode = .idle && t.errCode = none) = true ∧
    holdsAfter (exec .eclr (decoding3 3)) (fun t => t.mode = .decode) = true := by decide
/-- R112: ECLR with a tree goes to READY. -/
theorem test_eclr_tree : holdsAfter (exec .eclr { ready3 with mode := .fault, errCode := some .invalidBit })
    (fun t => t.mode = .ready) = true := by decide
/-- V41: TDROP keeps the result. -/
theorem test_tdrop : holdsAfter (exec .tdrop { ready3 with outLen := 1, outValid := true, out := [(0, 0x63)] })
    (fun t => t.mode = .idle && t.root = NIL && t.nodeCnt = 0 && t.outLen = 1 && statusWord t = 0x10) = true := by decide
/-- V12: FCLR. -/
theorem test_fclr : holdsAfter (exec .fclr (counted [(0x61, 7)])) (fun t => freqAt t 0x61 = 0) = true := by
  decide +kernel
/-- V1: the first FADD; V8: overflow. -/
theorem test_fadd : holdsAfter (exec (.fadd 0x61 5) State.reset) (fun t => freqAt t 0x61 = 5 && freqAt t 0x62 = 0) = true := by
  decide +kernel
theorem test_fadd_overflow : holdsAfter (exec (.fadd 0x41 1) (counted [(0x41, 0xFFFFFFFF)]))
    (fun t => t.errCode = some .weightOverflow && t.errInfo = 0x41 && freqAt t 0x41 = 0xFFFFFFFF) = true := by
  decide +kernel
/-- V3: BUILD. -/
theorem test_build : holdsAfter (exec .build (counted [(0x61, 1), (0x62, 1), (0x63, 2)]))
    (fun t => t.mode = .ready && t.root = 4 && t.nodeCnt = 5 && t.node = nodes3) = true := by decide +kernel
/-- V10: BUILD with NODE_N = 4. -/
theorem test_build_full : holdsAfter (buildBody { nodeN := 4, outMax := 1 } (counted [(0x61, 1), (0x62, 1), (0x63, 1)]))
    (fun t => t.errCode = some .nodeMemoryFull && t.errInfo = 0x100 && t.root = NIL) = true := by decide +kernel
/-- V22: LBEGIN. -/
theorem test_lbegin : holdsAfter (exec .lbegin ready3)
    (fun t => t.mode = .load && t.root = 0 && t.nodeCnt = 1 && t.node = [(0, emptyNode)]) = true := by decide
/-- V23: PPUSH, and with PATH_MAX = 2 its overflow. -/
theorem test_ppush : holdsAfter (exec (.ppush 0x31) (pushed loading [0x30])) (fun t => t.pLen = 2 && pathAt t 1 = some 0x31) = true := by
  decide
theorem test_ppush_full : holdsAfter (ppushBody { pathMax := 2, outMax := 1 } 0x30 (pushed loading [0x30, 0x31]))
    (fun t => t.errCode = some .pathOverflow && t.errInfo = 0x30 && t.errPos = 2 && t.root = NIL && t.pLen = 0) = true := by
  decide
/-- V26: one record; V18: a prefix conflict with the first record. -/
theorem test_insert : holdsAfter (exec (.insert 0x61) (pushed loading [0x30]))
    (fun t => t.node = loadedA.node && t.nodeCnt = 2 && t.pLen = 0) = true := by decide
theorem test_insert_conflict : holdsAfter (exec (.insert 0x62) (pushed loadedA [0x30, 0x31]))
    (fun t => t.errCode = some .prefixConflict && t.errInfo = 0x6162 && t.errPos = 1 && t.root = NIL) = true := by decide
/-- V26: LEND drops the characters pushed. -/
theorem test_lend : holdsAfter (exec .lend (pushed loadedA [0x31])) (fun t => t.mode = .ready && t.pLen = 0 && t.nodeCnt = 2) = true := by
  decide
/-- V29: DBEGIN with no tree; V33: with one. -/
theorem test_dbegin : holdsAfter (exec .dbegin State.reset) (fun t => t.errCode = some .emptyTree && statusWord t = 0x44) = true ∧
    holdsAfter (exec .dbegin ready3) (fun t => t.mode = .decode && t.cur = 4 && t.outLen = 0) = true := by decide
/-- V27: from the root of V3's tree '0' emits c, '1' descends. -/
theorem test_dbit : holdsAfter (dbitBody { outMax := 2 } 0x30 (decoding3 4))
      (fun t => t.cur = 4 && t.outLen = 1 && outAt t 0 = some 0x63 && t.bitPos = 1) = true ∧
    holdsAfter (exec (.dbit 0x31) (decoding3 4)) (fun t => t.cur = 3 && t.outLen = 0 && t.bitPos = 1) = true := by decide
/-- V32: OUT full at OUT_MAX = 2. -/
theorem test_dbit_full : holdsAfter (dbitBody { outMax := 2 } 0x30 { decoding3 4 with outLen := 2, bitPos := 2 })
    (fun t => t.errCode = some .outputOverflow && t.errInfo = 0x63 && t.errPos = 2 && t.outLen = 0) = true := by decide
/-- V35: DEND at the root; V27: in the middle of a code. -/
theorem test_dend : holdsAfter (exec .dend (decoding3 4)) (fun t => t.outValid && statusWord t = 0x1A) = true ∧
    holdsAfter (exec .dend { decoding3 3 with bitPos := 2, outLen := 1, out := [(0, 0x63)] })
      (fun t => t.errCode = some .incompleteSequence && t.errInfo = 3 && t.errPos = 2 && t.outLen = 0 && statusWord t = 0x4C) = true := by
  decide
/-- V36, V37: a command out of mode, and a reserved op. -/
theorem test_word_faults : holdsAfter (step (State.reset.withFetchWord 32 0xC0300000))
      (fun t => t.errCode = some .commandSequence && t.errInfo = 0xC0300000) = true ∧
    holdsAfter (step (State.reset.withFetchWord 32 0xE0000000))
      (fun t => t.errCode = some .illegalCommand && t.errInfo = 0xE0000000) = true := by decide
/-- V44: STATUS, NODE low and high word, an unwritten and an unmapped address. -/
theorem test_read : readPort { outMax := 4096 } ready3 0x408 = .word 0x00300900 ∧
    readPort { outMax := 4096 } ready3 0x409 = .word 4 ∧ readPort { outMax := 4096 } ready3 0x40A = .unwritten ∧
    readPort { outMax := 4096 } ready3 0x20000 = .word 0 ∧ readPort { outMax := 4096 } ready3 0 = .word 0x48554631 := by
  decide
/-- V45, R139: codes of V3's tree; encode; V46: an unknown symbol. -/
theorem test_reference : generateCodes ready3 = .map [(0x63, [0x30]), (0x61, [0x31, 0x30]), (0x62, [0x31, 0x31])] ∧
    encodeBytes [0x63, 0x61] [(0x63, [0x30]), (0x61, [0x31, 0x30])] = .bits [0x30, 0x31, 0x30] ∧
    encodeBytes [0x61, 0x78] [(0x61, [0x30])] = .unknownSymbol 0x78 1 := by decide

/-! ### States that have the invariants -/

theorem loading_inv : Inv loading := by
  have ht := TreeInv.of_empty_root (s := loading) rfl rfl rfl
  refine ⟨⟨rfl, rfl, rfl⟩, ht.1, ?_, ⟨by decide, by decide, Nat.zero_le _⟩, fun h => absurd h (by decide)⟩
  exact ⟨by decide, by decide, by decide, fun _ => ht.2, by decide, by decide, by decide, by decide, by decide⟩

theorem tree3 : TreeInv ready3 ∧ ChildrenBelow ready3 := by
  have h := growTree_tree (l := [(0x61, 1), (0x62, 1), (0x63, 2)]) (s := State.reset) rfl rfl (by decide) (by decide)
  have hn : ready3.node = (growTree [(0x61, 1), (0x62, 1), (0x63, 2)] State.reset).node := by decide
  have hc : ready3.nodeCnt = (growTree [(0x61, 1), (0x62, 1), (0x63, 2)] State.reset).nodeCnt := by decide
  have hr : ready3.root = (growTree [(0x61, 1), (0x62, 1), (0x63, 2)] State.reset).root := by decide
  exact ⟨h.1.congr hn hc hr, h.2.1.congr hn hc⟩

theorem ready3_inv : Inv ready3 := by
  refine ⟨⟨by decide, rfl, rfl⟩, tree3.1, ?_, ⟨by decide, by decide, Nat.zero_le _⟩, fun h => absurd h (by decide)⟩
  exact ⟨by decide, by decide, by decide, fun h => absurd h (by decide), by decide, by decide, by decide, by decide, by decide⟩

theorem decoding3_modes (c : Idx) : ModeInv (decoding3 c) :=
  ⟨fun h => absurd h nofun, fun h => absurd h nofun, fun _ => ⟨by show (4 : Idx) ≠ NIL; decide, rfl⟩, fun h => absurd h nofun,
    fun h => absurd rfl h, fun _ => rfl, ⟨fun h => absurd h nofun, fun h => absurd rfl h⟩, fun _ => ⟨rfl, rfl⟩, ⟨nofun, nofun⟩⟩

theorem decoding3_inv : Inv (decoding3 3) := by
  refine ⟨⟨by decide, rfl, rfl⟩, tree3.1.congr rfl rfl rfl, decoding3_modes 3, ⟨by decide, by decide, Nat.zero_le _⟩, ?_⟩
  intro _ _; exact ⟨⟨none, 2, 0, 1⟩, by decide, by decide, rfl⟩

theorem decoding3_root : Inv (decoding3 4) :=
  ⟨⟨by decide, rfl, rfl⟩, tree3.1.congr rfl rfl rfl, decoding3_modes 4, ⟨by decide, by decide, Nat.zero_le _⟩,
    fun _ h => absurd rfl h⟩

/-- The table of V3. -/
def counts3 : State := counted [(0x61, 1), (0x62, 1), (0x63, 2)]

theorem counts3_some : SomeFrequency counts3 := ⟨0x61, by decide +kernel⟩
theorem counts3_number : symbolCount counts3 = 3 := by decide +kernel
theorem counts3_sum : frequencySum counts3 = 4 := by decide +kernel

/-- A path of one character passes no node but ROOT. -/
theorem openPath_one {s : State} {c : Byte} (h : ∀ r, nodeAt s s.root = some r → r.sym = none) : OpenPath s [c] := by
  intro q hq hne n r hf hr
  rcases List.prefix_cons_iff.1 hq with rfl | ⟨u, rfl, hu⟩
  · cases hf; exact h r hr
  · exact absurd (by rw [List.prefix_nil.1 hu]) hne

theorem openPath_nil (s : State) : OpenPath s [] := fun _ hq hne => absurd (List.prefix_nil.1 hq) hne

/-- The session of V19 after its first record, {a:"01"}. -/
def loadedDeep : State :=
  { loading with nodeCnt := 3, node := [(0, ⟨none, 0, 1, NIL⟩), (1, ⟨none, 0, NIL, 2⟩), (2, ⟨some 0x61, 0, NIL, NIL⟩)] }

/-- An arena with 511 written nodes, all empty: one more fits. -/
def almostFull : State := { loading with nodeCnt := 511, node := (List.range 511).map (fun i => (i, emptyNode)) }

/-! ### A witness for the hypotheses of each statement, clause by clause -/

theorem witness_EveryDecodedWordIsItsEncoding : decode 0x50FFFFFF = .instr (.fadd 0xFF 65535) := by decide
theorem witness_DecodeFollowsTheOpcodeMap : decode 0xC0310000 = .instr (.dbit 0x31) ∧
    (0xC0310000 : Word) &&& rowMask (.dbit 0) = rowMatch (.dbit 0) := by decide
theorem witness_StepRunsTheDecodedCommand : decode 0x60000000 = .instr .build ∧
    (asked ready3 [.cmd 0x60000000]).host.pending = [.cmd 0x60000000] := by decide
theorem witness_IllegalWordFaultsOrIsDropped : decode 0x00000001 = .illegal .nonzeroField ∧ Quiet (asked ready3 [.cmd 1]) ∧
    (asked loading [.cmd 1]).mode = .load ∧ (asked (decoding3 3) [.cmd 1]).mode = .decode ∧
    (asked faulted [.cmd 1]).mode = .fault ∧ (asked faulted [.cmd 1]).host.pending = [.cmd 1] := by decide
theorem witness_RstInputResets : (asked faulted [.rst, .cmd 0]).host.pending = [.rst, .cmd 0] := rfl
theorem witness_HostReadChangesNoState : (asked ready3 [.read 9]).host.pending = [.read 9] ∧
    readPort Config.params (asked ready3 [.read 9]) 9 = .word 0 := ⟨rfl, rfl⟩
theorem witness_ReadPortShowsTheStores : Config.params.ok ∧
    pathAt (pushed loading (List.replicate 255 0x30)) 254 = some 0x30 ∧ 254 < Config.params.pathMax ∧
    nodeAt ready3 4 = some ⟨none, 4, 2, 3⟩ ∧ (4 : Idx).toNat < Config.params.nodeN ∧
    (outAt { ready3 with outLen := 1, out := [(0, 0x63)] } 0 = some 0x63 ∧ 0 < Config.params.outMax) ∧
    ((0x200 + Config.params.pathMax ≤ (0x3FF : Word).toNat ∧ (0x3FF : Word).toNat < 0x400) ∧
      (0x400 + 2 * Config.params.nodeN ≤ (0x800 : Word).toNat ∧ (0x800 : Word).toNat < 0x10000) ∧
      (0x0E ≤ (0xFF : Word).toNat ∧ (0xFF : Word).toNat < 0x100) ∧
      0x10000 + Config.params.outMax ≤ (0xFFFFFFFF : Word).toNat) := by
  refine ⟨params_ok, by decide +kernel, by decide, by decide, by decide, ⟨by decide, outMax_pos⟩, by decide, by decide,
    by decide, ?_⟩
  exact le_trans (Nat.add_le_add_left outMax_le _) (by decide)
theorem witness_UnwrittenEntriesHoldNoValue : Config.params.ok ∧
    (ready3.pLen.toNat ≤ 254 ∧ 254 < Config.params.pathMax) ∧ (ready3.nodeCnt.toNat ≤ 511 ∧ 511 < Config.params.nodeN) ∧
    (ready3.outLen.toNat ≤ 0 ∧ 0 < Config.params.outMax) ∧ readPort Config.params ready3 0x200 = .unwritten :=
  ⟨params_ok, by decide, by decide, ⟨by decide, outMax_pos⟩, by decide⟩
theorem witness_FaultEntryByMode : Quiet ready3 ∧ Quiet State.reset ∧ loading.mode = .load ∧ (decoding3 3).mode = .decode := by
  decide
theorem witness_CommandOutOfModeFaults : Quiet ready3 ∧ loading.mode = .load ∧ (decoding3 3).mode = .decode ∧
    faulted.mode = .fault ∧ (∃ t, exec .tdrop ready3 = .next t) ∧ ready3.errCode ≠ some .commandSequence ∧
    (∃ t, exec .lend loading = .next t) ∧ loading.errCode ≠ some .commandSequence ∧
    (∃ t, exec .dend (decoding3 4) = .next t) ∧ (decoding3 4).errCode ≠ some .commandSequence :=
  ⟨by decide, rfl, rfl, rfl, ⟨_, rfl⟩, by decide, ⟨_, rfl⟩, by decide, ⟨_, rfl⟩, by decide⟩
theorem witness_FaultModeDropsWords : faulted.mode = .fault ∧ (0xE0000000 : Word) ≠ 0x10000000 ∧
    (0xE0000000 : Word) ≠ 0x20000000 := by decide
theorem witness_ModeTransitions : (Inv loading ∧ ∃ t, exec .lend loading = .next t) ∧
    (Inv ready3 ∧ ∃ t, exec .dbegin ready3 = .next t) ∧ ∃ t, exec .dbegin State.reset = .next t :=
  ⟨⟨loading_inv, _, rfl⟩, ⟨ready3_inv, _, rfl⟩, _, rfl⟩
theorem witness_EclrReturnsFromTheFault : faulted.mode = .fault ∧ ready3.mode ≠ .fault ∧
    ∃ t, exec .eclr faulted = .next t := ⟨rfl, by decide, _, rfl⟩
theorem witness_TdropReleasesTheTree : Quiet ready3 := .inr rfl
theorem witness_FclrClearsEveryEntry : Quiet counts3 := .inl rfl
theorem witness_FaddAddsExactlyOrFaults : Quiet (counted [(0x41, 0xFFFFFFFE)]) ∧
    (freqAt (counted [(0x41, 0xFFFFFFFE)]) 0x41).toNat + (1 : Imm).toNat < 4294967296 ∧
    4294967296 ≤ (freqAt (counted [(0x41, 0xFFFFFFFE)]) 0x41).toNat + (2 : Imm).toNat :=
  ⟨.inl rfl, by decide +kernel, by decide +kernel⟩
theorem witness_OnlyFrequencyCommandsChangeFreq : ∃ t, exec .nop ready3 = .next t := ⟨_, rfl⟩
theorem witness_FrequencyCommandsCount : Quiet State.reset ∧ ∀ b, frequencies [0x61, 0x62, 0x61] b < 4294967296 :=
  ⟨.inl rfl, fun _ => lt_of_le_of_lt List.count_le_length (by decide)⟩
theorem witness_BuildFaultsInOrder : Quiet State.reset ∧ symbolCount State.reset = 0 ∧ symbolCount counts3 ≠ 0 ∧
    (Config.Params.mk 4 255 1).nodeN < nodesNeeded (symbolCount counts3) ∧
    symbolCount (counted [(0x41, 0xFFFFFFFF), (0x42, 1)]) ≠ 0 ∧
    4294967296 ≤ frequencySum (counted [(0x41, 0xFFFFFFFF), (0x42, 1)]) :=
  ⟨.inl rfl, not_not.1 (mt (symbolCount_pos State.reset).1 (by rintro ⟨a, h⟩; simp [freqAt, State.reset] at h)),
    by rw [counts3_number]; decide, by rw [counts3_number]; decide,
    (symbolCount_pos _).2 ⟨0x42, by decide +kernel⟩, by decide +kernel⟩
theorem witness_BuildMakesATree : Quiet counts3 ∧ SomeFrequency counts3 ∧ frequencySum counts3 < 4294967296 :=
  ⟨.inl rfl, counts3_some, by rw [counts3_sum]; decide⟩
theorem witness_BuiltTreeShape : Quiet counts3 ∧ SomeFrequency counts3 ∧ frequencySum counts3 < 4294967296 ∧
    2 ≤ symbolCount counts3 ∧ symbolCount (counted [(0x61, 4)]) = 1 ∧ frequencySum (counted [(0x61, 4)]) < 4294967296 :=
  ⟨.inl rfl, counts3_some, by rw [counts3_sum]; decide, by rw [counts3_number]; decide, by decide +kernel, by decide +kernel⟩
theorem witness_SingleSymbolTree : Quiet (counted [(0x61, 4)]) ∧ freqAt (counted [(0x61, 4)]) 0x61 ≠ 0 ∧
    ∀ b, b ≠ 0x61 → freqAt (counted [(0x61, 4)]) b = 0 := by
  have h : counted [(0x61, 4)] = setFreq State.reset 0x61 4 := rfl
  refine ⟨.inl rfl, by rw [h, freqAt_setFreq]; decide, fun b hb => ?_⟩
  rw [h, freqAt_setFreq, if_neg hb]
  simp [freqAt, State.reset]
theorem witness_ExtractionTakesTheLeastKey :
    popLeast [⟨2, 0x100, 3⟩, ⟨2, 0x63, 2⟩] = some (⟨2, 0x63, 2⟩, [⟨2, 0x100, 3⟩]) ∧
    popLeast [⟨2, 0x100, 3⟩] = some (⟨2, 0x100, 3⟩, []) := by decide
theorem witness_BuiltTreeDependsOnFreqOnly : Quiet State.reset ∧ Quiet ready3 ∧ State.reset.freq = ready3.freq :=
  ⟨.inl rfl, .inr rfl, rfl⟩
theorem witness_LbeginStartsWithAnEmptyRoot : Quiet ready3 := .inr rfl
theorem witness_PpushStoresTheCharacter : loading.mode = .load ∧
    (pushed loading (List.replicate 254 0x30)).pLen.toNat < Config.params.pathMax ∧
    (pushed loading (List.replicate 255 0x30)).pLen.toNat = Config.params.pathMax :=
  ⟨rfl, by decide +kernel, by decide +kernel⟩
theorem witness_InsertRejectsMalformedPaths : loading.mode = .load ∧ loading.pLen = 0 ∧
    1 < (pushed loading [0x31, 0x78]).pLen.toNat ∧ (∀ j, j < 2 → pathAt (pushed loading [0x31, 0x78]) j ≠ none) ∧
    pathAt (pushed loading [0x31, 0x78]) 1 = some 0x78 ∧ pathAt (pushed loading [0x31, 0x78]) 0 = some 0x31 := by decide
/-- V18, V19, and V18's first record with another symbol. -/
theorem witness_InsertConflictsFault :
    (ValidRecord (pushed loadedA [0x30, 0x31]) [0x30, 0x31] ∧ OpenPath (pushed loadedA [0x30, 0x31]) [0x30] ∧
      follow (pushed loadedA [0x30, 0x31]) 0 [0x30] = some 1 ∧
      nodeAt (pushed loadedA [0x30, 0x31]) 1 = some ⟨some 0x61, 0, NIL, NIL⟩) ∧
    (ValidRecord (pushed loadedA [0x30]) [0x30] ∧ OpenPath (pushed loadedA [0x30]) [0x30] ∧
      follow (pushed loadedA [0x30]) 0 [0x30] = some 1) ∧
    (ValidRecord (pushed loadedDeep [0x30]) [0x30] ∧ OpenPath (pushed loadedDeep [0x30]) [0x30] ∧
      follow (pushed loadedDeep [0x30]) 0 [0x30] = some 1 ∧
      nodeAt (pushed loadedDeep [0x30]) 1 = some ⟨none, 0, NIL, 2⟩) := by
  refine ⟨⟨⟨by decide, by decide, by decide⟩, openPath_one ?_, by decide, by decide⟩,
    ⟨⟨by decide, by decide, by decide⟩, openPath_one ?_, by decide⟩,
    ⟨by decide, by decide, by decide⟩, openPath_one ?_, by decide, by decide⟩ <;>
  · intro r h; cases h; rfl
theorem witness_InsertIntoFullArenaFaults : almostFull.mode = .load ∧
    ValidRecord (pushed almostFull [0x30, 0x30]) ([] ++ [0x30, 0x30]) ∧
    LeavesTreeAt (pushed almostFull [0x30, 0x30]) [] [0x30, 0x30] 0 ∧
    almostFull.nodeCnt.toNat ≤ Config.params.nodeN ∧
    Config.params.nodeN < almostFull.nodeCnt.toNat + [(0x30 : Byte), 0x30].length := by
  refine ⟨rfl, ⟨by decide, by decide, by decide⟩, ⟨rfl, openPath_nil _, emptyNode, 0x30, [0x30], .left, rfl, by decide, ?_, rfl, rfl⟩,
    by decide, by decide⟩
  decide +kernel
theorem witness_InsertAddsTheLeaf : ValidRecord (pushed loading [0x30]) ([] ++ [0x30]) ∧
    LeavesTreeAt (pushed loading [0x30]) [] [0x30] 0 ∧
    (pushed loading [0x30]).nodeCnt.toNat + [(0x30 : Byte)].length ≤ Config.params.nodeN :=
  ⟨⟨by decide, by decide, by decide⟩,
    ⟨rfl, openPath_nil _, emptyNode, 0x30, [], .left, rfl, by decide, by decide, rfl, rfl⟩, by decide⟩
theorem witness_InsertAgainChangesNothing : ValidRecord (pushed loadedA [0x30]) [0x30] ∧ OpenPath (pushed loadedA [0x30]) [0x30] ∧
    follow (pushed loadedA [0x30]) 0 [0x30] = some 1 ∧ nodeAt (pushed loadedA [0x30]) 1 = some ⟨some 0x61, 0, NIL, NIL⟩ ∧
    Memory.wf loadedA.node :=
  ⟨⟨by decide, by decide, by decide⟩, openPath_one (by intro r h; cases h; rfl), by decide, by decide, by decide⟩
theorem witness_LendClosesTheSession : loading.mode = .load := rfl
theorem witness_DbeginStartsAtTheRoot : Quiet ready3 ∧ ready3.root ≠ NIL ∧ Quiet State.reset ∧ State.reset.root = NIL := by
  decide
theorem witness_DbitConsumesOneBitSymbol : (decoding3 4).mode = .decode ∧
    (nodeAt (decoding3 4) 4 = some ⟨none, 4, 2, 3⟩ ∧ nodeAt (decoding3 4) 3 = some ⟨none, 2, 0, 1⟩ ∧
      nodeAt (decoding3 4) 2 = some ⟨some 0x63, 2, NIL, NIL⟩ ∧ (decoding3 4).outLen.toNat < Config.params.outMax) ∧
    (nodeAt { decoding3 4 with node := [(0, emptyNode)], nodeCnt := 1, cur := 0 } 0 = some emptyNode) ∧
    (nodeAt full3 full3.cur = some ⟨none, 4, 2, 3⟩ ∧ nodeAt full3 2 = some ⟨some 0x63, 2, NIL, NIL⟩ ∧
      full3.outLen.toNat = Config.params.outMax) := by
  refine ⟨rfl, ⟨by decide, by decide, by decide, outMax_pos⟩, by decide, rfl, rfl, ?_⟩
  have := outMax_le
  simp [full3]; omega
theorem witness_DendCompletesTheSession : (decoding3 4).mode = .decode ∧ (decoding3 4).cur = (decoding3 4).root ∧
    (decoding3 3).cur ≠ (decoding3 3).root := by decide
theorem witness_FinishedOutputStays : ready3.mode ≠ .decode ∧ ∃ t, exec .tdrop ready3 = .next t := ⟨by decide, _, rfl⟩
theorem witness_TreeIsFixedWhileDecoding : (decoding3 4).mode = .decode ∧ ∃ t, exec (.dbit 0x31) (decoding3 4) = .next t :=
  ⟨rfl, _, rfl⟩
theorem witness_InvariantIsKept : Inv (decoding3 3) ∧ Inv loading ∧ Inv ready3 ∧ ∃ t, step (decoding3 3) = .next t :=
  ⟨decoding3_inv, loading_inv, ready3_inv, _, rfl⟩
theorem witness_InvariantMakesStepsSafe : Inv (decoding3 3) := decoding3_inv
theorem witness_BitposNeverWraps : Inv (decoding3 4) ∧ BitposInv (decoding3 4) ∧
    ∃ t, exec (.dbit 0x31) (decoding3 4) = .next t ∧ t.mode = .decode := by
  refine ⟨decoding3_root, ⟨Nat.zero_le _, fun _ => ⟨0, .inl ⟨tree3.2.congr rfl rfl, rfl⟩, Nat.zero_le _⟩⟩, _, rfl, rfl⟩
theorem witness_StoresStayCanonical : Memory.wf ready3.node ∧ Memory.wf ready3.path ∧ Memory.wf ready3.out ∧
    ∃ t, step ready3 = .next t := ⟨by decide, by decide, by decide, _, rfl⟩
theorem witness_EveryNodeIsReachedFromTheRoot : Inv ready3 ∧ (0 : Idx).toNat < ready3.nodeCnt.toNat := ⟨ready3_inv, by decide⟩
/-- One witness for each of the four ends: "0", "0x", a missing child cannot be reached in V3's tree (see `loading` after
LEND), "1". -/
theorem witness_DecodeSessionIsThePureWalk : Inv ready3 ∧ ready3.mode = .ready ∧
    (emittedBy ready3 [0x30] 4).length ≤ Config.params.outMax ∧ decodeBits ready3 [0x30] = .bytes [0x63] ∧
    decodeBits ready3 [0x30, 0x78] = .invalidBit 1 0x78 ∧ decodeBits ready3 [0x31] = .incomplete 1 3 ∧
    decodeBits { loading with mode := .ready } [0x31] = .invalidPath 0 .right :=
  ⟨ready3_inv, rfl, by rw [show (emittedBy ready3 [0x30] 4).length = 1 by decide]; exact outMax_pos, by decide, by decide,
    by decide, by decide⟩
theorem witness_GeneratedCodesArePrefixFree : Inv ready3 ∧
    generateCodes ready3 = .map [(0x63, [0x30]), (0x61, [0x31, 0x30]), (0x62, [0x31, 0x31])] := ⟨ready3_inv, by decide⟩
theorem witness_RoundTrip : [(0x61 : Byte)] ≠ [] ∧ [(0x61 : Byte)].length ≤ Config.params.outMax := ⟨by decide, outMax_pos⟩
/-- The records of V3's code map; they need four nodes beside the root. -/
def records3 : CodeMap := [(0x63, [0x30]), (0x61, [0x31, 0x30]), (0x62, [0x31, 0x31])]
theorem witness_LoadSessionBuildsTheTable : Quiet ready3 ∧ (records3.map Prod.fst).Nodup ∧
    (∀ x ∈ records3, x.2 ≠ [] ∧ x.2.length ≤ Config.params.pathMax ∧ ∀ c ∈ x.2, bitSymbol c ≠ none) ∧
    PrefixFree records3 ∧ 1 + (pathParts records3).length ≤ Config.params.nodeN := ⟨.inr rfl, by decide, by decide, by unfold PrefixFree; decide, by decide⟩
/-- The hypotheses, and that the reloading they lead to completes. -/
theorem witness_ReconstructionEquivalence : Quiet counts3 ∧ ∃ t u, exec .build counts3 = .next t ∧
    generateCodes t = .map records3 ∧ records3.reverse.Perm records3 ∧
    runCommands (loadCommands records3.reverse) t = .next u := by
  have h : holdsAfter (exec .build counts3) (fun t => generateCodes t = .map records3 &&
      holdsAfter (runCommands (loadCommands records3.reverse) t) (fun _ => true)) = true := by decide +kernel
  obtain ⟨t, ht, h⟩ := holdsAfter_iff.1 h
  simp only [Bool.and_eq_true, decide_eq_true_eq] at h
  obtain ⟨u, hu, _⟩ := holdsAfter_iff.1 h.2
  exact ⟨.inl rfl, t, u, ht, h.1, List.reverse_perm _, hu⟩
/-- BUILD's own code of V3, and the worse fixed-length code. -/
theorem witness_BuiltCodeIsOptimal : Quiet counts3 ∧ SomeFrequency counts3 ∧ frequencySum counts3 < 4294967296 ∧
    (∃ t, exec .build counts3 = .next t ∧ generateCodes t = .map records3) ∧
    CodeForFreq counts3 [(0x61, [0x30, 0x30]), (0x62, [0x30, 0x31]), (0x63, [0x31, 0x30])] ∧
    PrefixFree [(0x61, [0x30, 0x30]), (0x62, [0x30, 0x31]), (0x63, [0x31, 0x30])] := by
  refine ⟨.inl rfl, counts3_some, by rw [counts3_sum]; decide, ?_, ⟨by decide, by decide +kernel, by decide⟩,
    by unfold PrefixFree; decide⟩
  obtain ⟨t, _, h, h', _⟩ := witness_ReconstructionEquivalence.2
  exact ⟨t, h, h'⟩

end Sys2Proof.Tests
end

section
/-! PROOF. What a command and a step can answer, said once: the dispatch by mode, the bodies without a case lemma, and
one inversion of `exec` that every invariant and every frame statement below goes through. -/

namespace Sys2Proof.Machine

/-! ### The legality table by its three kinds of row (60_exceptions.md R241) -/

theorem quietRow_run {m : Mode} : accessRow .run .seq .run .seq .drop m = .run ↔ m = .idle ∨ m = .ready := by
  cases m <;> simp [accessRow]

theorem loadRow_run {m : Mode} : accessRow .seq .run .seq .seq .drop m = .run ↔ m = .load := by
  cases m <;> simp [accessRow]

theorem decodeRow_run {m : Mode} : accessRow .seq .seq .seq .run .drop m = .run ↔ m = .decode := by
  cases m <;> simp [accessRow]

/-- Only FAULT mode drops a command (R243). -/
theorem access_drop {i : Instr} {m : Mode} (h : access i m = .drop) : m = .fault := by
  cases m with
  | fault => rfl
  | idle | load | ready | decode => cases i <;> cases h

/-- CommandSequenceError is raised outside FAULT mode only (R243). -/
theorem access_seq {i : Instr} {m : Mode} (h : access i m = .seq) : m ≠ .fault := by
  rintro rfl
  cases i <;> cases h

/-- A command that may not run ends in FAULT mode; any other answers what its pseudocode does. -/
theorem exec_blocked_or_runs {i : Instr} {s t : State} (h : exec i s = .next t) :
    (access i s.mode ≠ .run ∧ t.mode = .fault) ∨ (access i s.mode = .run ∧ bodyOf i s = .next t) := by
  rcases exec_cases h with ⟨ha, rfl⟩ | ⟨ha, rfl⟩ | hrun
  · exact .inl ⟨by simp [ha], access_drop ha⟩
  · exact .inl ⟨by simp [ha], raise_mode _ _ _ _⟩
  · exact .inr hrun

/-- RESET runs in all five modes (R111). -/
theorem exec_reset (s : State) : exec .reset s = .next (resetState s) := by
  rw [exec_run (i := .reset) (by cases s.mode <;> rfl)]
  rfl

/-! ### The bodies of FADD, PPUSH, DBEGIN and DEND -/

theorem faddSum_eq (a : Byte) (imm : Imm) (s : State) : faddSum a imm s = (freqAt s a).toNat + imm.toNat := by
  have := imm.isLt
  simp only [faddSum, zext32, BitVec.toNat_setWidth]
  omega

theorem faddBody_cases {a : Byte} {imm : Imm} {s t : State} (h : faddBody a imm s = .next t) :
    (4294967296 ≤ (freqAt s a).toNat + imm.toNat ∧ t = raise .weightOverflow (zext32 a) 0 s) ∨
      ((freqAt s a).toNat + imm.toNat < 4294967296 ∧
        t = setFreq s a (BitVec.ofNat 32 ((freqAt s a).toNat + imm.toNat))) := by
  unfold faddBody at h
  rw [faddSum_eq] at h
  split at h <;> cases h
  · exact .inl ⟨by assumption, rfl⟩
  · exact .inr ⟨by omega, rfl⟩

theorem ppushBody_cases {P : Config.Params} {a : Byte} {s t : State} (h : ppushBody P a s = .next t) :
    (s.pLen.toNat = P.pathMax ∧ t = raise .pathOverflow (zext32 a) (zext32 s.pLen) s) ∨
      (s.pLen.toNat < P.pathMax ∧ t = pushPath a s) := by
  unfold ppushBody at h
  rcases room_cases s.pLen.toNat P.pathMax with ⟨e, hr⟩ | ⟨e, hr⟩ | ⟨e, hr⟩ <;> rw [e] at h <;> cases h
  · exact .inr ⟨hr, rfl⟩
  · exact .inl ⟨hr, rfl⟩

/-- The state DBEGIN leaves before it looks at ROOT: the earlier result is lost (R171). -/
def restarted (s : State) : State := { clearOutput s with bitPos := 0 }

theorem dbeginBody_cases {s t : State} (h : dbeginBody s = .next t) :
    (s.root = NIL ∧ t = raise .emptyTree 0 0 (restarted s)) ∨
      (s.root ≠ NIL ∧ t = { restarted s with cur := s.root, mode := .decode }) := by
  unfold dbeginBody at h
  dsimp only at h
  split at h <;> cases h
  · exact .inl ⟨by assumption, rfl⟩
  · exact .inr ⟨by assumption, rfl⟩

theorem dendBody_cases {s t : State} (h : dendBody s = .next t) :
    (s.cur ≠ s.root ∧ t = raise .incompleteSequence (zext32 s.cur) s.bitPos s) ∨
      (s.cur = s.root ∧ t = { s with outValid := true, cur := NIL, mode := .ready }) := by
  unfold dendBody at h
  split at h <;> cases h
  · exact .inl ⟨by assumption, rfl⟩
  · exact .inr ⟨by tauto, rfl⟩

/-! ### BUILD and LBEGIN -/

/-- The state an accepted BUILD leaves. -/
def built (s : State) : State :=
  { growTree (presentSymbols s.freq) { discardTree s with mode := .idle } with mode := .ready }

/-- BUILD changes MODE, ROOT, NODECNT and NODE only. -/
theorem built_frame (s : State) : ∃ r c m, built s = { s with mode := .ready, root := r, nodeCnt := c, node := m } :=
  ⟨_, _, _, congrArg (fun t : State => { t with mode := .ready }) (growTree_frame _ _)⟩

/-- The tree an accepted BUILD leaves. -/
theorem built_tree {s : State} (hf : SomeFrequency s) :
    TreeInv (built s) ∧ (built s).node.map Prod.fst = List.range (built s).nodeCnt.toNat ∧
      (built s).nodeCnt.toNat ≤ 512 ∧ (built s).root ≠ NIL := by
  obtain ⟨htree, _, hkeys, hcnt, hroot⟩ := build_tree (s0 := { discardTree s with mode := .idle }) hf rfl rfl
  exact ⟨htree.congr rfl rfl rfl, hkeys, hcnt, hroot⟩

/-- BUILD's faults need a table without symbols or a total that does not fit: the machine's arena holds every tree over
bytes (00_scope.md R6). -/
theorem buildBody_accepts {s : State} (hn : symbolCount s ≠ 0) (hsum : frequencySum s < 4294967296) :
    buildBody Config.params s = .next (built s) := by
  have hroom : nodesNeeded (symbolCount s) ≤ 512 := by
    have := symbolCount_le s
    unfold nodesNeeded
    split <;> omega
  simp only [buildBody, presentSymbols_length, freqTotal_eq, params_nodeN]
  rw [if_neg hn, if_neg (by omega), if_neg (by omega)]
  rfl

/-- A load session at its start: the empty root at index 0 and an empty PATH (42_tree_load.md R151). -/
def emptyLoad (s : State) : State :=
  { clearPath { alloc emptyNode (discardTree s) with root := (discardTree s).nodeCnt } with mode := .load }

/-- INSERT's walk changes NODE and NODECNT only. -/
theorem walk_keeps {P : Config.Params} {a : Byte} {p : List Byte} {i : Nat} {n n' : Idx} {s s' : State}
    (h : walk P a i p n s = .reached n' s') : ∃ m c, s' = { s with node := m, nodeCnt := c } :=
  ⟨_, _, walk_frame h⟩

/-! ### Everything a command can answer -/

theorem Quiet.ne_fault {s : State} (h : Quiet s) : s.mode ≠ .fault := by
  rcases h with e | e <;> simp [e]

/-- What a command can answer: nothing moved, a fault was entered, or the command took its effect. Each effect stands with
what the dispatch and the command's own tests say of the state before it. -/
inductive Answer (s : State) : Instr → State → Prop
  | kept {i : Instr} : Answer s i s
  | faulted {i : Instr} {e : ErrorName} {info pos : Word} :
      s.mode ≠ .fault → HardwareError e → Answer s i (raise e info pos s)
  | reset : Answer s .reset (resetState s)
  | eclr : s.mode = .fault → Answer s .eclr (clearFault s)
  | tdrop : Quiet s → Answer s .tdrop { discardTree s with mode := .idle }
  | fclr : Quiet s → Answer s .fclr { s with freq := clearFreq }
  | fadd {a : Byte} {imm : Imm} {v : Word} : Quiet s → Answer s (.fadd a imm) (setFreq s a v)
  | buildFault {e : ErrorName} {info : Word} :
      Quiet s → HardwareError e → Answer s .build (plainFault (discardTree s) e info 0)
  | build : Quiet s → SomeFrequency s → Answer s .build (built s)
  | lbegin : Quiet s → Answer s .lbegin (emptyLoad s)
  | ppush {a : Byte} : s.mode = .load → s.pLen.toNat < Config.params.pathMax → Answer s (.ppush a) (pushPath a s)
  | insert {a : Byte} {p : List Byte} {n : Idx} {s' : State} {r : Node} :
      s.mode = .load → walk Config.params a 0 p s.root s = .reached n s' → nodeAt s' n = some r → r.isLeaf = true →
      Answer s (.insert a) (clearPath (writeNode n (r.withSym a) s'))
  | lend : s.mode = .load → Answer s .lend { clearPath s with mode := .ready }
  | dbeginFault : Quiet s → Answer s .dbegin (raise .emptyTree 0 0 (restarted s))
  | dbegin : Quiet s → s.root ≠ NIL → Answer s .dbegin { restarted s with cur := s.root, mode := .decode }
  | emit {a : Byte} {y : Byte} : s.mode = .decode → s.outLen.toNat < Config.params.outMax →
      Answer s (.dbit a) (countBit { pushOut y s with cur := s.root })
  | descend {a : Byte} {c : Idx} {r : Node} : s.mode = .decode → nodeAt s c = some r → r.isLeaf = false →
      Answer s (.dbit a) (countBit { s with cur := c })
  | dend : s.mode = .decode → s.cur = s.root → Answer s .dend { s with outValid := true, cur := NIL, mode := .ready }

/-- The pseudocode of a command, in a mode that lets it run, answers one of these. -/
theorem Answer.of_body {i : Instr} {s t : State} (ha : access i s.mode = .run) (h : bodyOf i s = .next t) :
    Answer s i t := by
  cases i with
  | nop => cases h; exact .kept
  | reset => cases h; exact .reset
  | eclr =>
    cases h
    split
    · exact .eclr (by assumption)
    · exact .kept
  | tdrop => cases h; exact .tdrop (quietRow_run.1 ha)
  | fclr => cases h; exact .fclr (quietRow_run.1 ha)
  | fadd a imm =>
    have hq : Quiet s := quietRow_run.1 ha
    rcases faddBody_cases h with ⟨_, rfl⟩ | ⟨_, rfl⟩
    · exact .faulted hq.ne_fault (by simp [HardwareError])
    · exact .fadd hq
  | build =>
    have hq : Quiet s := quietRow_run.1 ha
    rcases buildBody_cases h with ⟨e, info, he, rfl⟩ | ⟨hf, _, rfl⟩
    · exact .buildFault hq he.1
    · exact .build hq hf
  | lbegin => cases h; exact .lbegin (quietRow_run.1 ha)
  | ppush a =>
    have hm := loadRow_run.1 ha
    rcases ppushBody_cases h with ⟨_, rfl⟩ | ⟨hr, rfl⟩
    · exact .faulted (by simp [hm]) (by simp [HardwareError])
    · exact .ppush hm hr
  | insert a =>
    have hm := loadRow_run.1 ha
    rcases insertBody_cases hm h with ⟨e, info, pos, he, rfl⟩ | ⟨p, n, s', r, _, _, _, hw, hr, hl, _, rfl⟩
    · rw [← raise_load _ _ _ hm]; exact .faulted (by simp [hm]) he.1
    · exact .insert hm hw hr hl
  | lend => cases h; exact .lend (loadRow_run.1 ha)
  | dbegin =>
    have hq : Quiet s := quietRow_run.1 ha
    rcases dbeginBody_cases h with ⟨_, rfl⟩ | ⟨hr, rfl⟩
    · exact .dbeginFault hq
    · exact .dbegin hq hr
  | dbit a =>
    have hm := decodeRow_run.1 ha
    rcases dbitBody_cases hm h with ⟨e, info, he, rfl⟩ | ⟨b, r, rc, _, _, _, hrc, ⟨_, hlt, rfl⟩ | ⟨hl, rfl⟩⟩
    · rw [← raise_decode _ _ _ hm]; exact .faulted (by simp [hm]) he.1
    · exact .emit hm hlt
    · exact .descend hm hrc hl
  | dend =>
    have hm := decodeRow_run.1 ha
    rcases dendBody_cases h with ⟨_, rfl⟩ | ⟨hc, rfl⟩
    · exact .faulted (by simp [hm]) (by simp [HardwareError])
    · exact .dend hm hc

/-- Inversion of `exec`: a dropped command keeps the state, one out of mode raises, any other runs its pseudocode. -/
theorem exec_answer {i : Instr} {s t : State} (h : exec i s = .next t) : Answer s i t := by
  rcases exec_cases h with ⟨_, rfl⟩ | ⟨ha, rfl⟩ | ⟨ha, hb⟩
  · exact .kept
  · exact .faulted (access_seq ha) (by simp [HardwareError])
  · exact .of_body ha hb

/-- Inversion of `step`: nothing but the environment's side moved, an illegal word raised, or a command ran (`rst` is
RESET). -/
theorem step_cases {s t : State} (h : step s = .next t) :
    t = { s with host := t.host } ∨ ∃ rest,
      (s.mode ≠ .fault ∧ ∃ w, t = raise .illegalCommand w 0 (withPending s rest)) ∨
        ∃ i, exec i (withPending s rest) = .next t := by
  unfold step runPending at h
  split at h
  · cases h; exact .inl rfl
  · rename_i e rest _
    cases e with
    | rst => exact .inr ⟨rest, .inr ⟨.reset, (exec_reset _).trans h⟩⟩
    | read ra =>
      cases h
      left
      unfold answerRead
      split <;> rfl
    | cmd w =>
      simp only [runEvent, runWord] at h
      split at h
      · exact .inr ⟨rest, .inr ⟨_, h⟩⟩
      · unfold illegalWord at h
        split at h <;> cases h
        · exact .inl rfl
        · exact .inr ⟨rest, .inl ⟨by assumption, w, rfl⟩⟩

end Sys2Proof.Machine
end

section
/-! PROOF. The invariants R36 and R37 at reset and through every step. -/

namespace Sys2Proof.Machine

/-! ### What the invariants say mode by mode -/

theorem Inv.errCode_none {s : State} (h : Inv s) (hm : s.mode ≠ .fault) : s.errCode = none := by
  by_contra hc
  exact hm (h.modes.latched.2 hc)

/-- Outside LOAD mode PATH is empty, its list too. -/
theorem Inv.path_empty {s : State} (h : Inv s) (hm : s.mode ≠ .load) : s.pLen = 0 ∧ s.path = [] := by
  have hp := h.modes.pathEmpty hm
  have hkeys := h.stores.path
  rw [hp] at hkeys
  exact ⟨hp, by simpa using hkeys⟩

/-- The invariants of a state in LOAD mode. -/
theorem Inv.of_load {s : State} (hs : StoresInv s) (ht : TreeInv s) (ha : ChildrenAbove s) (hb : BoundInv Config.params s)
    (hm : s.mode = .load) (hc : s.errCode = none) (hz : s.errInfo = 0 ∧ s.errPos = 0) (hcur : s.cur = NIL) : Inv s := by
  refine ⟨hs, ht, ?_, hb, ?_⟩
  · constructor <;> simp_all
  · intro hd; rw [hm] at hd; cases hd

/-- The invariants of a state in DECODE mode. -/
theorem Inv.of_decode {s : State} (hs : StoresInv s) (ht : TreeInv s) (hb : BoundInv Config.params s)
    (hm : s.mode = .decode) (hr : s.root ≠ NIL) (hv : s.outValid = false) (hc : s.errCode = none)
    (hz : s.errInfo = 0 ∧ s.errPos = 0) (hp : s.pLen = 0) (hcur : CursorInv s) : Inv s := by
  refine ⟨hs, ht, ?_, hb, hcur⟩
  constructor <;> simp_all

/-- FREQ is in no invariant. -/
theorem Inv.withFreq {s : State} (h : Inv s) (f : Vector Word 256) : Inv { s with freq := f } :=
  ⟨⟨h.stores.nodes, h.stores.path, h.stores.out⟩, h.tree.congr rfl rfl rfl,
    ⟨h.modes.idle, h.modes.ready, h.modes.decode, fun x => (h.modes.load x).congr rfl rfl rfl, h.modes.curNil,
      h.modes.pathEmpty, h.modes.latched, h.modes.cleared, h.modes.hardware⟩,
    ⟨h.bounds.nodes, h.bounds.path, h.bounds.out⟩, h.cursor⟩

/-! ### Reset -/

theorem inv_reset : Inv State.reset :=
  .of_quiet rfl rfl (.of_no_nodes rfl rfl) (Nat.zero_le _) (Nat.zero_le _) (.inl ⟨rfl, rfl⟩) rfl ⟨rfl, rfl⟩ rfl rfl rfl

theorem bitposInv_reset : BitposInv State.reset := ⟨Nat.zero_le _, nofun⟩

/-! ### The commands -/

/-- ECLR: the tree, if there is one, decides between IDLE and READY (R112). -/
theorem Inv.clearFault {s : State} (h : Inv s) (hm : s.mode = .fault) : Inv (clearFault s) := by
  have hp := h.path_empty (by simp [hm])
  refine .of_quiet h.stores.nodes h.stores.out (h.tree.congr rfl rfl rfl) h.bounds.nodes h.bounds.out ?_ rfl ⟨rfl, rfl⟩
    (h.modes.curNil (by simp [hm])) hp.1 hp.2
  by_cases hr : s.root = NIL
  · exact .inl ⟨by simp [hr], hr⟩
  · exact .inr ⟨by simp [hr], hr⟩

/-- TDROP. -/
theorem Inv.tdrop {s : State} (h : Inv s) (hq : Quiet s) : Inv { discardTree s with mode := .idle } := by
  obtain ⟨he, hz, hcur, hp, hpath, _⟩ := h.quiet hq
  exact .of_quiet rfl h.stores.out (.of_no_nodes rfl rfl) (Nat.zero_le _) h.bounds.out (.inl ⟨rfl, rfl⟩) he hz hcur hp hpath

/-- BUILD that faults: the old tree is gone. -/
theorem Inv.buildFault {s : State} (h : Inv s) {e : ErrorName} (he : HardwareError e) (info pos : Word) :
    Inv (Machine.plainFault (discardTree s) e info pos) :=
  .latched rfl h.stores.out (.of_no_nodes rfl rfl) (Nat.zero_le _) h.bounds.out he rfl rfl rfl rfl rfl

/-- BUILD that makes a tree. -/
theorem Inv.built {s : State} (h : Inv s) (hq : Quiet s) (hf : SomeFrequency s) : Inv (built s) := by
  obtain ⟨he, hz, hcur, hp, hpath, _⟩ := h.quiet hq
  obtain ⟨ht, hkeys, hcnt, hroot⟩ := built_tree hf
  obtain ⟨r, c, m, e⟩ := built_frame s
  rw [e] at ht hkeys hcnt hroot ⊢
  exact .of_quiet hkeys h.stores.out ht hcnt h.bounds.out (.inr ⟨rfl, hroot⟩) he hz hcur hp hpath

/-- LBEGIN. -/
theorem Inv.emptyLoad {s : State} (h : Inv s) (hq : Quiet s) : Inv (emptyLoad s) := by
  obtain ⟨he, hz, hcur, _, _, _⟩ := h.quiet hq
  obtain ⟨ht, ha⟩ := TreeInv.of_empty_root (s := Machine.emptyLoad s) rfl rfl rfl
  exact .of_load ⟨rfl, rfl, h.stores.out⟩ ht ha
    ⟨show (1 : Idx).toNat ≤ 512 by decide, Nat.zero_le _, h.bounds.out⟩ rfl he hz hcur

/-- PPUSH below the capacity of PATH. -/
theorem Inv.pushPath {s : State} (h : Inv s) (hm : s.mode = .load) (hlt : s.pLen.toNat < Config.params.pathMax) (c : Byte) :
    Inv (pushPath c s) := by
  have hnf : s.mode ≠ .fault := by simp [hm]
  have hcnt := pushPath_count c hlt
  refine .of_load ⟨h.stores.nodes, ?_, h.stores.out⟩ (h.tree.congr rfl rfl rfl) ((h.modes.load hm).congr rfl rfl rfl)
    ⟨h.bounds.nodes, ?_, h.bounds.out⟩ hm (h.errCode_none hnf) (h.modes.cleared hnf) (h.modes.curNil (by simp [hm]))
  · rw [hcnt]; exact Memory.keys_write_next _ _ _ h.stores.path
  · rw [hcnt]; exact hlt

/-- INSERT that reaches its terminal node: the walk's tree with the mark (R155). -/
theorem Inv.inserted {s s' : State} {a : Byte} {p : List Byte} {n : Idx} {r : Node} (h : Inv s) (hm : s.mode = .load)
    (hw : walk Config.params a 0 p s.root s = .reached n s') (hr : nodeAt s' n = some r) (hl : r.isLeaf = true) :
    Inv (clearPath (writeNode n (r.withSym a) s')) := by
  have hnf : s.mode ≠ .fault := by simp [hm]
  obtain ⟨ht, ha, hkeys, hcnt⟩ := insert_walk_tree h hm hw hr hl
  obtain ⟨m, c, rfl⟩ := walk_keeps hw
  exact .of_load ⟨hkeys, rfl, h.stores.out⟩ ht ha ⟨hcnt, Nat.zero_le _, h.bounds.out⟩ hm (h.errCode_none hnf)
    (h.modes.cleared hnf) (h.modes.curNil (by simp [hm]))

/-- LEND. -/
theorem Inv.lend {s : State} (h : Inv s) (hm : s.mode = .load) : Inv { clearPath s with mode := .ready } := by
  have hnf : s.mode ≠ .fault := by simp [hm]
  have hroot : s.root ≠ NIL := by rw [(h.modes.load hm).1]; decide
  exact .of_quiet h.stores.nodes h.stores.out (h.tree.congr rfl rfl rfl) h.bounds.nodes h.bounds.out (.inr ⟨rfl, hroot⟩)
    (h.errCode_none hnf) (h.modes.cleared hnf) (h.modes.curNil (by simp [hm])) rfl rfl

/-- DBEGIN's lost result: outside a session the invariants say nothing of OUT but its bound. -/
theorem Inv.restarted {s : State} (h : Inv s) (hq : Quiet s) : Inv (restarted s) := by
  obtain ⟨he, hz, hcur, hp, hpath, hmode⟩ := h.quiet hq
  exact .of_quiet h.stores.nodes rfl (h.tree.congr rfl rfl rfl) h.bounds.nodes (Nat.zero_le _) hmode he hz hcur hp hpath

/-- DBEGIN with a tree. -/
theorem Inv.dbegin {s : State} (h : Inv s) (hq : Quiet s) (hr : s.root ≠ NIL) :
    Inv { Machine.restarted s with cur := s.root, mode := .decode } := by
  obtain ⟨he, hz, _, hp, hpath, _⟩ := h.quiet hq
  exact .of_decode ⟨h.stores.nodes, h.stores.path, rfl⟩ (h.tree.congr rfl rfl rfl)
    ⟨h.bounds.nodes, h.bounds.path, Nat.zero_le _⟩ rfl hr rfl he hz hp (fun _ hne => absurd rfl hne)

/-- DBIT that emits: OUT grows below its capacity and the walk restarts at ROOT. -/
theorem Inv.emit {s : State} (h : Inv s) (hm : s.mode = .decode) (hlt : s.outLen.toNat < Config.params.outMax) (y : Byte) :
    Inv (countBit { pushOut y s with cur := s.root }) := by
  have hnf : s.mode ≠ .fault := by simp [hm]
  have hcnt := pushOut_count y (by have := outMax_le; omega : s.outLen.toNat < 4194304)
  obtain ⟨hroot, hv⟩ := h.modes.decode hm
  refine .of_decode ⟨h.stores.nodes, h.stores.path, ?_⟩ (h.tree.congr rfl rfl rfl) ⟨h.bounds.nodes, h.bounds.path, ?_⟩ hm
    hroot hv (h.errCode_none hnf) (h.modes.cleared hnf) (h.modes.pathEmpty (by simp [hm])) (fun _ hne => absurd rfl hne)
  · exact (Memory.keys_write_next _ _ _ h.stores.out).trans (congrArg List.range hcnt.symm)
  · exact hcnt.trans_le hlt

/-- DBIT that descends: the node arrived at has a child, so it holds no symbol (R36 (d), R37). -/
theorem Inv.descend {s : State} (h : Inv s) (hm : s.mode = .decode) {c : Idx} {r : Node} (hr : nodeAt s c = some r)
    (hl : r.isLeaf = false) : Inv (countBit { s with cur := c }) := by
  have hnf : s.mode ≠ .fault := by simp [hm]
  obtain ⟨hroot, hv⟩ := h.modes.decode hm
  have hsym : r.sym = none := by
    by_contra hs
    rw [h.tree.symbolOnLeaf c r hr hs] at hl
    cases hl
  exact .of_decode ⟨h.stores.nodes, h.stores.path, h.stores.out⟩ (h.tree.congr rfl rfl rfl)
    ⟨h.bounds.nodes, h.bounds.path, h.bounds.out⟩ hm hroot hv (h.errCode_none hnf) (h.modes.cleared hnf)
    (h.modes.pathEmpty (by simp [hm])) (fun _ _ => ⟨r, hr, hl, hsym⟩)

/-- DEND at ROOT. -/
theorem Inv.dend {s : State} (h : Inv s) (hm : s.mode = .decode) :
    Inv { s with outValid := true, cur := NIL, mode := .ready } := by
  have hnf : s.mode ≠ .fault := by simp [hm]
  have hp := h.path_empty (by simp [hm])
  exact .of_quiet h.stores.nodes h.stores.out (h.tree.congr rfl rfl rfl) h.bounds.nodes h.bounds.out
    (.inr ⟨rfl, (h.modes.decode hm).1⟩) (h.errCode_none hnf) (h.modes.cleared hnf) rfl hp.1 hp.2

/-- Every command keeps the invariants. -/
theorem Inv.exec {i : Instr} {s t : State} (h : Inv s) (hx : exec i s = .next t) : Inv t := by
  cases exec_answer hx with
  | kept => exact h
  | faulted hm he => exact h.raise hm he _ _
  | reset => exact inv_reset.withHost _
  | eclr hm => exact h.clearFault hm
  | tdrop hq => exact h.tdrop hq
  | fclr _ => exact h.withFreq _
  | fadd _ => exact h.withFreq _
  | buildFault _ he => exact h.buildFault he _ _
  | build hq hf => exact h.built hq hf
  | lbegin hq => exact h.emptyLoad hq
  | ppush hm hlt => exact h.pushPath hm hlt _
  | insert hm hw hr hl => exact h.inserted hm hw hr hl
  | lend hm => exact h.lend hm
  | dbeginFault hq => exact (h.restarted hq).raise hq.ne_fault (by simp [HardwareError]) _ _
  | dbegin hq hr => exact h.dbegin hq hr
  | emit hm hlt => exact h.emit hm hlt _
  | descend hm hr hl => exact h.descend hm hr hl
  | dend hm _ => exact h.dend hm

theorem Inv.withPending {s : State} (h : Inv s) (q : List HostEvent) : Inv (withPending s q) := h.withHost _

/-- Every step keeps the invariants. -/
theorem Inv.step {s t : State} (h : Inv s) (hx : step s = .next t) : Inv t := by
  rcases step_cases hx with e | ⟨rest, ⟨hm, w, rfl⟩ | ⟨i, hi⟩⟩
  · rw [e]; exact h.withHost _
  · exact (h.withPending rest).raise hm (by simp [HardwareError]) _ _
  · exact (h.withPending rest).exec hi

end Sys2Proof.Machine

namespace Sys2Proof.Proofs

open Sys2Proof.Machine

/-- Settles O48. -/
theorem invariantAtReset : Obligations.InvariantAtReset := ⟨inv_reset, bitposInv_reset⟩

/-- Settles O49, command by command through the one inversion of `exec`. -/
theorem invariantIsKept : Obligations.InvariantIsKept := fun _ _ h hx => h.step hx

end Sys2Proof.Proofs
end

section
/-! PROOF. What the commands leave unchanged: FREQ, the finished output, the canonical form of the stores. -/

namespace Sys2Proof.Machine

/-- FREQ is FADD's, FCLR's and RESET's (R29). -/
theorem Answer.freq_eq {i : Instr} {s t : State} (h : Answer s i t) (hr : i ≠ .reset) (hc : i ≠ .fclr)
    (ha : ∀ a imm, i ≠ .fadd a imm) : t.freq = s.freq := by
  cases h with
  | reset => exact absurd rfl hr
  | fclr _ => exact absurd rfl hc
  | fadd _ => exact absurd rfl (ha _ _)
  | faulted _ _ => exact raise_freq _ _ _ _
  | dbeginFault _ => exact raise_freq _ _ _ _
  | build _ _ => obtain ⟨_, _, _, e⟩ := built_frame s; rw [e]
  | insert _ hw _ _ => obtain ⟨_, _, rfl⟩ := walk_keeps hw; rfl
  | kept | eclr _ | tdrop _ | buildFault _ _ | lbegin _ | ppush _ _ | lend _ | dbegin _ _ | emit _ _ | descend _ _ _
  | dend _ _ => rfl

/-- Two states with the same output: OUTLEN, OUT_VALID and OUT. -/
def SameOutput (s t : State) : Prop := t.outLen = s.outLen ∧ t.outValid = s.outValid ∧ t.out = s.out

/-- Outside a decode session only DBEGIN and RESET touch the output (R26). -/
theorem Answer.sameOutput {i : Instr} {s t : State} (h : Answer s i t) (hm : s.mode ≠ .decode) (hr : i ≠ .reset)
    (hd : i ≠ .dbegin) : SameOutput s t := by
  cases h with
  | reset => exact absurd rfl hr
  | dbeginFault _ => exact absurd rfl hd
  | dbegin _ _ => exact absurd rfl hd
  | emit hm' _ => exact absurd hm' hm
  | descend hm' _ _ => exact absurd hm' hm
  | dend hm' _ => exact absurd hm' hm
  | faulted _ _ => simp [SameOutput, hm]
  | build _ _ => obtain ⟨_, _, _, e⟩ := built_frame s; rw [e]; exact ⟨rfl, rfl, rfl⟩
  | insert _ hw _ _ => obtain ⟨_, _, rfl⟩ := walk_keeps hw; exact ⟨rfl, rfl, rfl⟩
  | kept | eclr _ | tdrop _ | fclr _ | fadd _ | buildFault _ _ | lbegin _ | ppush _ _ | lend _ => exact ⟨rfl, rfl, rfl⟩

/-! ### The canonical form (log 9) -/

/-- The three stores in canonical form. -/
structure Canonical (s : State) : Prop where
  node : Memory.wf s.node
  path : Memory.wf s.path
  out  : Memory.wf s.out

/-- Fault entry empties stores or leaves them. -/
theorem Canonical.raise {s : State} (h : Canonical s) (e : ErrorName) (info pos : Word) :
    Canonical (raise e info pos s) := by
  refine ⟨?_, .nil, ?_⟩
  · rw [raise_node]; split
    · exact .nil
    · exact h.node
  · rw [raise_out]; split
    · exact .nil
    · exact h.out

/-- INSERT's walk writes NODE in its order. -/
theorem Canonical.walk {P : Config.Params} {a : Byte} {p : List Byte} {i : Nat} {n n' : Idx} {s s' : State}
    (h : Canonical s) (hw : walk P a i p n s = .reached n' s') : Canonical s' := by
  refine walk_induct (P := P) (a := a) (fun _ t => Canonical t) (fun _ _ _ _ ht _ _ _ => ht) ?_ p i n s n' s' h hw
  intro m t r b ht _ _ _ _
  exact ⟨Memory.wf_write _ _ _ (Memory.wf_write _ _ _ ht.node), ht.path, ht.out⟩

/-- Every command keeps the canonical form. -/
theorem Answer.canonical {i : Instr} {s t : State} (ha : Answer s i t) (h : Canonical s) : Canonical t := by
  cases ha with
  | kept | eclr _ | fclr _ | fadd _ | descend _ _ _ | dend _ _ => exact ⟨h.node, h.path, h.out⟩
  | faulted _ _ => exact h.raise _ _ _
  | reset => exact ⟨.nil, .nil, .nil⟩
  | tdrop _ => exact ⟨.nil, h.path, h.out⟩
  | buildFault _ _ => exact ⟨.nil, .nil, h.out⟩
  | build _ hf =>
    obtain ⟨_, hkeys, _, _⟩ := built_tree hf
    have hnode := Memory.wf_of_range _ _ hkeys
    obtain ⟨_, _, _, e⟩ := built_frame s
    rw [e] at hnode ⊢
    exact ⟨hnode, h.path, h.out⟩
  | lbegin _ => exact ⟨Memory.wf_write _ _ _ .nil, .nil, h.out⟩
  | ppush _ _ => exact ⟨h.node, Memory.wf_write _ _ _ h.path, h.out⟩
  | insert _ hw _ _ => exact ⟨Memory.wf_write _ _ _ (h.walk hw).node, .nil, (h.walk hw).out⟩
  | lend _ => exact ⟨h.node, .nil, h.out⟩
  | dbeginFault _ => exact Canonical.raise (s := restarted s) ⟨h.node, h.path, .nil⟩ _ _ _
  | dbegin _ _ => exact ⟨h.node, h.path, .nil⟩
  | emit _ _ => exact ⟨h.node, h.path, Memory.wf_write _ _ _ h.out⟩

/-- The environment's side is in no store. -/
theorem Canonical.withHost {s : State} (h : Canonical s) (e : HostSide) : Canonical { s with host := e } :=
  ⟨h.node, h.path, h.out⟩

theorem Canonical.step {s t : State} (h : Canonical s) (hx : step s = .next t) : Canonical t := by
  rcases step_cases hx with e | ⟨rest, ⟨_, w, rfl⟩ | ⟨i, hi⟩⟩
  · rw [e]; exact h.withHost _
  · exact (h.withHost _).raise _ _ _
  · exact (exec_answer hi).canonical (h.withHost _)

/-! ### Counting bytes (41_frequency_and_build.md R191) -/

/-- A FADD in IDLE or READY whose sum fits. -/
theorem exec_fadd_fits {s : State} {a : Byte} {imm : Imm} (hq : Quiet s)
    (hfit : (freqAt s a).toNat + imm.toNat < 4294967296) :
    exec (.fadd a imm) s = .next (setFreq s a (BitVec.ofNat 32 ((freqAt s a).toNat + imm.toNat))) := by
  rw [exec_run (i := .fadd a imm) (quietRow_run.2 hq)]
  simp only [bodyOf, faddBody, faddSum_eq]
  rw [if_neg (by omega)]

theorem exec_fclr {s : State} (hq : Quiet s) : exec .fclr s = .next { s with freq := clearFreq } :=
  exec_run (i := .fclr) (quietRow_run.2 hq)

/-- One FADD per byte adds to each entry how often its byte occurs, while every total fits. -/
theorem runCommands_fadd (bytes : List Byte) : ∀ s : State, Quiet s →
    (∀ b, (freqAt s b).toNat + frequencies bytes b < 4294967296) →
    ∃ t, runCommands (bytes.map (fun b => .fadd b 1)) s = .next t ∧ t = { s with freq := t.freq } ∧
      ∀ b, (freqAt t b).toNat = (freqAt s b).toNat + frequencies bytes b := by
  induction bytes with
  | nil => exact fun s _ _ => ⟨s, rfl, rfl, fun _ => rfl⟩
  | cons x xs ih =>
    intro s hq hfit
    have hx : (freqAt s x).toNat + 1 < 4294967296 := by
      have := hfit x
      simp only [frequencies, List.count_cons_self] at this
      omega
    let s1 := setFreq s x (BitVec.ofNat 32 ((freqAt s x).toNat + 1))
    have hsplit : ∀ b, (freqAt s1 b).toNat + frequencies xs b = (freqAt s b).toNat + frequencies (x :: xs) b := by
      intro b
      rw [freqAt_setFreq]
      by_cases hb : b = x
      · subst hb
        rw [if_pos rfl, BitVec.toNat_ofNat, Nat.mod_eq_of_lt hx]
        simp only [frequencies, List.count_cons_self]
        omega
      · rw [if_neg hb]
        simp only [frequencies, List.count_cons_of_ne (Ne.symm hb)]
    obtain ⟨t, hrun, hframe, hcount⟩ := ih s1 hq (fun b => by rw [hsplit]; exact hfit b)
    refine ⟨t, ?_, hframe, fun b => (hcount b).trans (hsplit b)⟩
    simp only [List.map_cons, runCommands]
    rw [exec_fadd_fits hq hx]
    exact hrun

theorem runCommands_frequencyCommands (bytes : List Byte) (s : State) (hq : Quiet s)
    (hfit : ∀ b, frequencies bytes b < 4294967296) :
    ∃ t, runCommands (frequencyCommands bytes) s = .next t ∧ t = { s with freq := t.freq } ∧
      ∀ b, (freqAt t b).toNat = frequencies bytes b := by
  have hzero : ∀ b, (freqAt { s with freq := clearFreq } b).toNat = 0 := fun b => by simp [freqAt]
  obtain ⟨t, hrun, hframe, hcount⟩ := runCommands_fadd bytes { s with freq := clearFreq } hq
    (fun b => by rw [hzero, Nat.zero_add]; exact hfit b)
  refine ⟨t, ?_, hframe, fun b => by rw [hcount, hzero, Nat.zero_add]⟩
  simp only [frequencyCommands, runCommands]
  rw [exec_fclr hq]
  exact hrun

/-! ### Every node is reached from ROOT (R36 (c)) -/

/-- A path to a node and a child of it give a path to the child. -/
theorem follow_child {s : State} {n p c : Idx} {b : Side} {q : List Byte} (hq : follow s n q = some p)
    (h : ChildOf s p b c) : follow s n (q ++ [sideChar b]) = some c := by
  obtain ⟨hne, r, hr, rfl⟩ := h
  refine follow_append q _ n p _ hq ?_
  simp only [follow, bitSymbol_sideChar, hr]
  rw [if_neg hne]

/-- With any measure that falls from a node to its parent, every written node is reached. -/
theorem reached_of_measure {s : State} (ht : TreeInv s) (f : Idx → Nat)
    (hf : ∀ p b c, ChildOf s p b c → f p < f c) (i : Idx) (hi : i.toNat < s.nodeCnt.toNat) :
    ∃ q, follow s s.root q = some i := by
  induction hk : f i using Nat.strong_induction_on generalizing i with
  | h k ih =>
    by_cases hroot : i = s.root
    · exact ⟨[], by rw [hroot]; rfl⟩
    · obtain ⟨p, b, hp, _⟩ := ht.oneParent i hi hroot
      obtain ⟨q, hq⟩ := ih (f p) (hk ▸ hf p b i hp) p hp.parent_lt rfl
      exact ⟨_, follow_child hq hp⟩

/-- The index order of R36 (c) gives the measure: indexes in a loaded tree, indexes counted down in a built one. -/
theorem TreeInv.reached {s : State} (ht : TreeInv s) {i : Idx} (hi : i.toNat < s.nodeCnt.toNat) :
    ∃ p, follow s s.root p = some i := by
  rcases ht.order with hbelow | ⟨_, habove⟩
  · refine reached_of_measure ht (fun j => 1023 - j.toNat) ?_ i hi
    intro p b c h
    have hlt := BitVec.lt_def.1 (hbelow p b c h)
    have := p.isLt
    omega
  · exact reached_of_measure ht BitVec.toNat (fun p b c h => BitVec.lt_def.1 (habove p b c h)) i hi

end Sys2Proof.Machine

namespace Sys2Proof.Proofs

open Sys2Proof.Machine

/-- Settles O27. -/
theorem onlyFrequencyCommandsChangeFreq : Obligations.OnlyFrequencyCommandsChangeFreq :=
  fun _ _ _ hx hr hc ha => (exec_answer hx).freq_eq hr hc ha

/-- Settles O46: none of the eight is DBEGIN or RESET. -/
theorem finishedOutputStays : Obligations.FinishedOutputStays := by
  intro a imm s t hm i hi hx
  refine (exec_answer hx).sameOutput hm ?_ ?_ <;> rintro rfl <;> simp at hi

/-- Settles O52. -/
theorem storesStayCanonical : Obligations.StoresStayCanonical := by
  intro s t hn hp ho hx
  have h := Canonical.step ⟨hn, hp, ho⟩ hx
  exact ⟨h.node, h.path, h.out⟩

/-- Settles O28, by induction on the bytes after FCLR. -/
theorem frequencyCommandsCount : Obligations.FrequencyCommandsCount := runCommands_frequencyCommands

/-- Settles O53, by induction along the parents. -/
theorem everyNodeIsReachedFromTheRoot : Obligations.EveryNodeIsReachedFromTheRoot :=
  fun _ _ h hi => h.tree.reached hi

end Sys2Proof.Proofs
end

section
/-! PROOF. Where each command leaves MODE (60_exceptions.md R240, R241). -/

namespace Sys2Proof.Machine

/-- NOP keeps the state in all five modes (R110). -/
theorem exec_nop (s : State) : exec .nop s = .next s := by
  rw [exec_guarded, guarded]
  cases s.mode <;> rfl

/-- ECLR runs in all five modes (R112). -/
theorem exec_eclr (s : State) : exec .eclr s = .next (if s.mode = .fault then clearFault s else s) := by
  rw [exec_run (i := .eclr) (by cases s.mode <;> rfl)]
  rfl

/-- A condition that needs a mode the command runs in decides its next mode as soon as it does so for the body: blocked,
the command ends in FAULT. -/
theorem mode_of_body {i : Instr} {s t : State} {c : Prop} [Decidable c] {m : Mode} (hx : exec i s = .next t)
    (hc : c → access i s.mode = .run)
    (hbody : access i s.mode = .run → bodyOf i s = .next t → t.mode = if c then m else .fault) :
    t.mode = if c then m else .fault := by
  rcases exec_blocked_or_runs hx with ⟨hb, ht⟩ | ⟨hr, hb⟩
  · rw [ht, if_neg (fun h => hb (hc h))]
  · exact hbody hr hb

theorem fadd_mode {a : Byte} {imm : Imm} {s t : State} (hq : Quiet s) (h : faddBody a imm s = .next t) :
    t.mode = if Quiet s ∧ (freqAt s a).toNat + imm.toNat < 4294967296 then s.mode else .fault := by
  rcases faddBody_cases h with ⟨hsum, rfl⟩ | ⟨hsum, rfl⟩
  · rw [if_neg (fun hc => absurd hc.2 (by omega))]; rfl
  · rw [if_pos ⟨hq, hsum⟩]; rfl

theorem build_mode {s t : State} (hq : Quiet s) (h : buildBody Config.params s = .next t) :
    t.mode = if Quiet s ∧ symbolCount s ≠ 0 ∧ frequencySum s < 4294967296 then .ready else .fault := by
  by_cases hc : symbolCount s ≠ 0 ∧ frequencySum s < 4294967296
  · rw [buildBody_accepts hc.1 hc.2] at h
    cases h
    rw [if_pos ⟨hq, hc⟩]; rfl
  · rcases buildBody_cases h with ⟨e, info, _, rfl⟩ | ⟨hf, hsum, _⟩
    · rw [if_neg (fun h => hc h.2)]; rfl
    · exact absurd ⟨(symbolCount_pos s).2 hf, hsum⟩ hc

theorem ppush_mode {a : Byte} {s t : State} (hm : s.mode = .load) (h : ppushBody Config.params a s = .next t) :
    t.mode = if s.mode = .load ∧ s.pLen.toNat < Config.params.pathMax then .load else .fault := by
  rcases ppushBody_cases h with ⟨hfull, rfl⟩ | ⟨hlt, rfl⟩
  · rw [if_neg (fun hc => absurd hc.2 (by omega))]; rfl
  · rw [if_pos ⟨hm, hlt⟩]; exact hm

/-- The invariants tie ROOT to the mode: in IDLE DBEGIN finds no tree, in READY it finds one. -/
theorem dbegin_mode {s t : State} (hi : Inv s) (hq : Quiet s) (h : dbeginBody s = .next t) :
    t.mode = if s.mode = .ready then .decode else .fault := by
  rcases dbeginBody_cases h with ⟨hr, rfl⟩ | ⟨hr, rfl⟩
  · rw [if_neg (fun hm => hi.modes.ready hm hr)]; rfl
  · rw [if_pos (hq.resolve_left (fun hm => hr (hi.modes.idle hm)))]

theorem dend_mode {s t : State} (hm : s.mode = .decode) (h : dendBody s = .next t) :
    t.mode = if s.mode = .decode ∧ s.cur = s.root then .ready else .fault := by
  rcases dendBody_cases h with ⟨hc, rfl⟩ | ⟨hc, rfl⟩
  · rw [if_neg (fun h => hc h.2)]; rfl
  · rw [if_pos ⟨hm, hc⟩]

theorem insert_mode {a : Byte} {s t : State} (hm : s.mode = .load) (h : insertBody Config.params a s = .next t) :
    t.mode = .fault ∨ (s.mode = .load ∧ t.mode = .load) := by
  rcases insertBody_cases hm h with ⟨e, info, pos, _, rfl⟩ | ⟨p, n, s', r, _, _, _, hw, _, _, _, rfl⟩
  · exact .inl rfl
  · obtain ⟨_, _, rfl⟩ := walk_keeps hw
    exact .inr ⟨hm, hm⟩

theorem dbit_mode {a : Byte} {s t : State} (hm : s.mode = .decode) (h : dbitBody Config.params a s = .next t) :
    t.mode = .fault ∨ (s.mode = .decode ∧ t.mode = .decode) := by
  rcases dbitBody_cases hm h with ⟨e, info, _, rfl⟩ | ⟨_, _, _, _, _, _, _, ⟨_, _, rfl⟩ | ⟨_, rfl⟩⟩
  · exact .inl rfl
  · exact .inr ⟨hm, hm⟩
  · exact .inr ⟨hm, hm⟩

/-- The mode table, row by row. -/
theorem exec_modeMove {i : Instr} {s t : State} (hi : Inv s) (hx : exec i s = .next t) : ModeMove s t i := by
  cases i with
  | nop => cases (exec_nop s).symm.trans hx; rfl
  | reset => cases (exec_reset s).symm.trans hx; rfl
  | eclr =>
    cases (exec_eclr s).symm.trans hx
    exact apply_ite State.mode _ _ _
  | tdrop => exact mode_of_body hx quietRow_run.2 (fun ha h => by cases h; exact (if_pos (quietRow_run.1 ha)).symm)
  | fclr => exact mode_of_body hx quietRow_run.2 (fun ha h => by cases h; exact (if_pos (quietRow_run.1 ha)).symm)
  | lbegin => exact mode_of_body hx quietRow_run.2 (fun ha h => by cases h; exact (if_pos (quietRow_run.1 ha)).symm)
  | lend => exact mode_of_body hx loadRow_run.2 (fun ha h => by cases h; exact (if_pos (loadRow_run.1 ha)).symm)
  | fadd a imm => exact mode_of_body hx (fun c => quietRow_run.2 c.1) (fun ha h => fadd_mode (quietRow_run.1 ha) h)
  | build => exact mode_of_body hx (fun c => quietRow_run.2 c.1) (fun ha h => build_mode (quietRow_run.1 ha) h)
  | ppush a => exact mode_of_body hx (fun c => loadRow_run.2 c.1) (fun ha h => ppush_mode (loadRow_run.1 ha) h)
  | dbegin => exact mode_of_body hx (fun c => quietRow_run.2 (.inr c)) (fun ha h => dbegin_mode hi (quietRow_run.1 ha) h)
  | dend => exact mode_of_body hx (fun c => decodeRow_run.2 c.1) (fun ha h => dend_mode (decodeRow_run.1 ha) h)
  | insert a =>
    rcases exec_blocked_or_runs hx with ⟨_, ht⟩ | ⟨ha, h⟩
    · exact .inl ht
    · exact insert_mode (loadRow_run.1 ha) h
  | dbit a =>
    rcases exec_blocked_or_runs hx with ⟨_, ht⟩ | ⟨ha, h⟩
    · exact .inl ht
    · exact dbit_mode (decodeRow_run.1 ha) h

end Sys2Proof.Machine

namespace Sys2Proof.Proofs

open Sys2Proof.Machine

/-- Settles O20, row by row of the mode table. -/
theorem modeTransitions : Obligations.ModeTransitions := fun _ _ _ hi hx => exec_modeMove hi hx

end Sys2Proof.Proofs
end

section
/-! PROOF. The read port: the map of R40, the STATUS word, the node words, and a host read as a step. -/

namespace Sys2Proof.Machine

/-- A read address behind the single words, written as a number. -/
theorem readPort_ofNat (P : Config.Params) (s : State) {n : Nat} (h : 14 ≤ n) (hn : n < 4294967296) :
    readPort P s (BitVec.ofNat 32 n) = readStores P s n := by
  have e : (BitVec.ofNat 32 n).toNat = n := by
    rw [BitVec.toNat_ofNat]
    exact Nat.mod_eq_of_lt hn
  rw [readPort_stores P s (by omega), e]

/-- FREQ's window. -/
theorem readStores_freq (P : Config.Params) (s : State) (a : Byte) :
    readStores P s (0x100 + a.toNat) = .word (freqAt s a) := by
  have := a.isLt
  rw [readStores, if_pos (by omega), Nat.add_sub_cancel_left, BitVec.ofNat_toNat, BitVec.setWidth_eq]

/-- Between and behind the windows. -/
theorem readStores_unmapped {P : Config.Params} (s : State) (hP : P.ok) {n : Nat}
    (h : (0x0E ≤ n ∧ n < 0x100) ∨ (0x200 + P.pathMax ≤ n ∧ n < 0x400) ∨ (0x400 + 2 * P.nodeN ≤ n ∧ n < 0x10000) ∨
      0x10000 + P.outMax ≤ n) : readStores P s n = .word 0 := by
  obtain ⟨_, _, _, _, _, _⟩ := hP
  rw [readStores, if_neg (by omega), if_neg (by omega), if_neg (by omega), if_neg (by omega)]

/-- The upper ends of the ranges R5 allows: every window lies below 2^32. -/
theorem params_le {P : Config.Params} (hP : P.ok) : P.nodeN ≤ 1023 ∧ P.pathMax ≤ 255 ∧ P.outMax ≤ 4194304 := by
  obtain ⟨_, hnode, _, hpath, _, hout⟩ := hP
  exact ⟨hnode, hpath, hout⟩

variable {P : Config.Params} (s : State) (hP : P.ok)
include hP

theorem readPort_path {i : Nat} (h : i < P.pathMax) :
    readPort P s (BitVec.ofNat 32 (0x200 + i)) = entryAnswer zext32 (pathAt s i) := by
  obtain ⟨_, hmax, _⟩ := params_le hP
  rw [readPort_ofNat P s (by omega) (by omega), readStores_path s hP h]

theorem readPort_node {i : Nat} (h : i < P.nodeN) :
    readPort P s (BitVec.ofNat 32 (0x400 + 2 * i)) = entryAnswer nodeLowWord (nodeAt s (BitVec.ofNat 10 i)) ∧
      readPort P s (BitVec.ofNat 32 (0x401 + 2 * i)) = entryAnswer Node.weight (nodeAt s (BitVec.ofNat 10 i)) := by
  obtain ⟨hmax, _, _⟩ := params_le hP
  obtain ⟨hlow, hhigh⟩ := readStores_node s hP h
  rw [readPort_ofNat P s (by omega) (by omega), readPort_ofNat P s (by omega) (by omega)]
  exact ⟨hlow, hhigh⟩

theorem readPort_out {k : Nat} (h : k < P.outMax) :
    readPort P s (BitVec.ofNat 32 (0x10000 + k)) = entryAnswer zext32 (outAt s k) := by
  obtain ⟨_, _, hmax⟩ := params_le hP
  rw [readPort_ofNat P s (by omega) (by omega), readStores_out s hP h]

omit hP

/-! ### Entries at or above their counters (R34) -/

theorem pathAt_unwritten {i : Nat} (h : s.pLen.toNat ≤ i) : pathAt s i = none := if_neg (by omega)

theorem nodeAt_unwritten {i : Idx} (h : s.nodeCnt.toNat ≤ i.toNat) : nodeAt s i = none := if_neg (by omega)

theorem outAt_unwritten {k : Nat} (h : s.outLen.toNat ≤ k) : outAt s k = none := if_neg (by omega)

/-- A read that finds an unwritten entry is answered by a fresh draw (log 4). -/
theorem answerRead_unwritten {ra : Word} (h : readPort P s ra = .unwritten) :
    answerRead P ra s =
      { s with host := { s.host with rdData := some (Config.freeWord s.host.draws), draws := s.host.draws + 1 } } := by
  rw [answerRead, h]

theorem answerRead_word {ra v : Word} (h : readPort P s ra = .word v) :
    answerRead P ra s = { s with host := { s.host with rdData := some v } } := by
  rw [answerRead, h]

/-- The step of a read event. -/
theorem step_read {ra : Word} {rest : List HostEvent} (h : s.host.pending = .read ra :: rest) :
    step s = .next (answerRead Config.params ra (withPending s rest)) := by
  rw [step, runPending, h]
  rfl

/-- A host read answers some word, the one the read map gives where it gives one, and moves the environment's side only. -/
theorem answerRead_frame (ra : Word) :
    ∃ w, answerRead P ra s = { s with host := (answerRead P ra s).host } ∧
      (answerRead P ra s).host.pending = s.host.pending ∧ (answerRead P ra s).host.rdData = some w ∧
      ∀ v, readPort P s ra = .word v → w = v := by
  cases hr : readPort P s ra with
  | word v => rw [answerRead_word s hr]; exact ⟨v, rfl, rfl, rfl, fun _ e => by cases e; rfl⟩
  | unwritten => rw [answerRead_unwritten s hr]; exact ⟨_, rfl, rfl, rfl, nofun⟩

end Sys2Proof.Machine

namespace Sys2Proof.Proofs

open Sys2Proof.Machine

/-- Settles O12, window by window. -/
theorem readPortShowsTheStores : Obligations.ReadPortShowsTheStores := by
  intro P s hP
  refine ⟨?_, ?_, ?_, ?_, ?_⟩
  · intro a
    have := a.isLt
    rw [readPort_ofNat P s (by omega) (by omega), readStores_freq]
  · intro i c hi hc
    rw [readPort_path s hP hi, hc]; rfl
  · intro i r hi hr
    obtain ⟨hlow, hhigh⟩ := readPort_node s hP hi
    rw [BitVec.ofNat_toNat, BitVec.setWidth_eq, hr] at hlow hhigh
    exact ⟨hlow, hhigh⟩
  · intro k b hk hb
    rw [readPort_out s hP hk, hb]; rfl
  · intro ra h
    rw [readPort_stores P s (by omega), readStores_unmapped s hP h]

/-- Settles O13, window by window. -/
theorem unwrittenEntriesHoldNoValue : Obligations.UnwrittenEntriesHoldNoValue := by
  intro P s hP
  refine ⟨?_, ?_, ?_, ?_⟩
  · intro i hi hlen
    rw [readPort_path s hP hi, pathAt_unwritten s hlen]; rfl
  · intro i hi hcnt
    obtain ⟨hmax, _, _⟩ := params_le hP
    have hidx : (BitVec.ofNat 10 i).toNat = i := by rw [BitVec.toNat_ofNat]; omega
    obtain ⟨hlow, hhigh⟩ := readPort_node s hP hi
    rw [nodeAt_unwritten s (by omega)] at hlow hhigh
    exact ⟨hlow, hhigh⟩
  · intro k hk hlen
    rw [readPort_out s hP hk, outAt_unwritten s hlen]; rfl
  · intro ra h
    rw [answerRead_unwritten s h]
    exact ⟨rfl, rfl⟩

/-- Settles O9. -/
theorem hostReadChangesNoState : Obligations.HostReadChangesNoState := by
  intro s ra rest h
  obtain ⟨w, hframe, hpending, hdata, hword⟩ := answerRead_frame (P := Config.params) (withPending s rest) ra
  exact ⟨_, w, step_read s h, hframe, hpending, hdata, hword⟩

/-- Settles O10: each address is a row of the read map. -/
theorem readPortShowsTheRegisters : Obligations.ReadPortShowsTheRegisters :=
  fun _ _ => ⟨rfl, rfl, rfl, rfl, rfl, rfl, rfl, rfl, rfl, rfl, rfl, rfl, rfl, rfl⟩

end Sys2Proof.Proofs
end

section
/-! PROOF. The fields of the packed words of the read port, its codes, and the reset state. -/

namespace Sys2Proof.Machine

/-- The STATUS word's packing (R41): five flags above the mode code, 24 zero bits above them. -/
theorem statusPacking (p f m v t : Bool) (c : BitVec 3) :
    let w : BitVec (24 + 1 + 1 + 1 + 1 + 1 + 3) :=
      (0 : BitVec 24) ++ BitVec.ofBool p ++ BitVec.ofBool f ++ BitVec.ofBool m ++ BitVec.ofBool v ++ BitVec.ofBool t ++ c
    w.extractLsb' 0 3 = c ∧ w[3] = t ∧ w[4] = v ∧ w[5] = m ∧ w[6] = f ∧ w[7] = p ∧ w.extractLsb' 8 24 = 0 := by
  intro w
  have hzero : w.extractLsb' 8 24 = 0 := by
    simp (disch := decide) only [w, BitVec.extractLsb'_append_eq_of_le]
    exact BitVec.extractLsb'_eq_self
  refine ⟨BitVec.extractLsb'_append_eq_right, ?_, ?_, ?_, ?_, ?_, hzero⟩
  all_goals simp only [w, BitVec.getElem_append, BitVec.getElem_ofBool]; rfl

/-- The node low word's packing (R43): the symbol code, a zero bit, the two children, two zero bits. -/
theorem nodePacking (right left : BitVec 10) (sym : BitVec 9) :
    let w : BitVec (2 + 10 + 10 + 1 + 9) := (0 : BitVec 2) ++ right ++ left ++ (0 : BitVec 1) ++ sym
    w.extractLsb' 0 9 = sym ∧ w[9] = false ∧ w.extractLsb' 10 10 = left ∧ w.extractLsb' 20 10 = right ∧
      w.extractLsb' 30 2 = 0 := by
  intro w
  refine ⟨BitVec.extractLsb'_append_eq_right, ?_, ?_, ?_, ?_⟩
  · simp only [w, BitVec.getElem_append]; rfl
  · simp (disch := decide) only [w, BitVec.extractLsb'_append_eq_of_le]
    exact BitVec.extractLsb'_append_eq_right
  · simp (disch := decide) only [w, BitVec.extractLsb'_append_eq_of_le]
    exact BitVec.extractLsb'_append_eq_right
  · simp (disch := decide) only [w, BitVec.extractLsb'_append_eq_of_le]
    exact BitVec.extractLsb'_eq_self

theorem statusWord_modeBits (s : State) : (statusWord s).extractLsb' 0 3 = modeCode s.mode :=
  (statusPacking _ _ _ _ _ _).1

end Sys2Proof.Machine

namespace Sys2Proof.Proofs

open Sys2Proof.Machine

/-- Settles O11: the two code tables, name by name and mode by mode. -/
theorem errorAndModeCodes : Obligations.ErrorAndModeCodes := by
  intro P s
  constructor
  · show ReadAnswer.word (zext32 (errCodeByte s.errCode)) = _
    cases s.errCode with
    | none => rfl
    | some e => cases e <;> rfl
  · rw [statusWord_modeBits]
    cases s.mode <;> rfl

/-- Settles O14. -/
theorem statusWordFields : Obligations.StatusWordFields := by
  intro s
  obtain ⟨hmode, htree, hvalid, hmid, hfault, hpath, hzero⟩ := statusPacking (pathneFlag s) (faultFlag s) (midpathFlag s)
    s.outValid (treeFlag s) (modeCode s.mode)
  have hflag : midpathFlag s = decide (s.mode = .decode ∧ s.cur ≠ s.root) := by simp [midpathFlag]
  exact ⟨hmode, htree, hvalid, hmid.trans hflag, hfault, hpath, hzero⟩

/-- Settles O15. -/
theorem nodeLowWordFields : Obligations.NodeLowWordFields := by
  intro r
  obtain ⟨hsym, hbit, hleft, hright, hzero⟩ := nodePacking r.right r.left (symCode r.sym)
  refine ⟨hsym.trans ?_, hbit, hleft, hright, hzero⟩
  cases r.sym <;> rfl

/-- Settles O16: FREQ is all zero, and every counter is 0. -/
theorem resetValues : Obligations.ResetValues := by
  have hfreq : ∀ a, freqAt State.reset a = 0 := fun a => by simp [freqAt, State.reset]
  exact ⟨rfl, rfl, rfl, rfl, rfl, rfl, rfl, rfl, rfl, rfl, rfl, hfreq, fun _ => nodeAt_unwritten _ (Nat.zero_le _),
    fun _ => pathAt_unwritten _ (Nat.zero_le _), fun _ => outAt_unwritten _ (Nat.zero_le _), rfl⟩

end Sys2Proof.Proofs
end

section
/-! PROOF. No command stops the model on a state with the invariants: every entry it reads is written and no counter is
above its capacity (20_memory.md R62, R66). -/

namespace Sys2Proof.Machine

/-! ### The entries the commands read are written (R66) -/

theorem StoresInv.nodeAt_written {s : State} (h : StoresInv s) {i : Idx} (hi : i.toNat < s.nodeCnt.toNat) :
    ∃ r, nodeAt s i = some r :=
  nodeAt_of_range h.nodes hi

theorem StoresInv.pathAt_written {s : State} (h : StoresInv s) {i : Nat} (hi : i < s.pLen.toNat) :
    pathAt s i ≠ none := by
  obtain ⟨c, hc⟩ := Memory.read_of_range s.path _ _ h.path hi
  simp [pathAt, hi, hc]

/-- INSERT reads PATH below PLEN only. -/
theorem StoresInv.recordPath_written {s : State} (h : StoresInv s) : ∃ p, recordPath s = some p :=
  pathFrom_some fun j hj => by rw [Nat.zero_add]; exact h.pathAt_written hj

/-- In a decode session CUR stands on a written node: ROOT, or where the last DBIT went (R37). -/
theorem Inv.cursor_written {s : State} (h : Inv s) (hm : s.mode = .decode) : ∃ r, nodeAt s s.cur = some r := by
  by_cases hc : s.cur = s.root
  · rw [hc]
    exact h.stores.nodeAt_written (h.tree.rootWritten (h.modes.decode hm).1)
  · obtain ⟨r, hr, _⟩ := h.cursor hm hc
    exact ⟨r, hr⟩

/-- The child fields of a written node are NIL or lead to written nodes (R36 (b)). -/
theorem Inv.child_written {s : State} (h : Inv s) {n : Idx} {r : Node} {b : Side} (hr : nodeAt s n = some r)
    (hc : r.child b ≠ NIL) : ∃ rc, nodeAt s (r.child b) = some rc :=
  h.stores.nodeAt_written (h.tree.childWritten _ _ _ (childOf_of_nodeAt hr hc))

/-! ### The bodies that read a store or test its room -/

theorem room_ne_beyond {count cap : Nat} (h : count ≤ cap) : room count cap ≠ .beyond := by
  rcases room_cases count cap with ⟨e, _⟩ | ⟨e, _⟩ | ⟨_, hlt⟩
  · simp [e]
  · simp [e]
  · omega

/-- PPUSH writes outside PATH only from a PLEN above the capacity. -/
theorem ppushBody_safe {P : Config.Params} {a : Byte} {s : State} (h : s.pLen.toNat ≤ P.pathMax) :
    ∃ t, ppushBody P a s = .next t := by
  unfold ppushBody
  split
  · exact ⟨_, rfl⟩
  · exact ⟨_, rfl⟩
  · exact absurd (by assumption) (room_ne_beyond h)

/-- Step 3 of INSERT reads the terminal node only. -/
theorem markTerminal_safe {a : Byte} {n : Idx} {s : State} (h : ∃ r, nodeAt s n = some r) :
    ∃ t, markTerminal a n s = .next t := by
  obtain ⟨r, hr⟩ := h
  simp only [markTerminal, hr]
  split
  · split <;> exact ⟨_, rfl⟩
  · split
    · split <;> exact ⟨_, rfl⟩
    · exact ⟨_, rfl⟩

/-- INSERT reads PATH below PLEN, then walks written nodes from ROOT to the terminal one. -/
theorem Inv.insertBody_safe {a : Byte} {s : State} (h : Inv s) (hm : s.mode = .load) :
    ∃ t, insertBody Config.params a s = .next t := by
  obtain ⟨p, hp⟩ := h.stores.recordPath_written
  simp only [insertBody, hp]
  split
  · exact ⟨_, rfl⟩
  · split
    · exact ⟨_, rfl⟩
    · have start := LoadWalk.start h.stores.nodes h.tree (h.modes.load hm) h.bounds.nodes
      rcases walk_safe (a := a) p 0 s.root s start with ⟨t, hw⟩ | ⟨n, s', hw, hend⟩ <;> simp only [hw]
      · exact ⟨t, rfl⟩
      · exact markTerminal_safe (nodeAt_of_range hend.keys hend.here)

/-- DBIT's last stage writes outside OUT only from an OUTLEN above the capacity. -/
theorem arrive_safe {P : Config.Params} {c : Idx} {r : Node} {s : State} (h : s.outLen.toNat ≤ P.outMax) :
    ∃ t, arrive P c r s = .next t := by
  unfold arrive
  split
  · split
    · exact ⟨_, rfl⟩
    · exact ⟨_, rfl⟩
    · exact absurd (by assumption) (room_ne_beyond h)
  · exact ⟨_, rfl⟩

/-- DBIT reads CUR and the child it goes to. -/
theorem Inv.dbitBody_safe {a : Byte} {s : State} (h : Inv s) (hm : s.mode = .decode) :
    ∃ t, dbitBody Config.params a s = .next t := by
  obtain ⟨r, hr⟩ := h.cursor_written hm
  simp only [dbitBody, hr]
  split
  · exact ⟨_, rfl⟩
  · split
    · exact ⟨_, rfl⟩
    · rename_i hc
      obtain ⟨rc, hrc⟩ := h.child_written hr hc
      simp only [hrc]
      exact arrive_safe h.bounds.out

/-! ### Commands and steps -/

/-- BUILD reads FREQ only, and makes its tree in an emptied arena. -/
theorem buildBody_safe (P : Config.Params) (s : State) : ∃ t, buildBody P s = .next t := by
  simp only [buildBody]
  split
  · exact ⟨_, rfl⟩
  · split
    · exact ⟨_, rfl⟩
    · split <;> exact ⟨_, rfl⟩

/-- No command's pseudocode stops in a mode that lets it run: only PPUSH, INSERT and DBIT could. -/
theorem Inv.bodyOf_safe {i : Instr} {s : State} (h : Inv s) (ha : access i s.mode = .run) :
    ∃ t, bodyOf i s = .next t := by
  cases i with
  | nop | reset | eclr | tdrop | fclr | lbegin | lend => exact ⟨_, rfl⟩
  | fadd a imm => simp only [bodyOf, faddBody]; split <;> exact ⟨_, rfl⟩
  | build => exact buildBody_safe _ s
  | dbegin => simp only [bodyOf, dbeginBody]; split <;> exact ⟨_, rfl⟩
  | dend => simp only [bodyOf, dendBody]; split <;> exact ⟨_, rfl⟩
  | ppush a => exact ppushBody_safe h.bounds.path
  | insert a => exact h.insertBody_safe (loadRow_run.1 ha)
  | dbit a => exact h.dbitBody_safe (decodeRow_run.1 ha)

theorem Inv.exec_safe {s : State} (h : Inv s) (i : Instr) : ∃ t, Machine.exec i s = .next t := by
  rw [exec_guarded]
  exact guarded_safe h.bodyOf_safe

/-- An illegal word raises or is dropped (R236, R243). -/
theorem illegalWord_safe (w : Word) (s : State) : ∃ t, illegalWord w s = .next t := by
  unfold illegalWord
  split <;> exact ⟨_, rfl⟩

/-- No event of the host stops the model: a read and `rst` never do, a word decodes to a command or is illegal. -/
theorem Inv.runEvent_safe {s : State} (h : Inv s) (e : HostEvent) : ∃ t, runEvent e s = .next t := by
  cases e with
  | read ra => exact ⟨_, rfl⟩
  | rst => exact ⟨_, rfl⟩
  | cmd w =>
    simp only [runEvent, runWord]
    split
    · exact h.exec_safe _
    · exact illegalWord_safe w s

theorem Inv.safeStep {s : State} (h : Inv s) : SafeStep s := by
  unfold SafeStep Machine.step runPending
  split
  · exact ⟨s, rfl⟩
  · exact (h.withPending _).runEvent_safe _

end Sys2Proof.Machine

namespace Sys2Proof.Proofs

open Sys2Proof.Machine

/-- Settles O50: only PPUSH, INSERT and DBIT could stop, and the invariants rule each stop out. -/
theorem invariantMakesStepsSafe : Obligations.InvariantMakesStepsSafe := fun _ h => h.safeStep

end Sys2Proof.Proofs
end

section
/-! PROOF. The tree is fixed in a decode session (20_memory.md R72). -/

namespace Sys2Proof.Machine

/-- Two states with the same tree: NODE, NODECNT and ROOT. -/
def SameTree (s t : State) : Prop := t.node = s.node ∧ t.nodeCnt = s.nodeCnt ∧ t.root = s.root

/-- No command that moves the tree runs in DECODE mode but RESET, and fault entry there discards the output only (R230). -/
theorem Answer.sameTree {i : Instr} {s t : State} (h : Answer s i t) (hm : s.mode = .decode) (hr : i ≠ .reset) :
    SameTree s t := by
  have hq : ¬ Quiet s := by simp [Quiet, hm]
  have hl : s.mode ≠ .load := by simp [hm]
  cases h with
  | reset => exact absurd rfl hr
  | tdrop hq' | buildFault hq' _ | build hq' _ | lbegin hq' | dbeginFault hq' => exact absurd hq' hq
  | insert hl' _ _ _ => exact absurd hl' hl
  | faulted _ _ => simp [SameTree, hl]
  | kept | eclr _ | fclr _ | fadd _ | ppush _ _ | lend _ | dbegin _ _ | emit _ _ | descend _ _ _ | dend _ _ =>
    exact ⟨rfl, rfl, rfl⟩

end Sys2Proof.Machine

namespace Sys2Proof.Proofs

open Sys2Proof.Machine

/-- Settles O47. -/
theorem treeIsFixedWhileDecoding : Obligations.TreeIsFixedWhileDecoding :=
  fun _ _ _ hm hr hx => (exec_answer hx).sameTree hm hr

end Sys2Proof.Proofs
end

section
/-! PROOF. Decode and encode (30_encoding.md R80 to R86): decoding searches a list of rows, and a row is an op field with
the zero fields of its format at 0. -/

namespace Sys2Proof

/-! ### Decoding as a search in the opcode map -/

/-- R83's rows in order, each with the operands R82 reads from the word. -/
def opcodeRows (w : Word) : List Instr :=
  [.nop, .reset, .eclr, .tdrop, .fclr, .fadd (aField w) (immField w), .build, .lbegin, .ppush (aField w),
    .insert (aField w), .lend, .dbegin, .dbit (aField w), .dend]

/-- The word is of the command's row: `(w & mask) = match` (R83). -/
abbrev IsRow (w : Word) (i : Instr) : Prop := w &&& rowMask i = rowMatch i

/-- Why a word of no row is illegal (R85). -/
def illegalReason (w : Word) : Illegal :=
  if opField w = 0xE ∨ opField w = 0xF then .reservedOp else .nonzeroField

/-- A search one element at a time, as the `if` chain of `decode` writes it. -/
theorem elim_find_cons (p : Instr → Bool) (i : Instr) (rows : List Instr) (d : Decoded) :
    ((i :: rows).find? p).elim d .instr = if p i then .instr i else (rows.find? p).elim d .instr := by
  by_cases h : p i <;> simp [List.find?, h]

/-- Decoding takes the first row the word is of, and finds the word illegal if there is none (R84). -/
theorem decode_eq_find (w : Word) :
    decode w = ((opcodeRows w).find? (IsRow w ·)).elim (.illegal (illegalReason w)) .instr := by
  simp only [opcodeRows, elim_find_cons, List.find?_nil, Option.elim_none, decide_eq_true_eq, illegalReason,
    apply_ite Decoded.illegal]
  rfl

/-- A match value names one row of the map (R84: the rows differ in `op`). -/
theorem eq_of_rowMatch_eq {w : Word} {i j : Instr} (hi : i ∈ opcodeRows w) (hj : j ∈ opcodeRows w)
    (h : rowMatch i = rowMatch j) : i = j := by
  have hnodup : ((opcodeRows w).map rowMatch).Nodup := by
    simp only [opcodeRows, List.map, rowMatch]
    decide
  exact List.inj_on_of_nodup_map hnodup hi hj h

/-- A word decodes to a command exactly when it is of the command's row and the operands are its fields. -/
theorem decode_eq_instr_iff {w : Word} {i : Instr} : decode w = .instr i ↔ i ∈ opcodeRows w ∧ IsRow w i := by
  rw [decode_eq_find]
  cases hf : (opcodeRows w).find? (IsRow w ·) with
  | none =>
    have hnone := List.find?_eq_none.1 hf
    simpa using hnone i
  | some j =>
    have hmem := List.mem_of_find?_eq_some hf
    have hrow : IsRow w j := by simpa using List.find?_some hf
    simp only [Option.elim_some, Decoded.instr.injEq]
    constructor
    · rintro rfl
      exact ⟨hmem, hrow⟩
    · rintro ⟨hmem', hrow'⟩
      exact eq_of_rowMatch_eq hmem hmem' (rows_disjoint hrow hrow')

/-- A word is illegal exactly when it is of no row. -/
theorem decode_eq_illegal_iff {w : Word} {why : Illegal} :
    decode w = .illegal why ↔ illegalReason w = why ∧ ∀ i ∈ opcodeRows w, ¬ IsRow w i := by
  rw [decode_eq_find]
  cases hf : (opcodeRows w).find? (IsRow w ·) with
  | none =>
    have hnone : ∀ i ∈ opcodeRows w, ¬ IsRow w i := by simpa using hf
    exact ⟨fun h => ⟨Decoded.illegal.inj h, hnone⟩, fun h => congrArg _ h.1⟩
  | some j =>
    have hrow : IsRow w j := by simpa using List.find?_some hf
    exact ⟨nofun, fun h => absurd hrow (h.2 j (List.mem_of_find?_eq_some hf))⟩

/-! ### A row in terms of the fields of a word -/

/-- The op column of R83. -/
def rowOp : Instr → BitVec 4
  | .nop => 0x0
  | .reset => 0x1
  | .eclr => 0x2
  | .tdrop => 0x3
  | .fclr => 0x4
  | .fadd _ _ => 0x5
  | .build => 0x6
  | .lbegin => 0x7
  | .ppush _ => 0x8
  | .insert _ => 0x9
  | .lend => 0xA
  | .dbegin => 0xB
  | .dbit _ => 0xC
  | .dend => 0xD

/-- A match value is its op above 28 zero bits. -/
theorem rowMatch_eq_formatZ (i : Instr) : rowMatch i = formatZ (rowOp i) := by
  apply BitVec.eq_of_toNat_eq
  rw [formatZ_toNat]
  cases i <;> simp [rowMatch, rowOp]

/-- A bit of a zero field of the format of `op` is 1 (R81, R85). -/
def ZeroFieldSet (op : BitVec 4) (w : Word) : Prop :=
  if op = 0x5 then w.extractLsb' 24 4 ≠ 0#4
  else if op = 0x8 ∨ op = 0x9 ∨ op = 0xC then w.extractLsb' 24 4 ≠ 0#4 ∨ w.extractLsb' 0 16 ≠ 0#16
  else w.extractLsb' 0 28 ≠ 0#28

/-- The four fields of formats S and SI make the word. -/
theorem toNat_eq_fields (w : Word) : w.toNat = (opField w).toNat * 268435456 + (w.extractLsb' 24 4).toNat * 16777216 +
    (aField w).toNat * 65536 + (immField w).toNat := by
  rw [opField_toNat, aField_toNat, immField_toNat, BitVec.extractLsb'_toNat, Nat.shiftRight_eq_div_pow]
  omega

/-- Format Z's row: op, and 0 in the 28 bits below. -/
theorem and_maskZ_eq_iff {w : Word} {op : BitVec 4} :
    w &&& maskZ = formatZ op ↔ opField w = op ∧ w.extractLsb' 0 28 = 0#28 := by
  rw [and_maskZ]
  simp only [← BitVec.toNat_inj, formatZ_toNat, opField_toNat, BitVec.extractLsb'_toNat,
    Nat.shiftRight_zero, BitVec.toNat_ofNat]
  omega

/-- Format SI's row: op, and 0 in the four bits below. -/
theorem and_maskSI_eq_iff {w : Word} {op : BitVec 4} :
    w &&& maskSI = formatZ op ↔ opField w = op ∧ w.extractLsb' 24 4 = 0#4 := by
  simp only [← BitVec.toNat_inj, and_maskSI_toNat, formatZ_toNat, opField_toNat, BitVec.extractLsb'_toNat,
    Nat.shiftRight_eq_div_pow, BitVec.toNat_ofNat]
  omega

/-- Format S's row: op, and 0 in the four bits below and the low half. -/
theorem and_maskS_eq_iff {w : Word} {op : BitVec 4} :
    w &&& maskS = formatZ op ↔ opField w = op ∧ w.extractLsb' 24 4 = 0#4 ∧ w.extractLsb' 0 16 = 0#16 := by
  simp only [← BitVec.toNat_inj, and_maskS_toNat, formatZ_toNat, opField_toNat, BitVec.extractLsb'_toNat,
    Nat.shiftRight_eq_div_pow, BitVec.toNat_ofNat]
  omega

/-- A word is of a row exactly when it has the row's op and no bit of a zero field of its format set. -/
theorem isRow_iff (w : Word) (i : Instr) : IsRow w i ↔ opField w = rowOp i ∧ ¬ ZeroFieldSet (rowOp i) w := by
  rw [IsRow, rowMatch_eq_formatZ]
  cases i with
  | fadd a imm => exact and_maskSI_eq_iff.trans (and_congr_right' not_not.symm)
  | ppush _ | insert _ | dbit _ => exact and_maskS_eq_iff.trans (and_congr_right' (by simp [ZeroFieldSet, rowOp]))
  | nop | reset | eclr | tdrop | fclr | build | lbegin | lend | dbegin | dend =>
    exact and_maskZ_eq_iff.trans (and_congr_right' not_not.symm)

/-! ### What the encoder writes -/

theorem aField_formatSI (op : BitVec 4) (a : Byte) (imm : Imm) : aField (formatSI op a imm) = a := by
  apply BitVec.eq_of_toNat_eq
  rw [aField_toNat, formatSI_toNat]
  omega

theorem immField_formatSI (op : BitVec 4) (a : Byte) (imm : Imm) : immField (formatSI op a imm) = imm := by
  apply BitVec.eq_of_toNat_eq
  rw [immField_toNat, formatSI_toNat]
  omega

theorem aField_formatS (op : BitVec 4) (a : Byte) : aField (formatS op a) = a := aField_formatSI op a 0

/-- A command's word has the command's operands as its fields. -/
theorem mem_opcodeRows_encode (i : Instr) : i ∈ opcodeRows (encode i) := by
  cases i with
  | fadd _ _ => simp [opcodeRows, encode, aField_formatSI, immField_formatSI]
  | ppush _ | insert _ | dbit _ => simp [opcodeRows, encode, aField_formatS]
  | nop | reset | eclr | tdrop | fclr | build | lbegin | lend | dbegin | dend => simp [opcodeRows]

/-- A command's word is of the command's row. -/
theorem isRow_encode (i : Instr) : IsRow (encode i) i := by
  cases i with
  | fadd a imm => exact Laws.EncodesItsRow.fadd a imm
  | ppush a => exact Laws.EncodesItsRow.ppush a
  | insert a => exact Laws.EncodesItsRow.insert a
  | dbit a => exact Laws.EncodesItsRow.dbit a
  | nop | reset | eclr | tdrop | fclr | build | lbegin | lend | dbegin | dend =>
    rw [IsRow, rowMatch_eq_formatZ]
    exact and_maskZ _

theorem decode_encode (i : Instr) : decode (encode i) = .instr i :=
  decode_eq_instr_iff.2 ⟨mem_opcodeRows_encode i, isRow_encode i⟩

@[simp] theorem tableWord_toNat (w : Word) : tableWord 32 w.toNat = w := by
  rw [tableWord, Nat.mod_eq_of_lt w.isLt, BitVec.ofNat_toNat, BitVec.setWidth_eq]

/-- A word of format SI is its fields. -/
theorem formatSI_fields {w : Word} {op : BitVec 4} (h : w &&& maskSI = formatZ op) :
    formatSI op (aField w) (immField w) = w := by
  obtain ⟨rfl, hzero⟩ := and_maskSI_eq_iff.1 h
  apply BitVec.eq_of_toNat_eq
  rw [toNat_eq_fields w, hzero, formatSI_toNat]
  simp

/-- A word of format S is its op and operand. -/
theorem formatS_fields {w : Word} {op : BitVec 4} (h : w &&& maskS = formatZ op) : formatS op (aField w) = w := by
  obtain ⟨rfl, hzero, himm⟩ := and_maskS_eq_iff.1 h
  have himm : immField w = 0#16 := himm
  apply BitVec.eq_of_toNat_eq
  rw [toNat_eq_fields w, hzero, himm, formatS_toNat]
  simp

/-- The op and the fields of a word of a row leave no bit open. -/
theorem encode_of_isRow {w : Word} {i : Instr} (hi : i ∈ opcodeRows w) (h : IsRow w i) : encode i = w := by
  rw [IsRow, rowMatch_eq_formatZ] at h
  cases i with
  | fadd a imm =>
    obtain ⟨rfl, rfl⟩ : a = aField w ∧ imm = immField w := by simpa [opcodeRows] using hi
    exact formatSI_fields h
  | ppush a | insert a | dbit a =>
    obtain rfl : a = aField w := by simpa [opcodeRows] using hi
    exact formatS_fields h
  | nop | reset | eclr | tdrop | fclr | build | lbegin | lend | dbegin | dend =>
    exact ((and_maskZ w).symm.trans h).symm

/-! ### Which words are of a row -/

/-- Every op but the two reserved ones has a row (R83). -/
theorem exists_rowOp (w : Word) {op : BitVec 4} (h : op ≠ 0xE ∧ op ≠ 0xF) :
    ∃ i ∈ opcodeRows w, rowOp i = op := by
  have hall : ∀ op : BitVec 4, op ≠ 0xE ∧ op ≠ 0xF → op ∈ (opcodeRows w).map rowOp := by
    simp only [opcodeRows, List.map, rowOp]
    decide
  exact List.mem_map.1 (hall op h)

/-- No row has a reserved op. -/
theorem rowOp_not_reserved (i : Instr) : rowOp i ≠ 0xE ∧ rowOp i ≠ 0xF := by
  cases i <;> simp [rowOp]

/-- A word is of no row exactly when its op is reserved or a bit of a zero field is 1 (R85). -/
theorem no_row_iff (w : Word) :
    (∀ i ∈ opcodeRows w, ¬ IsRow w i) ↔ (opField w = 0xE ∨ opField w = 0xF) ∨ ZeroFieldSet (opField w) w := by
  by_cases hres : opField w = 0xE ∨ opField w = 0xF
  · refine iff_of_true (fun i _ hrow => ?_) (.inl hres)
    obtain ⟨hE, hF⟩ := rowOp_not_reserved i
    rw [← ((isRow_iff w i).1 hrow).1] at hE hF
    exact hres.elim hE hF
  · rw [or_iff_right hres]
    constructor
    · intro hnone
      obtain ⟨i, hi, hop⟩ := exists_rowOp w (not_or.1 hres)
      by_contra hzero
      exact hnone i hi ((isRow_iff w i).2 ⟨hop.symm, hop ▸ hzero⟩)
    · intro hzero i _ hrow
      obtain ⟨hop, hclear⟩ := (isRow_iff w i).1 hrow
      exact hclear (hop ▸ hzero)

theorem decode_eq_reservedOp_iff (w : Word) :
    decode w = .illegal .reservedOp ↔ opField w = 0xE ∨ opField w = 0xF := by
  rw [decode_eq_illegal_iff, no_row_iff, illegalReason]
  by_cases hres : opField w = 0xE ∨ opField w = 0xF
  · rw [if_pos hres]
    exact iff_of_true ⟨rfl, .inl hres⟩ hres
  · rw [if_neg hres]
    exact iff_of_false (fun h => nomatch h.1) hres

theorem decode_eq_nonzeroField_iff (w : Word) :
    decode w = .illegal .nonzeroField ↔ (opField w ≠ 0xE ∧ opField w ≠ 0xF) ∧ ZeroFieldSet (opField w) w := by
  rw [decode_eq_illegal_iff, no_row_iff, illegalReason, ← not_or]
  by_cases hres : opField w = 0xE ∨ opField w = 0xF
  · rw [if_pos hres]
    exact iff_of_false (fun h => nomatch h.1) (fun h => h.1 hres)
  · rw [if_neg hres, or_iff_right hres]
    exact and_congr_left' (iff_of_true rfl hres)

end Sys2Proof

namespace Sys2Proof.Proofs

/-- Settles O2: the word is of its command's row, and no word is of two. -/
theorem decodeOfEncodeIsTheCommand : Obligations.DecodeOfEncodeIsTheCommand := by
  intro i
  refine ⟨decode_encode i, ?_⟩
  rw [decodeTableWord, tableWord_toNat, decode_encode]

/-- Settles O3: op, zero fields and operands are the whole word. -/
theorem everyDecodedWordIsItsEncoding : Obligations.EveryDecodedWordIsItsEncoding := by
  intro w i h
  obtain ⟨hmem, hrow⟩ := decode_eq_instr_iff.1 h
  exact encode_of_isRow hmem hrow

/-- Settles O4: the other direction answers the row's command with the operands of the word. -/
theorem decodeFollowsTheOpcodeMap : Obligations.DecodeFollowsTheOpcodeMap := by
  intro w i
  refine ⟨fun h => (decode_eq_instr_iff.1 h).2, fun hrow => ?_⟩
  obtain ⟨j, hmem, hop⟩ := exists_rowOp w (rowOp_not_reserved i)
  have hrow' : IsRow w j := by
    rw [isRow_iff, hop]
    exact (isRow_iff w i).1 hrow
  exact ⟨j, decode_eq_instr_iff.2 ⟨hmem, hrow'⟩, by rw [rowMatch_eq_formatZ, hop, ← rowMatch_eq_formatZ]⟩

/-- Settles O5. -/
theorem illegalWordsExactly : Obligations.IllegalWordsExactly :=
  fun w => ⟨decode_eq_reservedOp_iff w, decode_eq_nonzeroField_iff w⟩

/-- Settles O1: the five legal words are encodings. -/
theorem sampleWordsDecode : Obligations.SampleWordsDecode :=
  ⟨decode_encode (.fadd 0x66 45), decode_encode (.dbit 0x31), decode_encode (.insert 0x61), decode_encode (.ppush 0x78),
    decode_encode .build, by decide, by decide⟩

end Sys2Proof.Proofs
end

section
/-! PROOF. The system commands NOP, RESET, ECLR and TDROP (40_system_commands.md R110 to R113). -/

namespace Sys2Proof.Machine

/-- A command whose pseudocode raises no CommandSequenceError of its own is in mode wherever R241 lets it run. -/
theorem InMode.of_body {i : Instr} {s : State} (ha : access i s.mode = .run)
    (hbody : ∀ t, bodyOf i s = .next t → s.errCode ≠ some .commandSequence → t.errCode ≠ some .commandSequence) :
    InMode i s := fun t hx => hbody t ((exec_run ha).symm.trans hx)

/-- The row of R241 that runs in IDLE and READY decides every mode but what the pseudocode does there. -/
theorem RunsWhenQuiet.of_row {i : Instr} (hrow : access i = accessRow .run .seq .run .seq .drop)
    (hquiet : ∀ s, Quiet s → InMode i s) : RunsWhenQuiet i where
  quiet := hquiet
  load s hm := by rw [exec_seq (by rw [hrow, hm]; rfl), raise_load _ _ _ hm]
  decode s hm := by rw [exec_seq (by rw [hrow, hm]; rfl), raise_decode _ _ _ hm]
  fault s hm := exec_drop (by rw [hrow, hm]; rfl)

/-- TDROP in IDLE and READY (R113). -/
theorem exec_tdrop {s : State} (hq : Quiet s) : exec .tdrop s = .next { discardTree s with mode := .idle } :=
  exec_run (i := .tdrop) (quietRow_run.2 hq)

/-- TDROP leaves ERRCODE as it is, so it raises nothing where it runs. -/
theorem runsWhenQuiet_tdrop : RunsWhenQuiet .tdrop := by
  refine .of_row rfl fun s hq => .of_body (quietRow_run.2 hq) ?_
  rintro t ⟨⟩ hs
  exact hs

/-- The fault line is low outside FAULT mode (R250). -/
theorem faultLine_eq_false_iff {s : State} : faultLine s = false ↔ s.mode ≠ .fault := decide_eq_false_iff_not

/-- The return from a fault leads to IDLE or READY (R112). -/
theorem clearFault_mode_ne_fault (s : State) : (clearFault s).mode ≠ .fault := by
  rw [clearFault_mode]
  split <;> decide

end Sys2Proof.Machine

namespace Sys2Proof.Proofs

open Sys2Proof.Machine

/-- Settles O21. -/
theorem nopChangesNothing : Obligations.NopChangesNothing := ⟨decode_encode .nop, exec_nop⟩

/-- Settles O22. -/
theorem resetCommandResets : Obligations.ResetCommandResets := ⟨decode_encode .reset, exec_reset⟩

/-- Settles O23, by whether the state is in FAULT mode. -/
theorem eclrReturnsFromTheFault : Obligations.EclrReturnsFromTheFault := by
  refine ⟨decode_encode .eclr, fun s => ?_⟩
  rw [exec_eclr]
  by_cases hm : s.mode = .fault
  · rw [if_pos hm]
    refine ⟨fun _ => rfl, fun hne => absurd hm hne, ?_⟩
    rintro t ⟨⟩
    exact faultLine_eq_false_iff.2 (clearFault_mode_ne_fault s)
  · rw [if_neg hm]
    refine ⟨fun h => absurd h hm, fun _ => rfl, ?_⟩
    rintro t ⟨⟩
    exact faultLine_eq_false_iff.2 hm

/-- Settles O24: what TDROP leaves is `discardTree` in IDLE mode. -/
theorem tdropReleasesTheTree : Obligations.TdropReleasesTheTree :=
  ⟨decode_encode .tdrop, runsWhenQuiet_tdrop,
    fun s hq => ⟨exec_tdrop hq, nodeAt_discardTree { s with mode := .idle }⟩⟩

end Sys2Proof.Proofs
end

section
/-! PROOF. The frequency table: FCLR and FADD (41_frequency_and_build.md R130, R131). -/

namespace Sys2Proof.Machine

/-- A command of the row that runs in IDLE and READY raises CommandSequenceError elsewhere only. -/
theorem RunsWhenQuiet.of_access {i : Instr} (hrow : access i = accessRow .run .seq .run .seq .drop) : RunsWhenQuiet i := by
  refine .of_row hrow fun s hq => ?_
  have ha : access i s.mode = .run := by rw [hrow]; exact quietRow_run.2 hq
  exact .of_body ha fun t => bodyOf_errCode ha

/-- A multiple of 2^k and a number below 2^k share no bit. -/
theorem mul_or_of_lt {k n : Nat} (m : Nat) (h : n < 2 ^ k) : m * 2 ^ k ||| n = m * 2 ^ k + n := by
  rw [← Nat.shiftLeft_eq, Nat.shiftLeft_add_eq_or_of_lt h]

/-- FADD's word by shifts (30_encoding.md R81, R83). -/
theorem fadd_word (a : Byte) (imm : Imm) :
    (0x5 : Word) <<< 28 ||| a.setWidth 32 <<< 16 ||| imm.setWidth 32 = encode (.fadd a imm) := by
  have ha := a.isLt
  have himm := imm.isLt
  refine BitVec.eq_of_toNat_eq ((?_ : _ = _).trans (formatSI_toNat 0x5 a imm).symm)
  calc _ = 5 * 2 ^ 28 ||| a.toNat * 2 ^ 16 ||| imm.toNat := by
        simp (disch := omega) [Nat.mod_eq_of_lt, Nat.shiftLeft_eq]
    _ = (5 * 2 ^ 12 + a.toNat) * 2 ^ 16 ||| imm.toNat := by
        rw [mul_or_of_lt 5 (by omega), Nat.add_mul, Nat.mul_assoc, ← Nat.pow_add]
    _ = (5 * 2 ^ 12 + a.toNat) * 2 ^ 16 + imm.toNat := mul_or_of_lt _ himm
    _ = 5 * 268435456 + a.toNat * 65536 + imm.toNat := by omega

/-- A FADD in IDLE or READY whose sum does not fit. -/
theorem exec_fadd_overflows {s : State} {a : Byte} {imm : Imm} (hq : Quiet s)
    (hfull : 4294967296 ≤ (freqAt s a).toNat + imm.toNat) :
    exec (.fadd a imm) s = .next (plainFault s .weightOverflow (zext32 a) 0) := by
  rw [exec_run (i := .fadd a imm) (quietRow_run.2 hq), ← raise_quiet _ _ _ hq]
  simp only [bodyOf, faddBody, faddSum_eq]
  exact if_pos hfull

end Sys2Proof.Machine

namespace Sys2Proof.Proofs

open Sys2Proof.Machine

/-- Settles O25. -/
theorem fclrClearsEveryEntry : Obligations.FclrClearsEveryEntry :=
  ⟨decode_encode .fclr, .of_access rfl, fun _ hq => ⟨_, exec_fclr hq, rfl, fun _ => Vector.getElem_replicate _⟩⟩

/-- Settles O26, by whether the sum fits. -/
theorem faddAddsExactlyOrFaults : Obligations.FaddAddsExactlyOrFaults := by
  intro a imm
  refine ⟨fadd_word a imm ▸ decode_encode _, .of_access rfl, fun s hq => ⟨fun hfit => ?_, exec_fadd_overflows hq⟩⟩
  refine ⟨_, exec_fadd_fits hq hfit, rfl, ?_, fun b hb => ?_⟩
  · rw [freqAt_setFreq, if_pos rfl, BitVec.toNat_ofNat, Nat.mod_eq_of_lt hfit]
  · rw [freqAt_setFreq, if_neg hb]

end Sys2Proof.Proofs
end

section
/-! PROOF. The tree BUILD makes: what its merges keep, and the shape they leave (41_frequency_and_build.md R135 to R138). -/

namespace Sys2Proof.Machine

/-! ### BUILD in IDLE and READY -/

theorem exec_build {s : State} (hq : Quiet s) : exec .build s = buildBody Config.params s :=
  exec_run (i := .build) (quietRow_run.2 hq)

theorem exec_build_accepts {s : State} (hq : Quiet s) (hf : SomeFrequency s) (hsum : frequencySum s < 4294967296) :
    exec .build s = .next (built s) :=
  (exec_build hq).trans (buildBody_accepts ((symbolCount_pos s).2 hf) hsum)

/-- BUILD test by test, in the order of R135. -/
theorem buildBody_eq (P : Config.Params) (s : State) :
    buildBody P s =
      if symbolCount s = 0 then .next (plainFault (discardTree s) .emptyInput 0 0)
      else if P.nodeN < nodesNeeded (symbolCount s) then .next (plainFault (discardTree s) .nodeMemoryFull 0x100 0)
      else if 4294967296 ≤ frequencySum s then .next (plainFault (discardTree s) .weightOverflow 0x100 0)
      else .next (built s) := by
  have hraise : ∀ e info, raise e info 0 { discardTree s with mode := .idle } = plainFault (discardTree s) e info 0 :=
    fun _ _ => raise_quiet _ _ _ (.inl rfl)
  simp only [buildBody, presentSymbols_length, freqTotal_eq, raised, hraise]
  rfl

/-- The machine's arena has room for every tree over bytes (00_scope.md R6). -/
theorem nodesNeeded_le (s : State) : nodesNeeded (symbolCount s) ≤ Config.params.nodeN := by
  have := symbolCount_le s
  rw [params_nodeN, nodesNeeded]
  split <;> omega

/-- With two symbols or more the tree comes out of the merge loop, which carries any invariant of the arena and Q along. -/
theorem built_merges (I : State → List Key → Prop) {s : State} (h2 : 2 ≤ symbolCount s)
    (start : I (allocLeaves (presentSymbols s.freq) { discardTree s with mode := .idle })
      (leafKeys (presentSymbols s.freq)))
    (merge : ∀ s q x q1 y q2, Forest s q → I s q → popLeast q = some (x, q1) → popLeast q1 = some (y, q2) →
      I (alloc (mergedNode x y) s) (keyOf s.nodeCnt (mergedNode x y) :: q2)) :
    ∃ s' x, Forest s' [x] ∧ I s' [x] ∧ built s = { s' with root := x.idx, mode := .ready } := by
  have hlen := presentSymbols_length s
  obtain ⟨s', x, hf, hI, he⟩ := growTree_forest I (l := presentSymbols s.freq) rfl rfl
    (hlen.trans_le (symbolCount_le s)) (hlen ▸ h2) start merge
  exact ⟨s', x, hf, hI, by rw [built, he]⟩

/-- The state BUILD leaves over one symbol: the leaf and the wrapper root (R137). -/
def singleTree (s : State) (a : Byte) (w : Word) : State :=
  { s with mode := .ready, root := 1, nodeCnt := 2, node := [(0, leafNode a w), (1, ⟨none, w, 0, NIL⟩)] }

theorem built_single {s : State} {a : Byte} {w : Word} (h : presentSymbols s.freq = [(a, w)]) :
    built s = singleTree s a w := by
  rw [built, h, growTree_single a w _ rfl rfl]
  rfl

theorem exists_single {s : State} (h1 : symbolCount s = 1) : ∃ a w, presentSymbols s.freq = [(a, w)] := by
  rw [← presentSymbols_length, List.length_eq_one_iff] at h1
  obtain ⟨⟨a, w⟩, h⟩ := h1
  exact ⟨a, w, h⟩

/-- Over one symbol the present symbols are that symbol. -/
theorem presentSymbols_single {s : State} {a : Byte} (ha : freqAt s a ≠ 0) (hb : ∀ b, b ≠ a → freqAt s b = 0) :
    presentSymbols s.freq = [(a, freqAt s a)] := by
  have hnodup : (presentSymbols s.freq).Nodup := (presentSymbols_ascending s).imp (by rintro p _ h rfl; omega)
  refine List.perm_singleton.1 ((List.perm_ext_iff_of_nodup hnodup (List.nodup_singleton _)).2 ?_)
  rintro ⟨b, w⟩
  rw [mem_presentSymbols, List.mem_singleton, Prod.mk.injEq]
  constructor
  · rintro ⟨rfl, hw⟩
    obtain rfl : b = a := by_contra fun hne => hw (hb b hne)
    exact ⟨rfl, rfl⟩
  · rintro ⟨rfl, rfl⟩
    exact ⟨rfl, ha⟩

theorem generateCodes_singleTree (s : State) (a : Byte) (w : Word) :
    generateCodes (singleTree s a w) = .map [(a, [0x30])] := rfl

theorem decodeBits_singleTree_left (s : State) (a : Byte) (w : Word) : decodeBits (singleTree s a w) [0x30] = .bytes [a] :=
  congrArg (fun b => Decoding.bytes [b]) (emitted_symbol (r := leafNode a w) rfl)

theorem decodeBits_singleTree_right (s : State) (a : Byte) (w : Word) :
    decodeBits (singleTree s a w) [0x31] = .invalidPath 0 .right := rfl

/-- The rank of a node as a number: the symbol, or 256 (R11). -/
theorem symCode_toNat (x : Option Byte) : (symCode x).toNat = match x with | none => 256 | some b => b.toNat := by
  cases x with
  | none => rfl
  | some b => exact (BitVec.toNat_setWidth 9 b).trans (Nat.mod_eq_of_lt (by omega))

/-! ### The weights in Q -/

/-- The sum of the weights in Q. -/
def queueSum (q : List Key) : Nat := (q.map (fun k => k.weight.toNat)).sum

@[simp] theorem queueSum_cons (k : Key) (q : List Key) : queueSum (k :: q) = k.weight.toNat + queueSum q := rfl

theorem queueSum_perm {q q' : List Key} (h : q.Perm q') : queueSum q = queueSum q' := (h.map _).sum_eq

theorem leafKeys_weight (l : List (Byte × Word)) : (leafKeys l).map Key.weight = l.map Prod.snd := by
  apply List.ext_getElem
  · simp [leafKeys]
  · intro i h1 h2
    simp [leafKeys, keyOf, leafNode]

theorem queueSum_leafKeys (s : State) : queueSum (leafKeys (presentSymbols s.freq)) = frequencySum s := by
  have h := congrArg (List.map BitVec.toNat) (leafKeys_weight (presentSymbols s.freq))
  simp only [List.map_map] at h
  rw [← presentSymbols_sum]
  exact congrArg List.sum h

theorem Key.weight_le {x y : Key} (h : y.lt x = false) : x.weight.toNat ≤ y.weight.toNat := by
  by_contra hc
  have hlt := (Key.lt_iff y x).2 (.inl (by omega))
  rw [h] at hlt
  cases hlt

/-- Two extractions take out the two least weights (R136). -/
theorem pop_two_least {q q1 q2 : List Key} {x y : Key} (h1 : popLeast q = some (x, q1)) (h2 : popLeast q1 = some (y, q2)) :
    x.weight.toNat ≤ y.weight.toNat ∧ ∀ k ∈ q2, y.weight.toNat ≤ k.weight.toNat :=
  ⟨Key.weight_le (popLeast_least h1 y ((popLeast_perm h2).mem_iff.2 List.mem_cons_self)),
    fun k hk => Key.weight_le (popLeast_least h2 k hk)⟩

/-- The weight of a merge is exact while the weights in Q fit 32 bits together (R140). -/
theorem mergedNode_weight {q q2 : List Key} {x y : Key} (hp : q.Perm (x :: y :: q2)) (hfit : queueSum q < 4294967296) :
    (mergedNode x y).weight.toNat = x.weight.toNat + y.weight.toNat := by
  rw [queueSum_perm hp, queueSum_cons, queueSum_cons] at hfit
  exact (BitVec.toNat_add _ _).trans (Nat.mod_eq_of_lt (by omega))

/-- A merge keeps the sum of the weights in Q. -/
theorem queueSum_merge {q q2 : List Key} {x y : Key} (hp : q.Perm (x :: y :: q2)) (hfit : queueSum q < 4294967296)
    (i : Idx) : queueSum (keyOf i (mergedNode x y) :: q2) = queueSum q := by
  rw [queueSum_perm hp, queueSum_cons, queueSum_cons, queueSum_cons]
  show (mergedNode x y).weight.toNat + _ = _
  rw [mergedNode_weight hp hfit, Nat.add_assoc]

/-! ### What the merges keep -/

/-- Node k is a merge: two children of smaller index whose weights add up to its own. -/
def IsMerge (s : State) (k : Idx) (r : Node) : Prop :=
  ∃ rl rr, r.sym = none ∧ r.left.toNat < k.toNat ∧ r.right.toNat < k.toNat ∧ nodeAt s r.left = some rl ∧
    nodeAt s r.right = some rr ∧ r.weight.toNat = rl.weight.toNat + rr.weight.toNat

/-- The arena over the leaves l while Q is merged, beside `Forest`: the nodes behind the leaves are merges, and none of them
outweighs a later one or the merge of any two elements of Q. -/
structure MergedShape (l : List (Byte × Word)) (s : State) (q : List Key) : Prop where
  count  : s.nodeCnt.toNat + q.length = 2 * l.length
  fits   : queueSum q < 4294967296
  leaves : ∀ k : Idx, ∀ h : k.toNat < l.length, nodeAt s k = some (leafNode l[k.toNat].1 l[k.toNat].2)
  merges : ∀ k r, l.length ≤ k.toNat → nodeAt s k = some r → IsMerge s k r
  rising : ∀ j k rj rk, l.length ≤ j.toNat → j.toNat ≤ k.toNat → nodeAt s j = some rj → nodeAt s k = some rk →
    rj.weight.toNat ≤ rk.weight.toNat
  ahead  : ∀ j r, l.length ≤ j.toNat → nodeAt s j = some r →
    q.Pairwise (fun x y => r.weight.toNat ≤ x.weight.toNat + y.weight.toNat)

theorem MergedShape.start {l : List (Byte × Word)} {s : State} (hc : s.nodeCnt = 0) (hl : l.length ≤ 256)
    (hfit : queueSum (leafKeys l) < 4294967296) : MergedShape l (allocLeaves l s) (leafKeys l) := by
  have hc0 : s.nodeCnt.toNat = 0 := by simp [hc]
  have hcnt := allocLeaves_count l s (by omega)
  have hbare : ∀ k r, l.length ≤ k.toNat → nodeAt (allocLeaves l s) k ≠ some r := by
    intro k r hk hr
    have := nodeAt_lt hr
    omega
  refine ⟨?_, hfit, ?_, fun k r hk hr => absurd hr (hbare k r hk), fun j _ rj _ hj _ hr => absurd hr (hbare j rj hj),
    fun j r hj hr => absurd hr (hbare j r hj)⟩
  · rw [hcnt]
    simp [leafKeys]
    omega
  · intro k hk
    rw [nodeAt_allocLeaves l s (by omega), if_neg (by omega)]
    simp [hc0, hk]

/-- An allocation overwrites no node. -/
theorem nodeAt_alloc_old {s : State} {i : Idx} {r : Node} (h : s.nodeCnt.toNat < 1023) (hr : nodeAt s i = some r)
    (r' : Node) : nodeAt (alloc r' s) i = some r := by
  rw [nodeAt_alloc _ h, if_neg, hr]
  rintro rfl
  have := nodeAt_lt hr
  omega

/-- A node after an allocation is the new one or was there before. -/
theorem nodeAt_alloc_cases {s : State} {i : Idx} {r r' : Node} (h : s.nodeCnt.toNat < 1023)
    (hr : nodeAt (alloc r' s) i = some r) : (i = s.nodeCnt ∧ r = r') ∨ nodeAt s i = some r := by
  rw [nodeAt_alloc _ h] at hr
  split at hr
  · cases hr
    exact .inl ⟨by assumption, rfl⟩
  · exact .inr hr

theorem IsMerge.alloc {s : State} {k : Idx} {r : Node} (hm : IsMerge s k r) (h : s.nodeCnt.toNat < 1023) (r' : Node) :
    IsMerge (alloc r' s) k r := by
  obtain ⟨rl, rr, hs, hl, hrt, hrl, hrr, hsum⟩ := hm
  exact ⟨rl, rr, hs, hl, hrt, nodeAt_alloc_old h hrl r', nodeAt_alloc_old h hrr r', hsum⟩

/-- The roots of the forest are written nodes. -/
theorem Forest.idx_lt {s : State} {q : List Key} (h : Forest s q) {k : Key} (hk : k ∈ q) :
    k.idx.toNat < s.nodeCnt.toNat := by
  obtain ⟨r, hr, _⟩ := h.records k hk
  exact nodeAt_lt hr

/-- With two roots left there is room for their merge. -/
theorem Forest.room_two {s : State} {q q2 : List Key} {x y : Key} (h : Forest s q) (hp : q.Perm (x :: y :: q2)) :
    s.nodeCnt.toNat < 511 := by
  have hroom := h.room
  rw [hp.length_eq, List.length_cons, List.length_cons] at hroom
  omega

/-- The new node is a merge: it stands over the records of the two extracted keys. -/
theorem Forest.isMerge_new {s : State} {q q2 : List Key} {x y : Key} (h : Forest s q) (hp : q.Perm (x :: y :: q2))
    (hfit : queueSum q < 4294967296) : IsMerge (alloc (mergedNode x y) s) s.nodeCnt (mergedNode x y) := by
  have hroom := h.room_two hp
  obtain ⟨rx, hrx, hkx⟩ := h.records x (hp.mem_iff.2 (by simp))
  obtain ⟨ry, hry, hky⟩ := h.records y (hp.mem_iff.2 (by simp))
  refine ⟨rx, ry, rfl, nodeAt_lt hrx, nodeAt_lt hry, nodeAt_alloc_old (by omega) hrx _,
    nodeAt_alloc_old (by omega) hry _, ?_⟩
  rw [mergedNode_weight hp hfit, hkx, hky]
  rfl

/-- No merge so far outweighs the next one. -/
theorem MergedShape.le_next {l : List (Byte × Word)} {s : State} {q q2 : List Key} {x y : Key} (h : MergedShape l s q)
    (hp : q.Perm (x :: y :: q2)) {k : Idx} {r : Node} (hk : l.length ≤ k.toNat) (hr : nodeAt s k = some r) :
    r.weight.toNat ≤ (mergedNode x y).weight.toNat := by
  have hpair := hp.pairwise (h.ahead k r hk hr) (fun hab => by omega)
  rw [mergedNode_weight hp h.fits]
  exact (List.pairwise_cons.1 hpair).1 y List.mem_cons_self

theorem MergedShape.merge {l : List (Byte × Word)} {s : State} {q q1 q2 : List Key} {x y : Key} (h : MergedShape l s q)
    (hf : Forest s q) (h1 : popLeast q = some (x, q1)) (h2 : popLeast q1 = some (y, q2)) :
    MergedShape l (alloc (mergedNode x y) s) (keyOf s.nodeCnt (mergedNode x y) :: q2) := by
  have hperm := pop_two_perm h1 h2
  obtain ⟨hxy, hy⟩ := pop_two_least h1 h2
  have hroom := hf.room_two hperm
  have hw := mergedNode_weight hperm h.fits
  have hnode := fun {k r} => nodeAt_alloc_cases (i := k) (r := r) (r' := mergedNode x y) (by omega : s.nodeCnt.toNat < 1023)
  refine ⟨?_, ?_, fun k hk => nodeAt_alloc_old (by omega) (h.leaves k hk) _, fun k r hk hr => ?_,
    fun j k rj rk hj hjk hrj hrk => ?_, fun j r hj hr => ?_⟩
  · have hcount := h.count
    rw [hperm.length_eq, List.length_cons, List.length_cons] at hcount
    rw [alloc_count _ (by omega), List.length_cons]
    omega
  · rw [queueSum_merge hperm h.fits]
    exact h.fits
  · rcases hnode hr with ⟨rfl, rfl⟩ | hr
    · exact hf.isMerge_new hperm h.fits
    · exact (h.merges k r hk hr).alloc (by omega) _
  · rcases hnode hrj with ⟨rfl, rfl⟩ | hrj <;> rcases hnode hrk with ⟨rfl, rfl⟩ | hrk
    · exact le_rfl
    · have := nodeAt_lt hrk
      omega
    · exact h.le_next hperm hj hrj
    · exact h.rising j k rj rk hj hjk hrj hrk
  · have hle : r.weight.toNat ≤ (mergedNode x y).weight.toNat := by
      rcases hnode hr with ⟨_, rfl⟩ | hr
      · exact le_rfl
      · exact h.le_next hperm hj hr
    refine List.pairwise_cons.2 ⟨fun k _ => ?_, List.pairwise_of_forall_mem_list fun a ha b hb => ?_⟩
    · exact hle.trans (Nat.le_add_right _ _)
    · have := hy a ha
      have := hy b hb
      omega

/-! ### The finished tree -/

/-- The one root left is the last node: a node behind it would have a parent behind it. -/
theorem Forest.root_last {s : State} {x : Key} (h : Forest s [x]) : x.idx.toNat + 1 = s.nodeCnt.toNat := by
  obtain ⟨r, hr, _⟩ := h.records x List.mem_cons_self
  have hlt := nodeAt_lt hr
  have hlast : (s.nodeCnt - 1).toNat + 1 = s.nodeCnt.toNat := by bv_omega
  by_contra hne
  have hroot : ∀ k ∈ [x], k.idx ≠ s.nodeCnt - 1 := by
    intro k hk e
    rw [List.mem_singleton.1 hk] at e
    exact hne (e ▸ hlast)
  obtain ⟨p, b, hp, _⟩ := h.oneParent (s.nodeCnt - 1) (by omega) hroot
  have hpar := BitVec.lt_def.1 (h.below p b _ hp)
  have := hp.parent_lt
  omega

/-- The shape of the tree over two symbols or more, with what ROOT weighs. -/
theorem built_shape {s : State} (h2 : 2 ≤ symbolCount s) (hsum : frequencySum s < 4294967296) :
    ∃ x : Key, MergedShape (presentSymbols s.freq) (built s) [x] ∧ (built s).root.toNat + 1 = (built s).nodeCnt.toNat ∧
      ∃ r, nodeAt (built s) (built s).root = some r ∧ r.weight.toNat = frequencySum s := by
  obtain ⟨s', x, hf, ⟨hshape, htotal⟩, he⟩ := built_merges
    (fun t q => MergedShape (presentSymbols s.freq) t q ∧ queueSum q = frequencySum s) h2
    ⟨.start rfl ((presentSymbols_length s).trans_le (symbolCount_le s)) (by rwa [queueSum_leafKeys]), queueSum_leafKeys s⟩
    (fun t q x q1 y q2 hf h h1 h2 => ⟨h.1.merge hf h1 h2, (queueSum_merge (pop_two_perm h1 h2) h.1.fits _).trans h.2⟩)
  obtain ⟨r, hr, hx⟩ := hf.records x List.mem_cons_self
  rw [he]
  refine ⟨x, ⟨hshape.count, hshape.fits, hshape.leaves, hshape.merges, hshape.rising, hshape.ahead⟩, hf.root_last,
    r, hr, ?_⟩
  rw [← htotal, hx]
  rfl

/-- How many nodes a built tree has (R135). -/
theorem built_count {s : State} (hf : SomeFrequency s) (hsum : frequencySum s < 4294967296) :
    (built s).nodeCnt.toNat = if symbolCount s = 1 then 2 else 2 * symbolCount s - 1 := by
  have hpos := (symbolCount_pos s).2 hf
  split
  · obtain ⟨b, w, h⟩ := exists_single (by assumption)
    rw [built_single h]
    rfl
  · obtain ⟨x, hshape, _⟩ := built_shape (by omega) hsum
    have hcount := hshape.count
    rw [presentSymbols_length, List.length_singleton] at hcount
    omega

/-- The leaves of a built tree: a present symbol with its count at each index below N. -/
theorem MergedShape.leaf {s t : State} {q : List Key} (h : MergedShape (presentSymbols s.freq) t q) {k : Idx}
    (hk : k.toNat < symbolCount s) : ∃ b, freqAt s b ≠ 0 ∧ nodeAt t k = some (leafNode b (freqAt s b)) := by
  rw [← presentSymbols_length] at hk
  have hmem := (mem_presentSymbols s _ _).1 (List.getElem_mem hk)
  exact ⟨_, hmem.1 ▸ hmem.2, hmem.1 ▸ h.leaves k hk⟩

/-- The leaves stand in ascending order of symbol. -/
theorem MergedShape.leaves_ascending {s t : State} {q : List Key} (h : MergedShape (presentSymbols s.freq) t q) {j k : Idx}
    {rj rk : Node} {b c : Byte} (hjk : j.toNat < k.toNat) (hk : k.toNat < symbolCount s) (hrj : nodeAt t j = some rj)
    (hrk : nodeAt t k = some rk) (hb : rj.sym = some b) (hc : rk.sym = some c) : b.toNat < c.toNat := by
  rw [← presentSymbols_length] at hk
  rw [h.leaves j (by omega)] at hrj
  rw [h.leaves k hk] at hrk
  cases hrj; cases hrk; cases hb; cases hc
  exact List.pairwise_iff_getElem.1 (presentSymbols_ascending s) _ _ (by omega) hk hjk

/-- The tree of two symbols or more lists a merge at each index behind the leaves. -/
theorem MergedShape.merge_at {s t : State} {x : Key} (h : MergedShape (presentSymbols s.freq) t [x])
    (hkeys : t.node.map Prod.fst = List.range t.nodeCnt.toNat) {k : Idx} (hk : symbolCount s ≤ k.toNat)
    (hlt : k.toNat ≤ 2 * symbolCount s - 2) : ∃ r, nodeAt t k = some r ∧ IsMerge t k r := by
  have hcount := h.count
  rw [presentSymbols_length, List.length_singleton] at hcount
  obtain ⟨r, hr⟩ := nodeAt_of_range hkeys (by omega : k.toNat < _)
  exact ⟨r, hr, h.merges k r (by rwa [presentSymbols_length]) hr⟩

end Sys2Proof.Machine

namespace Sys2Proof.Proofs

open Sys2Proof.Machine

/-- Settles O31: the single-symbol tree is written out; for more symbols the invariant of the merges gives every clause. -/
theorem builtTreeShape : Obligations.BuiltTreeShape := by
  intro s hq hf hsum
  refine ⟨built s, exec_build_accepts hq hf hsum, fun h1 => ?_, fun h2 => ?_⟩
  · obtain ⟨b, w, h⟩ := exists_single h1
    rw [built_single h]
    exact ⟨rfl, rfl⟩
  · obtain ⟨x, h, hroot, hweight⟩ := built_shape h2 hsum
    obtain ⟨_, hkeys, _, _⟩ := built_tree hf
    have hcnt := built_count hf hsum
    rw [if_neg (by omega)] at hcnt
    refine ⟨hcnt, by omega, fun k hk => h.leaf hk, fun j k _ _ _ _ => h.leaves_ascending, fun k hk hlt => ?_,
      fun j k rj rk hj => h.rising j k rj rk (by rwa [presentSymbols_length]), hweight⟩
    obtain ⟨r, hr, rl, rr, hmerge⟩ := h.merge_at hkeys hk hlt
    exact ⟨r, rl, rr, hr, hmerge⟩

/-- Settles O30. -/
theorem buildMakesATree : Obligations.BuildMakesATree := by
  intro s hq hf hsum
  obtain ⟨_, _, _, hroot⟩ := built_tree hf
  have hcnt := built_count hf hsum
  obtain ⟨r, c, m, he⟩ := built_frame s
  exact ⟨built s, exec_build_accepts hq hf hsum, by rw [he], hroot, hcnt⟩

/-- Settles O29, test by test. -/
theorem buildFaultsInOrder : Obligations.BuildFaultsInOrder := by
  intro s hq
  simp only [exec_build hq, buildBody_eq]
  exact ⟨fun h0 => if_pos h0, fun P h0 hroom => (if_neg h0).trans (if_pos hroom), fun h0 hsum =>
    (if_neg h0).trans ((if_neg (Nat.not_lt.2 (nodesNeeded_le s))).trans (if_pos hsum))⟩

/-- Settles O33. -/
theorem extractionTakesTheLeastKey : Obligations.ExtractionTakesTheLeastKey := by
  refine ⟨fun i r => ⟨rfl, rfl, symCode_toNat r.sym⟩, Key.lt_iff,
    fun q k rest h => ⟨popLeast_perm h, popLeast_least h⟩, fun fuel q s x q1 y q2 h1 h2 => ?_⟩
  simp only [mergeLoop, h1, h2, mergedNode]

/-- Settles O32: the single tree is written out, and the pure walks run on it. -/
theorem singleSymbolTree : Obligations.SingleSymbolTree := by
  intro s a hq ha hb
  have hpresent := presentSymbols_single ha hb
  have hsum : frequencySum s < 4294967296 := by
    rw [← presentSymbols_sum, hpresent]
    exact (freqAt s a).isLt
  have hexec := exec_build_accepts hq ⟨a, ha⟩ hsum
  rw [built_single hpresent] at hexec
  exact ⟨_, hexec, rfl, generateCodes_singleTree s a _, decodeBits_singleTree_left s a _, decodeBits_singleTree_right s a _⟩

end Sys2Proof.Proofs
end

section
/-! PROOF. Code lengths: the Kraft inequality of a code, and the merge of the two least weights, by which no
assignment of lengths beats BUILD's (41_frequency_and_build.md R139). -/

namespace Sys2Proof.Machine

/-! ### The Kraft inequality -/

/-- The Kraft inequality for lengths of at most L bits, in units of 2^-L. -/
structure Kraft (L : Nat) (ls : List Nat) : Prop where
  le  : ∀ l ∈ ls, l ≤ L
  sum : (ls.map (fun l => 2 ^ (L - l))).sum ≤ 2 ^ L

theorem Kraft.perm {L : Nat} {ls ls' : List Nat} (h : Kraft L ls) (hp : ls.Perm ls') : Kraft L ls' :=
  ⟨fun l hl => h.le l (hp.mem_iff.2 hl), (hp.map (fun l => 2 ^ (L - l))).sum_eq.symm.trans_le h.sum⟩

/-- Codewords none of which is empty or begins another can be told apart in a stream. -/
theorem uniquelyDecodable_of_prefixFree {α : Type} {S : Set (List α)} (hne : [] ∉ S)
    (hp : ∀ p ∈ S, ∀ q ∈ S, p <+: q → p = q) : InformationTheory.UniquelyDecodable S := by
  have hcons : ∀ (p : List α) ps, p ∈ S → (p :: ps).flatten ≠ [] := by
    rintro p ps hpS h
    rw [List.flatten_cons, List.append_eq_nil_iff] at h
    exact hne (h.1 ▸ hpS)
  intro ps
  induction ps with
  | nil =>
    rintro (_ | ⟨q, qs⟩) _ hqs h
    · rfl
    · exact absurd h.symm (hcons q qs (hqs q List.mem_cons_self))
  | cons p ps ih =>
    rintro (_ | ⟨q, qs⟩) hps hqs h
    · exact absurd h (hcons p ps (hps p List.mem_cons_self))
    · rw [List.forall_mem_cons] at hps hqs
      have hpq : p = q := by
        rw [List.flatten_cons, List.flatten_cons] at h
        rcases List.prefix_or_prefix_of_prefix (List.prefix_append p _) (h ▸ List.prefix_append q _) with hpre | hpre
        · exact hp p hps.1 q hqs.1 hpre
        · exact (hp q hqs.1 p hps.1 hpre).symm
      subst hpq
      rw [ih qs hps.2 hqs.2 (List.append_cancel_left h)]

/-- A character's bit (30_encoding.md R87). -/
def charBit (c : Byte) : Bool := c = 0x31

/-- A bit's character. -/
def bitChar (b : Bool) : Byte := if b then 0x31 else 0x30

theorem map_bitChar_charBit {p : List Byte} (h : ∀ c ∈ p, bitSymbol c ≠ none) : (p.map charBit).map bitChar = p := by
  rw [List.map_map]
  refine (List.map_congr_left fun c hc => ?_).trans (List.map_id p)
  obtain ⟨b, hb⟩ := Option.ne_none_iff_exists'.1 (h c hc)
  rw [bitSymbol_eq_some.1 hb]
  cases b <;> rfl

/-- Two words of a code in which none begins another, as bits: one begins the other only if they are the same entry. -/
theorem CodeForFreq.eq_of_prefix {s : State} {m : CodeMap} (hc : CodeForFreq s m) (hp : PrefixFree m)
    {x y : Byte × List Byte} (hx : x ∈ m) (hy : y ∈ m) (h : x.2.map charBit <+: y.2.map charBit) : x = y := by
  have hpre := h.map bitChar
  rw [map_bitChar_charBit (hc.paths x hx).2, map_bitChar_charBit (hc.paths y hy).2] at hpre
  by_contra hne
  exact hp x hx y hy (fun e => hne (List.inj_on_of_nodup_map hc.once hx hy e)) hpre

/-- A code none of whose words begins another meets the Kraft inequality, by Mathlib's theorem for decodable codes. -/
theorem CodeForFreq.kraft {s : State} {m : CodeMap} (hc : CodeForFreq s m) (hp : PrefixFree m) :
    ∃ L, Kraft L (m.map (fun x => x.2.length)) := by
  have hnodup : (m.map (fun x => x.2.map charBit)).Nodup :=
    (List.Nodup.of_map _ hc.once).map_on fun x hx y hy e => hc.eq_of_prefix hp hx hy (e ▸ List.prefix_rfl)
  have hdec : InformationTheory.UniquelyDecodable
      ((m.map (fun x => x.2.map charBit)).toFinset : Set (List Bool)) := by
    apply uniquelyDecodable_of_prefixFree
    · simp only [List.coe_toFinset, Set.mem_ofPred_eq, List.mem_map, not_exists, not_and, List.map_eq_nil_iff]
      exact fun x hx => (hc.paths x hx).1
    · simp only [List.coe_toFinset, Set.mem_ofPred_eq, List.mem_map]
      rintro _ ⟨x, hx, rfl⟩ _ ⟨y, hy, rfl⟩ h
      rw [hc.eq_of_prefix hp hx hy h]
  have hkraft := InformationTheory.kraft_mcmillan_inequality hdec
  rw [List.sum_toFinset _ hnodup, Fintype.card_bool, List.map_map] at hkraft
  refine ⟨(m.map (fun x => x.2.length)).sum, fun l hl => List.le_sum_of_mem hl, ?_⟩
  generalize hL : (m.map (fun x => x.2.length)).sum = L
  have hle : ∀ x ∈ m, x.2.length ≤ L := fun x hx => hL ▸ List.le_sum_of_mem (List.mem_map_of_mem hx)
  have hscale : (((m.map (fun x => x.2.length)).map (fun l => 2 ^ (L - l))).sum : ℕ) =
      (2 : ℝ) ^ L * (m.map ((fun w : List Bool => (1 / (2 : ℕ) : ℝ) ^ w.length) ∘ fun x => x.2.map charBit)).sum := by
    rw [← List.sum_map_mul_left, Nat.cast_list_sum, List.map_map, List.map_map]
    refine congrArg List.sum (List.map_congr_left fun x hx => ?_)
    simp [pow_sub₀ (2 : ℝ) two_ne_zero (hle x hx)]
  have hreal := mul_le_of_le_one_right (by positivity : (0 : ℝ) ≤ 2 ^ L) hkraft
  rw [← hscale] at hreal
  exact_mod_cast hreal

/-! ### The merge of the two least weights -/

/-- Weights, each with a code length. -/
abbrev Lengths := List (Nat × Nat)

/-- The weighted path length of the assignment. -/
def lengthCost (A : Lengths) : Nat := (A.map (fun a => a.1 * a.2)).sum

@[simp] theorem lengthCost_cons (a : Nat × Nat) (A : Lengths) : lengthCost (a :: A) = a.1 * a.2 + lengthCost A := rfl

theorem lengthCost_perm {A B : Lengths} (h : A.Perm B) : lengthCost A = lengthCost B := (h.map _).sum_eq

/-- The exchange: giving the longest length to a least weight does not raise the weighted path length. -/
theorem exchange_longest {x : Nat} (l0 : Nat) (A : Lengths) (hx : ∀ w ∈ A.map Prod.fst, x ≤ w) :
    ∃ l B, B.map Prod.fst = A.map Prod.fst ∧ (l0 :: A.map Prod.snd).Perm (l :: B.map Prod.snd) ∧
      (∀ k ∈ B.map Prod.snd, k ≤ l) ∧ x * l + lengthCost B ≤ x * l0 + lengthCost A := by
  induction A with
  | nil => exact ⟨l0, [], rfl, .rfl, nofun, le_rfl⟩
  | cons a A ih =>
    obtain ⟨w, k⟩ := a
    obtain ⟨hw, hA⟩ : x ≤ w ∧ ∀ v ∈ A.map Prod.fst, x ≤ v := List.forall_mem_cons.1 hx
    obtain ⟨l, B, hfst, hsnd, hle, hcost⟩ := ih hA
    have hperm : (l0 :: k :: A.map Prod.snd).Perm (k :: l :: B.map Prod.snd) := (List.Perm.swap _ _ _).trans (hsnd.cons k)
    by_cases hk : k ≤ l
    · refine ⟨l, (w, k) :: B, by simp [hfst], hperm.trans (.swap _ _ _), List.forall_mem_cons.2 ⟨hk, hle⟩, ?_⟩
      simp only [lengthCost_cons]
      omega
    · obtain ⟨d, rfl⟩ : ∃ d, k = l + d := ⟨k - l, by omega⟩
      refine ⟨l + d, (w, l) :: B, by simp [hfst], hperm,
        List.forall_mem_cons.2 ⟨Nat.le_add_right l d, fun k hk => (hle k hk).trans (Nat.le_add_right l d)⟩, ?_⟩
      have := Nat.mul_le_mul_right d hw
      simp only [lengthCost_cons, Nat.mul_add]
      omega

/-- The two longest codewords make room for one that is a bit shorter than the second of them: what is left of the Kraft
sum is a multiple of the second's share. -/
theorem Kraft.merge {L l1 l2 : Nat} {ls : List Nat} (h : Kraft L (l1 :: l2 :: ls)) (hls : ∀ l ∈ ls, l ≤ l2) :
    1 ≤ l2 ∧ Kraft L ((l2 - 1) :: ls) := by
  obtain ⟨hle, hsum⟩ := h
  simp only [List.forall_mem_cons] at hle
  obtain ⟨_, h2, hls'⟩ := hle
  simp only [List.map_cons, List.sum_cons] at hsum
  have hpos1 : 0 < 2 ^ (L - l1) := Nat.two_pow_pos _
  have hdvd : 2 ^ (L - l2) ∣ 2 ^ L - (2 ^ (L - l2) + (ls.map (fun l => 2 ^ (L - l))).sum) := by
    refine Nat.dvd_sub (Nat.pow_dvd_pow 2 (Nat.sub_le _ _)) (Nat.dvd_add dvd_rfl (List.dvd_sum ?_))
    simp only [List.mem_map]
    rintro _ ⟨l, hl, rfl⟩
    exact Nat.pow_dvd_pow 2 (Nat.sub_le_sub_left (hls l hl) L)
  have hroom := Nat.le_of_dvd (by omega) hdvd
  have hl2 : 1 ≤ l2 := by
    by_contra h0
    obtain rfl : l2 = 0 := by omega
    rw [Nat.sub_zero] at hroom
    omega
  refine ⟨hl2, List.forall_mem_cons.2 ⟨by omega, hls'⟩, ?_⟩
  simp only [List.map_cons, List.sum_cons]
  rw [show L - (l2 - 1) = L - l2 + 1 by omega, Nat.pow_succ]
  omega

/-- An assignment to x, y and ws, of which x and y are least, gives one to x + y and ws that is cheaper by x + y. -/
theorem merge_lengths {L x y : Nat} {ws : List Nat} {A : Lengths} (hA : (A.map Prod.fst).Perm (x :: y :: ws))
    (hK : Kraft L (A.map Prod.snd)) (hxy : x ≤ y) (hy : ∀ w ∈ ws, y ≤ w) :
    ∃ B, B.map Prod.fst = (x + y) :: ws ∧ Kraft L (B.map Prod.snd) ∧ lengthCost B + (x + y) ≤ lengthCost A := by
  obtain ⟨A', hfst, hperm⟩ :=
    (congrFun₂ (List.eq_map_comp_perm (Prod.fst : Nat × Nat → Nat)) (x :: y :: ws) A).mpr hA.symm
  obtain ⟨⟨x, k1⟩, A1, rfl, rfl, hfst1⟩ := List.map_eq_cons_iff.1 hfst.symm
  -- x takes the longest length, then y the longest of the others
  obtain ⟨l1, B1, hB1, hlen1, hmax1, hcost1⟩ := exchange_longest k1 A1
    (hfst1 ▸ List.forall_mem_cons.2 ⟨hxy, fun w hw => hxy.trans (hy w hw)⟩)
  obtain ⟨⟨y, k2⟩, A2, rfl, rfl, hfst2⟩ := List.map_eq_cons_iff.1 (hB1.trans hfst1)
  obtain ⟨l2, B2, hB2, hlen2, hmax2, hcost2⟩ := exchange_longest k2 A2 (hfst2 ▸ hy)
  have hl2 : l2 ≤ l1 := hmax1 l2 (hlen2.mem_iff.2 List.mem_cons_self)
  have hK2 : Kraft L (l1 :: l2 :: B2.map Prod.snd) :=
    (hK.perm (hperm.map Prod.snd).symm).perm (hlen1.trans (hlen2.cons l1))
  obtain ⟨hpos, hK3⟩ := hK2.merge hmax2
  refine ⟨(x + y, l2 - 1) :: B2, by simp [hB2, hfst2], hK3, ?_⟩
  obtain ⟨d, rfl⟩ : ∃ d, l2 = d + 1 := ⟨l2 - 1, by omega⟩
  have := Nat.mul_le_mul_left x hl2
  rw [← lengthCost_perm hperm]
  simp only [lengthCost_cons, Nat.add_sub_cancel, Nat.mul_add, Nat.add_mul] at *
  omega

end Sys2Proof.Machine
end

section
/-! PROOF. The codes of a built tree: what they are along the merges, and that no rival code is cheaper
(41_frequency_and_build.md R139). -/

namespace Sys2Proof.Machine

/-! ### The codes below a node -/

/-- The codes of the leaves below node n, from n on (R193). -/
def codesAt (s : State) (n : Idx) : CodeMap := visit s (n.toNat + 1) n []

/-- Codes one level up, on the side of the character c. -/
def under (c : Byte) (m : CodeMap) : CodeMap := m.map (fun x => (x.1, c :: x.2))

/-- A node's codes depend on no node above its index, and a depth above its index is enough. -/
theorem visit_congr {s t : State} (hb : ChildrenBelow s) : ∀ (f g : Nat) (n : Idx) (p : List Byte),
    n.toNat < f → n.toNat < g → (∀ i : Idx, i.toNat ≤ n.toNat → nodeAt t i = nodeAt s i) →
    visit t f n p = visit s g n p := by
  intro f
  induction f with
  | zero => intro g n p hf; omega
  | succ f ih =>
    rintro (_ | g) n p hf hg h
    · omega
    · have hchild : ∀ r b c, nodeAt s n = some r → r.child b ≠ NIL →
          visit t f (r.child b) (p ++ [c]) = visit s g (r.child b) (p ++ [c]) := by
        intro r b c hr hne
        have hlt := BitVec.lt_def.1 (hb n b _ (childOf_of_nodeAt hr hne))
        exact ih g _ _ (by omega) (by omega) fun i hi => h i (by omega)
      simp only [visit, h n le_rfl]
      cases hr : nodeAt s n with
      | none => rfl
      | some r =>
        have hl := hchild r .left 0x30 hr
        have hrt := hchild r .right 0x31 hr
        simp only [Node.child] at hl hrt
        dsimp only
        split
        · rfl
        · congr 1
          · split
            · rfl
            · exact hl (by assumption)
          · split
            · rfl
            · exact hrt (by assumption)

/-- Codes from a node reached by p are the node's own behind p. -/
theorem visit_append (s : State) : ∀ (f : Nat) (n : Idx) (p q : List Byte),
    visit s f n (p ++ q) = (visit s f n q).map (fun x => (x.1, p ++ x.2)) := by
  intro f
  induction f with
  | zero => intro n p q; rfl
  | succ f ih =>
    intro n p q
    simp only [visit]
    cases nodeAt s n with
    | none => rfl
    | some r =>
      dsimp only
      split
      · cases r.sym <;> rfl
      · rw [List.map_append, List.append_assoc, List.append_assoc, ih r.left p, ih r.right p]
        congr 1 <;> split <;> rfl

theorem codesAt_congr {s t : State} (hb : ChildrenBelow s) {n : Idx}
    (h : ∀ i : Idx, i.toNat ≤ n.toNat → nodeAt t i = nodeAt s i) : codesAt t n = codesAt s n :=
  visit_congr hb _ _ n [] (Nat.lt_succ_self _) (Nat.lt_succ_self _) h

theorem codesAt_leaf {s : State} {n : Idx} {b : Byte} {w : Word} (h : nodeAt s n = some (leafNode b w)) :
    codesAt s n = [(b, [])] := by
  simp only [codesAt, visit, h]
  rfl

/-- The codes of a node with two children: the left ones behind '0', the right ones behind '1'. -/
theorem codesAt_inner {s : State} (hb : ChildrenBelow s) {n : Idx} {r : Node} (h : nodeAt s n = some r) (hl : r.left ≠ NIL)
    (hr : r.right ≠ NIL) : codesAt s n = under 0x30 (codesAt s r.left) ++ under 0x31 (codesAt s r.right) := by
  have hchild : ∀ b c, r.child b ≠ NIL → visit s n.toNat (r.child b) [c] = under c (codesAt s (r.child b)) := by
    intro b c hne
    have hlt := BitVec.lt_def.1 (hb n b _ (childOf_of_nodeAt h hne))
    exact (visit_congr hb _ _ _ _ hlt (Nat.lt_succ_self _) fun _ _ => rfl).trans (visit_append s _ _ [c] [])
  have hleaf : r.isLeaf = false := not_leaf_of_child (b := .left) hl
  simp only [codesAt, visit, h, hleaf, if_neg hl, if_neg hr, List.nil_append]
  exact congrArg₂ (· ++ ·) (hchild .left 0x30 hl) (hchild .right 0x31 hr)

/-! ### What a level adds -/

/-- The count of the symbols a code map holds. -/
def codeWeight (s : State) (m : CodeMap) : Nat := (m.map (fun x => (freqAt s x.1).toNat)).sum

theorem codeWeight_append (s : State) (m m' : CodeMap) : codeWeight s (m ++ m') = codeWeight s m + codeWeight s m' := by
  simp [codeWeight]

theorem weightedLength_append (s : State) (m m' : CodeMap) :
    weightedLength s (m ++ m') = weightedLength s m + weightedLength s m' := by
  simp [weightedLength]

theorem weightedLength_perm (s : State) {m m' : CodeMap} (h : m.Perm m') : weightedLength s m = weightedLength s m' :=
  (h.map _).sum_eq

theorem under_symbols (c : Byte) (m : CodeMap) : (under c m).map Prod.fst = m.map Prod.fst := by
  simp [under]

theorem codeWeight_under (s : State) (c : Byte) (m : CodeMap) : codeWeight s (under c m) = codeWeight s m := by
  simp [codeWeight, under, Function.comp_def]

/-- One level more costs one bit per counted symbol. -/
theorem weightedLength_under (s : State) (c : Byte) (m : CodeMap) :
    weightedLength s (under c m) = weightedLength s m + codeWeight s m := by
  simp only [weightedLength, codeWeight, under, List.map_map, ← List.sum_map_add]
  rfl

/-- The codes are paths over the two bit-symbols. -/
def BitPaths (m : CodeMap) : Prop := ∀ x ∈ m, ∀ c ∈ x.2, bitSymbol c ≠ none

theorem BitPaths.under {m : CodeMap} (h : BitPaths m) {c : Byte} (hc : bitSymbol c ≠ none) : BitPaths (under c m) := by
  intro y hy
  obtain ⟨x, hx, rfl⟩ := List.mem_map.1 hy
  exact List.forall_mem_cons.2 ⟨hc, h x hx⟩

theorem bitPaths_append {m m' : CodeMap} : BitPaths (m ++ m') ↔ BitPaths m ∧ BitPaths m' := List.forall_mem_append

theorem BitPaths.perm {m m' : CodeMap} (h : BitPaths m) (hp : m.Perm m') : BitPaths m' := fun x hx => h x (hp.mem_iff.2 hx)

/-! ### The codes along the merges -/

/-- The codes of the forest, tree by tree. -/
def queueCodes (s : State) (q : List Key) : CodeMap := q.flatMap (fun k => codesAt s k.idx)

/-- The forest's codes while Q is merged: one per present symbol, each tree as heavy as its key. A rival's cost C still
covers the codes so far and some assignment of lengths to the weights in Q that meets the Kraft inequality. -/
structure MergedCodes (s0 : State) (L C : Nat) (s : State) (q : List Key) : Prop where
  symbols : ((queueCodes s q).map Prod.fst).Perm ((presentSymbols s0.freq).map Prod.fst)
  bits    : BitPaths (queueCodes s q)
  weights : ∀ k ∈ q, codeWeight s0 (codesAt s k.idx) = k.weight.toNat
  rival   : ∃ A : Lengths, (A.map Prod.fst).Perm (q.map (fun k => k.weight.toNat)) ∧ Kraft L (A.map Prod.snd) ∧
    lengthCost A + weightedLength s0 (queueCodes s q) ≤ C

/-- The codes after a merge of x and y: both a level down, the others as they were. -/
theorem codesAt_merge {s : State} {q : List Key} (hf : Forest s q) {q1 q2 : List Key} {x y : Key}
    (h1 : popLeast q = some (x, q1)) (h2 : popLeast q1 = some (y, q2)) :
    codesAt (alloc (mergedNode x y) s) s.nodeCnt = under 0x30 (codesAt s x.idx) ++ under 0x31 (codesAt s y.idx) ∧
      ∀ k ∈ q2, codesAt (alloc (mergedNode x y) s) k.idx = codesAt s k.idx := by
  have hperm := pop_two_perm h1 h2
  have hroom := hf.room_two hperm
  have hnode := nodeAt_alloc (mergedNode x y) (s := s) (by omega)
  have hold : ∀ k ∈ q, codesAt (alloc (mergedNode x y) s) k.idx = codesAt s k.idx := by
    refine fun k hk => codesAt_congr hf.below fun i hi => ?_
    have := hf.idx_lt hk
    rw [hnode, if_neg]
    rintro rfl
    omega
  have hx : x ∈ q := hperm.mem_iff.2 (by simp)
  have hy : y ∈ q := hperm.mem_iff.2 (by simp)
  have hltx := hf.idx_lt hx
  have hlty := hf.idx_lt hy
  refine ⟨?_, fun k hk => hold k (hperm.mem_iff.2 (by simp [hk]))⟩
  rw [codesAt_inner (hf.merge h1 h2).below ((hnode _).trans (if_pos rfl)) (ne_NIL_of_lt (i := x.idx) (by omega))
    (ne_NIL_of_lt (i := y.idx) (by omega))]
  exact congrArg₂ (under 0x30 · ++ under 0x31 ·) (hold x hx) (hold y hy)

theorem MergedCodes.merge {s0 s : State} {L C : Nat} {q q1 q2 : List Key} {x y : Key} (h : MergedCodes s0 L C s q)
    (hf : Forest s q) (hfit : queueSum q < 4294967296) (h1 : popLeast q = some (x, q1)) (h2 : popLeast q1 = some (y, q2)) :
    MergedCodes s0 L C (alloc (mergedNode x y) s) (keyOf s.nodeCnt (mergedNode x y) :: q2) := by
  have hperm := pop_two_perm h1 h2
  obtain ⟨hxy, hy⟩ := pop_two_least h1 h2
  obtain ⟨hnew, hold⟩ := codesAt_merge hf h1 h2
  have hw : (mergedNode x y).weight.toNat = x.weight.toNat + y.weight.toNat := mergedNode_weight hperm hfit
  have hwx := h.weights x (hperm.mem_iff.2 (by simp))
  have hwy := h.weights y (hperm.mem_iff.2 (by simp))
  have hbefore : (queueCodes s q).Perm (codesAt s x.idx ++ (codesAt s y.idx ++ queueCodes s q2)) := hperm.flatMap_right _
  have hafter : queueCodes (alloc (mergedNode x y) s) (keyOf s.nodeCnt (mergedNode x y) :: q2) =
      under 0x30 (codesAt s x.idx) ++ under 0x31 (codesAt s y.idx) ++ queueCodes s q2 :=
    congrArg₂ (· ++ ·) hnew (List.flatMap_congr hold)
  refine ⟨?_, ?_, ?_, ?_⟩
  · refine List.Perm.trans ?_ ((hbefore.map Prod.fst).symm.trans h.symbols)
    simp only [hafter, List.map_append, under_symbols, List.append_assoc]
    exact .rfl
  · have hbits := h.bits.perm hbefore
    rw [bitPaths_append, bitPaths_append] at hbits
    obtain ⟨hx, hy, h2⟩ := hbits
    rw [hafter, bitPaths_append, bitPaths_append]
    exact ⟨⟨hx.under (by decide), hy.under (by decide)⟩, h2⟩
  · refine List.forall_mem_cons.2 ⟨?_, fun k hk => ?_⟩
    · show codeWeight s0 (codesAt _ s.nodeCnt) = (mergedNode x y).weight.toNat
      rw [hnew, codeWeight_append, codeWeight_under, codeWeight_under, hwx, hwy, hw]
    · rw [hold k hk]
      exact h.weights k (hperm.mem_iff.2 (by simp [hk]))
  · obtain ⟨A, hA, hK, hcost⟩ := h.rival
    obtain ⟨B, hB, hKB, hcostB⟩ := merge_lengths (x := x.weight.toNat) (y := y.weight.toNat)
      (hA.trans (hperm.map _)) hK hxy (List.forall_mem_map.2 hy)
    refine ⟨B, .of_eq (hB.trans ?_), hKB, ?_⟩
    · rw [← hw]
      rfl
    · rw [weightedLength_perm s0 hbefore] at hcost
      rw [hafter]
      simp only [weightedLength_append, weightedLength_under] at hcost ⊢
      omega

/-! ### The symbols of a code -/

theorem mem_presentBytes {s : State} {b : Byte} : b ∈ (presentSymbols s.freq).map Prod.fst ↔ freqAt s b ≠ 0 := by
  simp [mem_presentSymbols]

theorem presentBytes_nodup (s : State) : ((presentSymbols s.freq).map Prod.fst).Nodup :=
  List.pairwise_map.2 ((presentSymbols_ascending s).imp fun h e => by rw [e] at h; omega)

/-- The counts of the present symbols, symbol by symbol. -/
theorem presentSymbols_counts (s : State) :
    ((presentSymbols s.freq).map Prod.fst).map (fun b => (freqAt s b).toNat) =
      (presentSymbols s.freq).map (fun p => p.2.toNat) := by
  rw [List.map_map]
  refine List.map_congr_left fun p hp => ?_
  rw [((mem_presentSymbols s p.1 p.2).1 hp).1]
  rfl

/-- A code for the symbols BUILD takes has one entry per present symbol. -/
theorem CodeForFreq.perm_present {s : State} {m : CodeMap} (h : CodeForFreq s m) :
    (m.map Prod.fst).Perm ((presentSymbols s.freq).map Prod.fst) :=
  (List.perm_ext_iff_of_nodup h.once (presentBytes_nodup s)).2 fun a => (h.symbols a).trans mem_presentBytes.symm

theorem CodeForFreq.of_perm_present {s : State} {m : CodeMap}
    (hp : (m.map Prod.fst).Perm ((presentSymbols s.freq).map Prod.fst)) (hne : ∀ x ∈ m, x.2 ≠ [])
    (hb : BitPaths m) : CodeForFreq s m :=
  ⟨hp.nodup_iff.2 (presentBytes_nodup s), fun _ => hp.mem_iff.trans mem_presentBytes, fun x hx => ⟨hne x hx, hb x hx⟩⟩

/-! ### From the leaves to the tree -/

theorem codesAt_allocLeaves {l : List (Byte × Word)} {s : State} (hc : s.nodeCnt = 0) (hl : l.length ≤ 256) {j : Nat}
    (hj : j < l.length) : codesAt (allocLeaves l s) (BitVec.ofNat 10 j) = [(l[j].1, [])] := by
  have hc0 : s.nodeCnt.toNat = 0 := by simp [hc]
  have hjn : (BitVec.ofNat 10 j).toNat = j := by rw [BitVec.toNat_ofNat]; omega
  refine codesAt_leaf (w := l[j].2) ?_
  rw [nodeAt_allocLeaves l s (by omega), if_neg (by omega), hjn, hc0, Nat.sub_zero, List.getElem?_eq_getElem hj]
  rfl

/-- Before the first merge every code is empty. -/
theorem queueCodes_leaves {l : List (Byte × Word)} {s : State} (hc : s.nodeCnt = 0) (hl : l.length ≤ 256) :
    queueCodes (allocLeaves l s) (leafKeys l) = l.map (fun p => (p.1, [])) := by
  have hmap : (leafKeys l).map (fun k => codesAt (allocLeaves l s) k.idx) = l.map (fun p => [(p.1, [])]) := by
    apply List.ext_getElem
    · simp [leafKeys]
    · intro j _ h
      simpa [leafKeys, keyOf] using codesAt_allocLeaves hc hl (by simpa using h)
  rw [queueCodes, List.flatMap_def, hmap, ← List.flatMap_def]
  exact List.flatMap_pure_eq_map _ _

theorem MergedCodes.start {s0 s : State} {L : Nat} {m : CodeMap} (hm : CodeForFreq s0 m)
    (hK : Kraft L (m.map (fun x => x.2.length))) (hc : s.nodeCnt = 0) :
    MergedCodes s0 L (weightedLength s0 m) (allocLeaves (presentSymbols s0.freq) s)
      (leafKeys (presentSymbols s0.freq)) := by
  have hlen := (presentSymbols_length s0).trans_le (symbolCount_le s0)
  refine ⟨?_, ?_, fun k hk => ?_, m.map (fun x => ((freqAt s0 x.1).toNat, x.2.length)), ?_, ?_, ?_⟩
  · rw [queueCodes_leaves hc hlen, List.map_map]
    exact .rfl
  · rw [queueCodes_leaves hc hlen]
    exact List.forall_mem_map.2 fun _ _ => nofun
  · obtain ⟨j, hj, rfl⟩ := mem_leafKeys.1 hk
    have hcount : (presentSymbols s0.freq)[j].2 = freqAt s0 (presentSymbols s0.freq)[j].1 :=
      ((mem_presentSymbols s0 _ _).1 (List.getElem_mem hj)).1
    show codeWeight s0 (codesAt _ (BitVec.ofNat 10 j)) = ((presentSymbols s0.freq)[j].2).toNat
    rw [codesAt_allocLeaves hc hlen hj, hcount]
    rfl
  · have hcounts := hm.perm_present.map (fun b => (freqAt s0 b).toNat)
    have hkeys := congrArg (List.map BitVec.toNat) (leafKeys_weight (presentSymbols s0.freq))
    rw [presentSymbols_counts] at hcounts
    simp only [List.map_map] at hcounts hkeys ⊢
    exact hcounts.trans (.of_eq hkeys.symm)
  · rw [List.map_map]
    exact hK
  · rw [queueCodes_leaves hc hlen]
    simp [lengthCost, weightedLength, Function.comp_def]

/-! ### The code BUILD makes -/

/-- What generateCodes answers, if it answers a map, are the paths to the leaves. -/
theorem generateCodes_eq_map {s : State} {m : CodeMap} (h : generateCodes s = .map m) : m = leafPaths s := by
  unfold generateCodes at h
  split at h
  · cases h
  · split at h
    · cases h
    · split at h <;> cases h
      rfl

/-- No code below a merge is empty. -/
theorem IsMerge.codes_ne_nil {s : State} (hb : ChildrenBelow s) {n : Idx} {r : Node} (hr : nodeAt s n = some r)
    (h : IsMerge s n r) {x : Byte × List Byte} (hx : x ∈ codesAt s n) : x.2 ≠ [] := by
  obtain ⟨rl, rr, _, hl, hrt, _⟩ := h
  have := n.isLt
  rw [codesAt_inner hb hr (ne_NIL_of_lt (by omega)) (ne_NIL_of_lt (by omega)), List.mem_append] at hx
  rcases hx with hx | hx <;>
  · obtain ⟨_, _, rfl⟩ := List.mem_map.1 hx
    exact List.cons_ne_nil _ _

/-- Two symbols or more: the merges keep their promise to the competitor m up to the last one, where Q is ROOT alone. -/
theorem built_code_optimal {s : State} {m : CodeMap} (h2 : 2 ≤ symbolCount s) (hsum : frequencySum s < 4294967296)
    (hm : CodeForFreq s m) (hp : PrefixFree m) :
    CodeForFreq s (leafPaths (built s)) ∧ weightedLength s (leafPaths (built s)) ≤ weightedLength s m := by
  obtain ⟨L, hK⟩ := hm.kraft hp
  obtain ⟨t, x, hf, ⟨hshape, hcodes⟩, he⟩ := built_merges
    (fun t q => MergedShape (presentSymbols s.freq) t q ∧ MergedCodes s L (weightedLength s m) t q) h2
    ⟨.start rfl ((presentSymbols_length s).trans_le (symbolCount_le s)) (by rwa [queueSum_leafKeys]), .start hm hK rfl⟩
    (fun t q x q1 y q2 hf h h1 h2 => ⟨h.1.merge hf h1 h2, h.2.merge hf h.1.fits h1 h2⟩)
  obtain ⟨r, hr, _⟩ := hf.records x List.mem_cons_self
  have hpaths : leafPaths (built s) = codesAt t x.idx := by
    rw [he]
    exact visit_congr hf.below _ _ _ _ (nodeAt_lt hr) (Nat.lt_succ_self _) fun _ _ => rfl
  have hmerge : IsMerge t x.idx r := by
    have hcount := hshape.count
    have := hf.root_last
    rw [List.length_singleton, presentSymbols_length] at hcount
    exact hshape.merges _ r (by rw [presentSymbols_length]; omega) hr
  obtain ⟨hsymbols, hbits, _, A, _, _, hcost⟩ := hcodes
  rw [show queueCodes t [x] = codesAt t x.idx from List.append_nil _, ← hpaths] at hsymbols hbits hcost
  exact ⟨.of_perm_present hsymbols (fun y hy => hmerge.codes_ne_nil hf.below hr (hpaths ▸ hy)) hbits, by omega⟩

/-- One symbol: no code is shorter than one bit. -/
theorem single_code_optimal {s : State} {m : CodeMap} {a : Byte} {w : Word} (h : presentSymbols s.freq = [(a, w)])
    (hm : CodeForFreq s m) :
    CodeForFreq s [(a, [0x30])] ∧ weightedLength s [(a, [0x30])] ≤ weightedLength s m := by
  have hperm := hm.perm_present
  rw [h, List.map_singleton, List.perm_singleton] at hperm
  obtain ⟨⟨a, p⟩, rfl, rfl⟩ := List.map_eq_singleton_iff.1 hperm
  have hlen := List.length_pos_iff.2 (hm.paths _ List.mem_cons_self).1
  refine ⟨.of_perm_present (.of_eq (by rw [h]; rfl)) (by simp) (by simp [BitPaths, bitSymbol]), ?_⟩
  simpa [weightedLength] using Nat.le_mul_of_pos_right _ hlen

end Sys2Proof.Machine

namespace Sys2Proof.Proofs

open Sys2Proof.Machine

/-- Settles O60: each merge is the best next step against any rival code (Kraft's inequality and an exchange), and
the one-symbol tree is written out. -/
theorem builtCodeIsOptimal : Obligations.BuiltCodeIsOptimal := by
  intro s t m m' hq hf hsum ht hm hm' hp
  obtain rfl : built s = t := by
    rw [exec_build_accepts hq hf hsum] at ht
    cases ht
    rfl
  by_cases h1 : symbolCount s = 1
  · obtain ⟨a, w, h⟩ := exists_single h1
    rw [built_single h, generateCodes_singleTree] at hm
    cases hm
    exact single_code_optimal h hm'
  · have hpos := (symbolCount_pos s).2 hf
    rw [generateCodes_eq_map hm]
    exact built_code_optimal (by omega) hsum hm' hp

end Sys2Proof.Proofs
end

section
/-! PROOF. The load session's edges and its characters: LBEGIN, PPUSH and LEND (42_tree_load.md R151, R153, R158). -/

namespace Sys2Proof.Machine

/-- A command of the row that runs in LOAD mode raises CommandSequenceError elsewhere only. -/
theorem RunsWhenLoading.of_access {i : Instr} (hrow : access i = accessRow .seq .run .seq .seq .drop) :
    RunsWhenLoading i where
  quiet s hq := by
    have ha : access i s.mode = .seq := by rcases hq with hm | hm <;> rw [hrow, hm] <;> rfl
    rw [exec_seq ha, raise_quiet _ _ _ hq]
  load s hm := by
    have ha : access i s.mode = .run := by rw [hrow]; exact loadRow_run.2 hm
    exact .of_body ha fun t => bodyOf_errCode ha
  decode s hm := by rw [exec_seq (by rw [hrow, hm]; rfl), raise_decode _ _ _ hm]
  fault s hm := exec_drop (by rw [hrow, hm]; rfl)

/-- LBEGIN in IDLE and READY (R151). -/
theorem exec_lbegin {s : State} (hq : Quiet s) : exec .lbegin s = .next (emptyLoad s) :=
  exec_run (i := .lbegin) (quietRow_run.2 hq)

/-- LEND in LOAD mode (R158). -/
theorem exec_lend {s : State} (hm : s.mode = .load) : exec .lend s = .next { clearPath s with mode := .ready } :=
  exec_run (i := .lend) (loadRow_run.2 hm)

/-- PPUSH's word by shifts (30_encoding.md R81, R83). -/
theorem ppush_word (a : Byte) : (0x8 : Word) <<< 28 ||| a.setWidth 32 <<< 16 = encode (.ppush a) := by
  have ha := a.isLt
  refine BitVec.eq_of_toNat_eq ((?_ : _ = _).trans (formatS_toNat 0x8 a).symm)
  calc _ = 8 * 2 ^ 28 ||| a.toNat * 2 ^ 16 := by
        simp (disch := omega) [Nat.mod_eq_of_lt, Nat.shiftLeft_eq]
    _ = 8 * 2 ^ 28 + a.toNat * 2 ^ 16 := mul_or_of_lt 8 (by omega)

/-- PPUSH into a buffer with room (R153). -/
theorem exec_ppush_fits {s : State} (a : Byte) (hm : s.mode = .load) (hroom : s.pLen.toNat < Config.params.pathMax) :
    exec (.ppush a) s = .next (pushPath a s) := by
  rw [exec_run (i := .ppush a) (loadRow_run.2 hm)]
  simp only [bodyOf, ppushBody, room_free hroom]

/-- PPUSH into a full buffer (R153). -/
theorem exec_ppush_full {s : State} (a : Byte) (hm : s.mode = .load) (hfull : s.pLen.toNat = Config.params.pathMax) :
    exec (.ppush a) s = .next (loadFault s .pathOverflow (zext32 a) (zext32 s.pLen)) := by
  rw [exec_run (i := .ppush a) (loadRow_run.2 hm), ← raise_load _ _ _ hm]
  simp only [bodyOf, ppushBody, room_full hfull]

end Sys2Proof.Machine

namespace Sys2Proof.Proofs

open Sys2Proof.Machine

/-- Settles O35. -/
theorem lbeginStartsWithAnEmptyRoot : Obligations.LbeginStartsWithAnEmptyRoot :=
  ⟨decode_encode .lbegin, .of_access rfl, fun _ hq => exec_lbegin hq⟩

/-- Settles O36, by whether PATH has room. -/
theorem ppushStoresTheCharacter : Obligations.PpushStoresTheCharacter := by
  intro a
  refine ⟨ppush_word a ▸ decode_encode _, .of_access rfl, fun s hm => ⟨fun hroom => ?_, exec_ppush_full a hm⟩⟩
  refine ⟨_, exec_ppush_fits a hm hroom, rfl, pushPath_count a hroom, ?_, fun i hi => ?_⟩
  · rw [pathAt_pushPath a hroom, if_pos rfl]
  · rw [pathAt_pushPath a hroom, if_neg (by omega)]

/-- Settles O42. -/
theorem lendClosesTheSession : Obligations.LendClosesTheSession :=
  ⟨decode_encode .lend, .of_access rfl, fun _ hm => exec_lend hm⟩

end Sys2Proof.Proofs
end

section
/-! PROOF. INSERT by where its path leads (42_tree_load.md R155): to no tree, into a symbol, to its end, out of the
tree. -/

namespace Sys2Proof.Machine

/-! ### The detail words (60_exceptions.md R222) -/

theorem infoPair_eq (hi lo : Byte) : infoPair hi lo = BitVec.ofNat 32 (hi.toNat * 256 + lo.toNat) := by
  have hhi := hi.isLt
  have hlo := lo.isLt
  refine BitVec.eq_of_toNat_eq ?_
  calc (infoPair hi lo).toNat = hi.toNat * 2 ^ 8 ||| lo.toNat := by
        simp (disch := omega) [infoPair, zext32, Nat.mod_eq_of_lt, Nat.shiftLeft_eq]
    _ = hi.toNat * 2 ^ 8 + lo.toNat := mul_or_of_lt _ hlo
    _ = _ := by rw [BitVec.toNat_ofNat]; omega

/-- Bit 16 stands clear of a 16-bit number. -/
theorem bit16_or {w : Word} {n : Nat} (hw : w.toNat = n) (hn : n < 2 ^ 16) :
    (1 <<< 16 : Word) ||| w = BitVec.ofNat 32 (0x10000 + n) := by
  refine BitVec.eq_of_toNat_eq ?_
  calc ((1 <<< 16 : Word) ||| w).toNat = 1 * 2 ^ 16 ||| n := by rw [BitVec.toNat_or, hw]; rfl
    _ = 1 * 2 ^ 16 + n := mul_or_of_lt 1 hn
    _ = _ := by rw [BitVec.toNat_ofNat]; omega

theorem infoEmptyPath_eq (a : Byte) : infoEmptyPath a = BitVec.ofNat 32 (0x10000 + a.toNat * 256) := by
  have ha := a.isLt
  refine bit16_or ?_ (by omega)
  simp (disch := omega) [zext32, Nat.mod_eq_of_lt, Nat.shiftLeft_eq]

theorem infoInner_eq (a : Byte) : infoInner a = BitVec.ofNat 32 (0x10000 + a.toNat) := by
  have ha := a.isLt
  refine bit16_or ?_ (by omega)
  simp (disch := omega) [zext32, Nat.mod_eq_of_lt]

/-! ### Step 1: the path is validated -/

theorem exec_insert {a : Byte} {s : State} (hm : s.mode = .load) :
    exec (.insert a) s = insertBody Config.params a s := exec_run (i := .insert a) (loadRow_run.2 hm)

theorem insertBody_empty {P : Config.Params} {a : Byte} {s : State} (hp : s.pLen = 0) :
    insertBody P a s = raised .malformedCode (infoEmptyPath a) 0 s := if_pos hp

theorem insertBody_bad {P : Config.Params} {a c : Byte} {s : State} {p q : List Byte} (hrec : recordPath s = some (p ++ c :: q))
    (hp : ∀ d ∈ p, bitSymbol d ≠ none) (hc : bitSymbol c = none) :
    insertBody P a s = raised .malformedCode (infoPair a c) (BitVec.ofNat 32 p.length) s := by
  have hne : s.pLen ≠ 0 := by
    intro h0
    have := (pathFrom_get hrec).1
    rw [h0] at this
    simp at this
  unfold insertBody
  rw [if_neg hne, hrec]
  simp only [firstBad_eq hp hc, Nat.zero_add]

/-- The record's path is what PATH holds below PLEN. -/
theorem recordPath_eq_some {s : State} {p : List Byte} :
    recordPath s = some p ↔ p.length = s.pLen.toNat ∧ ∀ j, j < s.pLen.toNat → pathAt s j = p[j]? := by
  constructor
  · intro h
    simpa only [Nat.zero_add] using pathFrom_get h
  · rintro ⟨hlen, hget⟩
    have hread : ∀ j, j < s.pLen.toNat → pathAt s (0 + j) ≠ none := by
      intro j hj
      rw [Nat.zero_add, hget j hj, List.getElem?_eq_getElem (by omega)]
      exact nofun
    obtain ⟨p', hp'⟩ := pathFrom_some hread
    obtain ⟨hlen', hget'⟩ := pathFrom_get hp'
    have hsame : p' = p := by
      refine List.ext_getElem? fun j => ?_
      by_cases hj : j < s.pLen.toNat
      · rw [← hget' j hj, Nat.zero_add, hget j hj]
      · rw [List.getElem?_eq_none (by omega), List.getElem?_eq_none (by omega)]
    rw [recordPath, hp', hsame]

/-- PATH with its first bad character at index i, as the record's path. -/
theorem recordPath_split {s : State} {i : Nat} {c : Byte} (hi : i < s.pLen.toNat)
    (hread : ∀ j, j < s.pLen.toNat → pathAt s j ≠ none) (hc : pathAt s i = some c)
    (hgood : ∀ j, j < i → pathAt s j = some 0x30 ∨ pathAt s j = some 0x31) :
    ∃ p q, recordPath s = some (p ++ c :: q) ∧ p.length = i ∧ ∀ d ∈ p, bitSymbol d ≠ none := by
  obtain ⟨path, hpath⟩ := pathFrom_some (s := s) (i := 0) (fun j hj => by rw [Nat.zero_add]; exact hread j hj)
  obtain ⟨hlen, hget⟩ := recordPath_eq_some.1 hpath
  have hci : path[i]'(by omega) = c := by
    have := (hget i hi).symm.trans hc
    rwa [List.getElem?_eq_getElem (by omega), Option.some.injEq] at this
  refine ⟨path.take i, path.drop (i + 1), ?_, by rw [List.length_take]; omega, ?_⟩
  · rw [← hci, ← List.drop_eq_getElem_cons, List.take_append_drop]
    exact hpath
  · intro d hd
    obtain ⟨j, hj, rfl⟩ := List.mem_take_iff_getElem.1 hd
    have hjlen : j < path.length := by omega
    have hd' := hgood j (by omega)
    rw [hget j (by omega), List.getElem?_eq_getElem hjlen, Option.some.injEq, Option.some.injEq] at hd'
    rcases hd' with e | e <;> rw [e] <;> decide

/-! ### Step 2: one turn of the walk -/

section
variable {P : Config.Params} {a : Byte} {i : Nat} {b : Side} {n : Idx} {s : State} {r : Node}

theorem walkStep_symbol {held : Byte} (hn : nodeAt s n = some r) (hs : r.sym = some held) :
    walkStep P a i b n s = .ended (raised .prefixConflict (infoPair held a) (BitVec.ofNat 32 i) s) := by
  simp only [walkStep, hn, hs]

theorem walkStep_grow (hn : nodeAt s n = some r) (hs : r.sym = none) (hc : r.child b = NIL)
    (hroom : s.nodeCnt.toNat < P.nodeN) : walkStep P a i b n s = .reached s.nodeCnt (grown n r b s) := by
  simp only [walkStep, hn, hs, if_pos hc, room_free hroom, grown]

theorem walkStep_full (hn : nodeAt s n = some r) (hs : r.sym = none) (hc : r.child b = NIL)
    (hfull : s.nodeCnt.toNat = P.nodeN) :
    walkStep P a i b n s = .ended (raised .nodeMemoryFull (zext32 a) (BitVec.ofNat 32 i) s) := by
  simp only [walkStep, hn, hs, if_pos hc, room_full hfull]

theorem nodeAt_grown_new (hn : nodeAt s n = some r) (hcnt : s.nodeCnt.toNat < 1023) :
    nodeAt (grown n r b s) s.nodeCnt = some emptyNode := by
  have hlt := nodeAt_lt hn
  have hne : s.nodeCnt ≠ n := by rintro e; rw [e] at hlt; omega
  rw [nodeAt_grown b hn hcnt, if_neg hne, if_pos rfl]

end

/-! ### Step 3: the terminal node -/

section
variable {a : Byte} {n : Idx} {s : State} {r : Node}

theorem markTerminal_other {held : Byte} (hn : nodeAt s n = some r) (hs : r.sym = some held) (hne : held ≠ a) :
    markTerminal a n s = raised .duplicateCode (infoPair held a) (zext32 s.pLen) s := by
  simp only [markTerminal, hn, hs, if_neg hne]

/-- A node without a symbol or with the record's own is judged by its children. -/
theorem markTerminal_free (hn : nodeAt s n = some r) (hs : r.sym = none ∨ r.sym = some a) :
    markTerminal a n s = if r.isLeaf then .next (clearPath (writeNode n (r.withSym a) s))
      else raised .prefixConflict (infoInner a) (zext32 s.pLen) s := by
  rcases hs with hs | hs
  · simp only [markTerminal, hn, hs]
  · simp only [markTerminal, hn, hs, if_true]

end

/-- What INSERT answers by the end of its walk. -/
def finishInsert (a : Byte) : Walk → Result
  | .ended r => r
  | .reached n s => markTerminal a n s

/-- INSERT of a path that is there up to a node, past no symbol, goes on from this node. -/
theorem insert_from {a : Byte} {s : State} {q rest : List Byte} {n : Idx} (hm : s.mode = .load)
    (hv : ValidRecord s (q ++ rest)) (hq : follow s s.root q = some n) (ho : OpenPath s q) :
    exec (.insert a) s = finishInsert a (walk Config.params a q.length rest n s) := by
  have hrun : exec (.insert a) s = finishInsert a (walk Config.params a 0 (q ++ rest) s.root s) := insert_run hm hv
  rw [hrun, walk_existing rest q 0 s.root n hq ho, Nat.zero_add]

/-- INSERT of a path that is there to its end, past no symbol, judges the node at its end. -/
theorem insert_at_end {a : Byte} {s : State} {p : List Byte} {n : Idx} (hm : s.mode = .load) (hv : ValidRecord s p)
    (hp : follow s s.root p = some n) (ho : OpenPath s p) : exec (.insert a) s = markTerminal a n s :=
  insert_from (rest := []) hm (by rwa [List.append_nil]) hp ho

/-- A walk that needs more nodes than there is room for ends where the room does, and leaves no trace. -/
theorem walk_full {P : Config.Params} {a : Byte} (hP : P.nodeN ≤ 1023) :
    ∀ (cs : List Byte) (i : Nat) (n : Idx) (s : State) (r : Node), s.mode = .load → nodeAt s n = some r → r.sym = none →
      (∀ b, cs.head?.bind bitSymbol = some b → r.child b = NIL) → (∀ c ∈ cs, bitSymbol c ≠ none) →
      s.nodeCnt.toNat ≤ P.nodeN → P.nodeN < s.nodeCnt.toNat + cs.length →
      walk P a i cs n s = .ended (.next (loadFault s .nodeMemoryFull (zext32 a)
        (BitVec.ofNat 32 (i + (P.nodeN - s.nodeCnt.toNat))))) := by
  intro cs
  induction cs with
  | nil => intro i n s r _ _ _ _ _ hle hlt; simp at hlt; omega
  | cons c cs ih =>
    intro i n s r hm hn hs hchild hv hle hlt
    rw [List.length_cons] at hlt
    obtain ⟨b, hb⟩ := Option.ne_none_iff_exists'.1 (hv c (by simp))
    have hc : r.child b = NIL := hchild b hb
    rw [walk_cons, walkSide_eq hb]
    by_cases hfull : s.nodeCnt.toNat = P.nodeN
    · rw [walkStep_full hn hs hc hfull, raised, raise_load _ _ _ hm, hfull, Nat.sub_self]
      rfl
    · have hcnt := grown_count (n := n) (r := r) b (s := s) (by omega)
      have hrest := ih (i + 1) s.nodeCnt (grown n r b s) emptyNode hm (nodeAt_grown_new hn (by omega)) rfl
        (fun b' _ => child_emptyNode b') (fun d hd => hv d (by simp [hd])) (by omega) (by omega)
      rw [walkStep_grow hn hs hc (by omega)]
      simp only
      rw [hrest, loadFault_congr (s := s) rfl, hcnt,
        show i + 1 + (P.nodeN - (s.nodeCnt.toNat + 1)) = i + (P.nodeN - s.nodeCnt.toNat) by omega]

/-! ### A path that leaves the tree -/

/-- What a walk that leaves the tree at node n with record r, for the characters c :: cs, makes of NODE up to the mark of
its last node: a chain of new nodes from NODECNT on, hung on n. -/
structure Chained (s : State) (n : Idx) (r : Node) (b : Side) (cs : List Byte) (tip : Node) (t : State) : Prop where
  count  : t.nodeCnt.toNat = s.nodeCnt.toNat + cs.length + 1
  last   : nodeAt t (BitVec.ofNat 10 (s.nodeCnt.toNat + cs.length)) = some tip
  inner  : ∀ j b', cs[j]?.bind bitSymbol = some b' → nodeAt t (BitVec.ofNat 10 (s.nodeCnt.toNat + j)) =
    some (emptyNode.withChild b' (BitVec.ofNat 10 (s.nodeCnt.toNat + j + 1)))
  parent : nodeAt t n = some (r.withChild b s.nodeCnt)
  others : ∀ k x, nodeAt s k = some x → k ≠ n → nodeAt t k = some x

theorem walk_chains {P : Config.Params} {a c : Byte} {cs : List Byte} {i : Nat} {n : Idx} {s : State} {r : Node} {b : Side}
    (hP : P.nodeN ≤ 1023) (hn : nodeAt s n = some r) (hs : r.sym = none) (hb : bitSymbol c = some b) (hc : r.child b = NIL)
    (hv : ∀ d ∈ cs, bitSymbol d ≠ none) (hroom : s.nodeCnt.toNat + cs.length + 1 ≤ P.nodeN) :
    ∃ t, walk P a i (c :: cs) n s = .reached (BitVec.ofNat 10 (s.nodeCnt.toNat + cs.length)) t ∧
      Chained s n r b cs emptyNode t := by
  have hlt := nodeAt_lt hn
  have hcnt := grown_count (n := n) (r := r) b (s := s) (by omega)
  have hnode := nodeAt_grown b hn (by omega : s.nodeCnt.toNat < 1023)
  obtain ⟨t, hw, hcount, hlast, hinner, hold⟩ := walk_fresh (a := a) hP cs (i + 1) s.nodeCnt (grown n r b s) hcnt.symm
    (nodeAt_grown_new hn (by omega)) hv (by omega)
  have hne : ∀ k, k.toNat < s.nodeCnt.toNat → k ≠ s.nodeCnt := by rintro k hk rfl; omega
  refine ⟨t, ?_, by omega, hlast, hinner, hold n _ (by rw [hnode, if_pos rfl]) (hne n hlt), ?_⟩
  · rw [walk_cons, walkSide_eq hb, walkStep_grow hn hs hc (by omega)]
    exact hw
  · intro k x hk hkn
    have hk' := hne k (nodeAt_lt hk)
    exact hold k x (by rw [hnode, if_neg hkn, if_neg hk']; exact hk) hk'

theorem ofNat_idx_inj {m n : Nat} (hm : m < 1024) (hn : n < 1024) (h : BitVec.ofNat 10 m = BitVec.ofNat 10 n) : m = n := by
  have := congrArg BitVec.toNat h
  rwa [BitVec.toNat_ofNat, BitVec.toNat_ofNat, Nat.mod_eq_of_lt hm, Nat.mod_eq_of_lt hn] at this

/-- The mark at the end of the chain touches the last node only. -/
theorem Chained.mark {s t : State} {n : Idx} {r x : Node} {b : Side} {cs : List Byte} (h : Chained s n r b cs x t)
    (hn : nodeAt s n = some r) (hroom : s.nodeCnt.toNat + cs.length < 1023) (y : Node) :
    Chained s n r b cs y (clearPath (writeNode (BitVec.ofNat 10 (s.nodeCnt.toNat + cs.length)) y t)) := by
  have hidx : (BitVec.ofNat 10 (s.nodeCnt.toNat + cs.length)).toNat = s.nodeCnt.toNat + cs.length := by
    rw [BitVec.toNat_ofNat]; omega
  have hcount := h.count
  have hnode : ∀ k, nodeAt (clearPath (writeNode (BitVec.ofNat 10 (s.nodeCnt.toNat + cs.length)) y t)) k =
      if k = BitVec.ofNat 10 (s.nodeCnt.toNat + cs.length) then some y else nodeAt t k :=
    fun k => nodeAt_writeNode (s := t) _ y (by omega) k
  have hold : ∀ k, k.toNat < s.nodeCnt.toNat → k ≠ BitVec.ofNat 10 (s.nodeCnt.toNat + cs.length) := by
    rintro k hk rfl; omega
  refine ⟨h.count, by rw [hnode, if_pos rfl], fun j b' hj => ?_, ?_, fun k z hk hkn => ?_⟩
  · have hjlen : j < cs.length := by
      by_contra hge
      rw [List.getElem?_eq_none (by omega)] at hj
      exact absurd hj nofun
    rw [hnode, if_neg (fun e => by have := ofNat_idx_inj (by omega) (by omega) e; omega)]
    exact h.inner j b' hj
  · rw [hnode, if_neg (hold n (nodeAt_lt hn))]; exact h.parent
  · rw [hnode, if_neg (hold k (nodeAt_lt hk))]; exact h.others k z hk hkn

/-- A path that is there stays there when a missing child is hung on one node. -/
theorem Chained.follow_old {s t : State} {n : Idx} {r x : Node} {b : Side} {cs : List Byte} (h : Chained s n r b cs x t)
    (hn : nodeAt s n = some r) (hc : r.child b = NIL) {q : List Byte} {k m : Idx} (hq : follow s k q = some m) :
    follow t k q = some m := by
  refine follow_congr q k m (fun j y hj => ?_) hq
  by_cases hjn : j = n
  · subst hjn
    rw [hn] at hj
    cases hj
    refine ⟨_, h.parent, fun b' hb' => child_withChild_other r _ ?_⟩
    rintro rfl
    exact hb' hc
  · exact ⟨y, h.others j y hj hjn, fun _ _ => rfl⟩

/-- A chain of new nodes at rising indexes is followed to its end. -/
theorem follow_chain {t : State} : ∀ (cs : List Byte) (k : Nat),
    (∀ j b, cs[j]?.bind bitSymbol = some b → nodeAt t (BitVec.ofNat 10 (k + j)) =
      some (emptyNode.withChild b (BitVec.ofNat 10 (k + j + 1)))) →
    (∀ c ∈ cs, bitSymbol c ≠ none) → k + cs.length < 1023 →
    follow t (BitVec.ofNat 10 k) cs = some (BitVec.ofNat 10 (k + cs.length)) := by
  intro cs
  induction cs with
  | nil => intro k _ _ _; rfl
  | cons c cs ih =>
    intro k hchain hv hk
    rw [List.length_cons] at hk
    obtain ⟨b, hb⟩ := Option.ne_none_iff_exists'.1 (hv c (by simp))
    have hfirst : nodeAt t (BitVec.ofNat 10 k) = some (emptyNode.withChild b (BitVec.ofNat 10 (k + 1))) := hchain 0 b hb
    have hne : BitVec.ofNat 10 (k + 1) ≠ NIL := ne_NIL_of_lt (by rw [BitVec.toNat_ofNat]; omega)
    have hrest := ih (k + 1) (fun j b' hj => ?_) (fun d hd => hv d (by simp [hd])) (by omega)
    · simp only [follow, hb, hfirst, child_withChild_same]
      rw [if_neg hne, hrest, List.length_cons, show k + 1 + cs.length = k + (cs.length + 1) by omega]
    · rw [show k + 1 + j = k + (j + 1) by omega]
      exact hchain (j + 1) b' (by simpa using hj)

theorem Chained.follow_new {s t : State} {n : Idx} {r x : Node} {c : Byte} {b : Side} {cs : List Byte}
    (h : Chained s n r b cs x t) (hb : bitSymbol c = some b) (hv : ∀ d ∈ cs, bitSymbol d ≠ none)
    (hroom : s.nodeCnt.toNat + cs.length < 1023) :
    follow t n (c :: cs) = some (BitVec.ofNat 10 (s.nodeCnt.toNat + cs.length)) := by
  have hne : s.nodeCnt ≠ NIL := ne_NIL_of_lt (by omega)
  have hchain := follow_chain cs s.nodeCnt.toNat h.inner hv hroom
  rw [BitVec.ofNat_toNat, BitVec.setWidth_eq] at hchain
  simp only [follow, hb, h.parent, child_withChild_same]
  rw [if_neg hne, hchain]

/-- The new path is followed to the last of the new nodes. -/
theorem Chained.follow_path {s t : State} {n : Idx} {r x : Node} {c : Byte} {b : Side} {q cs : List Byte} {k : Idx}
    (h : Chained s n r b cs x t) (hq : follow s k q = some n) (hn : nodeAt s n = some r) (hc : r.child b = NIL)
    (hb : bitSymbol c = some b) (hv : ∀ d ∈ cs, bitSymbol d ≠ none) (hroom : s.nodeCnt.toNat + cs.length < 1023) :
    follow t k (q ++ c :: cs) = some (BitVec.ofNat 10 (s.nodeCnt.toNat + cs.length)) :=
  follow_append q (c :: cs) k n _ (h.follow_old hn hc hq) (h.follow_new hb hv hroom)

/-- INSERT of a path that leaves the tree hangs a chain of new nodes on the node it leaves from, the last a leaf with the
record's symbol. -/
theorem insert_chains {a c : Byte} {s : State} {q cs : List Byte} {n : Idx} {r : Node} {b : Side} (hm : s.mode = .load)
    (hv : ValidRecord s (q ++ c :: cs)) (hq : follow s s.root q = some n) (ho : OpenPath s q) (hb : bitSymbol c = some b)
    (hn : nodeAt s n = some r) (hs : r.sym = none) (hc : r.child b = NIL) (hroom : s.nodeCnt.toNat + (cs.length + 1) ≤ 512) :
    ∃ t, exec (.insert a) s = .next t ∧ t = { s with node := t.node, nodeCnt := t.nodeCnt, pLen := 0, path := [] } ∧
      Chained s n r b cs (leafNode a 0) t := by
  have hvalid : ∀ d ∈ cs, bitSymbol d ≠ none := fun d hd => hv.2.2 d (by simp [hd])
  obtain ⟨t, hw, hchain⟩ := walk_chains (P := Config.params) (a := a) (i := q.length) (by decide) hn hs hb hc hvalid hroom
  refine ⟨clearPath (writeNode (BitVec.ofNat 10 (s.nodeCnt.toNat + cs.length)) (leafNode a 0) t), ?_, ?_,
    hchain.mark hn (by omega) (leafNode a 0)⟩
  · rw [insert_from hm hv hq ho, hw, finishInsert, markTerminal_free hchain.last (.inl rfl)]
    rfl
  · rw [walk_frame hw]
    rfl

end Sys2Proof.Machine

namespace Sys2Proof.Proofs

open Sys2Proof.Machine

/-- Settles O37: both tests of step 1. -/
theorem insertRejectsMalformedPaths : Obligations.InsertRejectsMalformedPaths := by
  intro a s hm
  rw [exec_insert hm]
  refine ⟨fun hp => ?_, fun i c hi hread hc h0 h1 hgood => ?_⟩
  · rw [insertBody_empty hp, raised, raise_load _ _ _ hm, infoEmptyPath_eq]
  · obtain ⟨p, q, hrec, rfl, hp⟩ := recordPath_split hi hread hc hgood
    rw [insertBody_bad hrec hp (bitSymbol_eq_none.2 ⟨h0, h1⟩), raised, raise_load _ _ _ hm, infoPair_eq]

/-- Settles O38: the walk's turn at a node with a symbol, and the two refusals of the terminal node. -/
theorem insertConflictsFault : Obligations.InsertConflictsFault := by
  intro a s p hm hv
  refine ⟨?_, fun n r ho hp hn => ⟨fun b hs hne => ?_, fun hs hl => ?_⟩⟩
  · rintro q n r b ⟨rest, rfl⟩ hne ho hq hn hs
    cases rest with
    | nil => exact absurd (List.append_nil q).symm hne
    | cons c cs =>
      rw [insert_from hm hv hq ho, walk_cons, walkStep_symbol hn hs, finishInsert, raised, raise_load _ _ _ hm, infoPair_eq]
  · rw [insert_at_end hm hv hp ho, markTerminal_other hn hs hne, raised, raise_load _ _ _ hm, infoPair_eq]
    rfl
  · rw [insert_at_end hm hv hp ho, markTerminal_free hn hs, if_neg (by simp [hl]), raised, raise_load _ _ _ hm, infoInner_eq]
    rfl

/-- Settles O39, by induction on the characters that leave the tree. -/
theorem insertIntoFullArenaFaults : Obligations.InsertIntoFullArenaFaults := by
  rintro a s q rest n hm hv ⟨hq, ho, r, c, cs, b, rfl, hb, hn, hs, hc⟩ hle hlt
  have hvalid : ∀ d ∈ c :: cs, bitSymbol d ≠ none := fun d hd => hv.2.2 d (List.mem_append_right q hd)
  have hchild : ∀ b', (c :: cs).head?.bind bitSymbol = some b' → r.child b' = NIL := by
    intro b' hb'
    cases hb.symm.trans hb'
    exact hc
  rw [insert_from hm hv hq ho, walk_full (by decide) (c :: cs) q.length n s r hm hn hs hchild hvalid hle hlt]
  rfl

/-- Settles O40: the chain of new nodes is followed to its end. -/
theorem insertAddsTheLeaf : Obligations.InsertAddsTheLeaf := by
  rintro a s q rest n hm hv ⟨hq, ho, r, c, cs, b, rfl, hb, hn, hs, hc⟩ hroom
  have hvalid : ∀ d ∈ cs, bitSymbol d ≠ none := fun d hd => hv.2.2 d (by simp [hd])
  rw [List.length_cons, params_nodeN] at hroom
  obtain ⟨t, hrun, hframe, hchain⟩ := insert_chains (a := a) hm hv hq ho hb hn hs hc hroom
  have hroot : t.root = s.root := by rw [hframe]
  refine ⟨t, hrun, hframe, hchain.count, ⟨_, ?_, ?_, hchain.last⟩, fun j b' hj => hchain.inner j b' (by simpa using hj), ?_,
    hchain.others⟩
  · rw [hroot]
    exact hchain.follow_path hq hn hc hb hvalid (by omega)
  · rw [BitVec.toNat_ofNat, List.length_cons]; omega
  · intro r' b' hr' hb'
    cases hn.symm.trans hr'
    cases hb.symm.trans hb'
    exact hchain.parent

/-- Settles O41: the mark writes the record that stands there. -/
theorem insertAgainChangesNothing : Obligations.InsertAgainChangesNothing := by
  intro a s p n r hm hv ho hp hn hs hl hwf
  have hmark : r.withSym a = r := by rw [Node.withSym, ← hs]
  have hread : Memory.read s.node n.toNat = some r := by rwa [nodeAt, if_pos (nodeAt_lt hn)] at hn
  rw [insert_at_end hm hv hp ho, markTerminal_free hn (.inr hs), if_pos hl, hmark, writeNode, Memory.write_same _ _ _ hwf hread]
  rfl

end Sys2Proof.Proofs
end

section
/-! PROOF. What a load session builds (42_tree_load.md R150, R159): the paths of a tree, the distinct parts of a table's
paths, and the table a tree holds through each record. -/

namespace Sys2Proof.Machine

/-! ### Paths in a tree -/

/-- The indexes of the written nodes, as what a path can lead to. -/
def writtenIndexes (s : State) : List (Option Idx) := (List.range s.nodeCnt.toNat).map (fun k => some (BitVec.ofNat 10 k))

theorem mem_writtenIndexes {s : State} {k : Idx} (hk : k.toNat < s.nodeCnt.toNat) : some k ∈ writtenIndexes s :=
  List.mem_map.2 ⟨k.toNat, List.mem_range.2 hk, by rw [BitVec.ofNat_toNat, BitVec.setWidth_eq]⟩

theorem writtenIndexes_length (s : State) : (writtenIndexes s).length = s.nodeCnt.toNat := by simp [writtenIndexes]

section
variable {s t : State} {n m i : Idx} {p q : List Byte}

theorem follow_cons {c : Byte} :
    follow s n (c :: q) = some m ↔ ∃ b k, bitSymbol c = some b ∧ ChildOf s n b k ∧ follow s k q = some m := by
  constructor
  · intro h
    simp only [follow] at h
    split at h
    · rename_i b r hb hr
      split at h
      · exact absurd h nofun
      · rename_i hc
        exact ⟨b, _, hb, childOf_of_nodeAt hr hc, h⟩
    · exact absurd h nofun
  · rintro ⟨b, k, hb, ⟨hne, r, hr, rfl⟩, h⟩
    simp only [follow, hb, hr]
    rwa [if_neg hne]

/-- The first part of a path that is there is there. -/
theorem follow_split : follow s n (p ++ q) = some m → ∃ k, follow s n p = some k ∧ follow s k q = some m := by
  induction p generalizing n with
  | nil => exact fun h => ⟨n, rfl, h⟩
  | cons c p ih =>
    intro h
    obtain ⟨b, j, hb, hj, h⟩ := follow_cons.1 h
    obtain ⟨k, hp, hq⟩ := ih h
    exact ⟨k, follow_cons.2 ⟨b, j, hb, hj, hp⟩, hq⟩

/-- The last turn of a path that is there. -/
theorem follow_concat {c : Byte} (h : follow s n (q ++ [c]) = some m) :
    ∃ k b, follow s n q = some k ∧ c = sideChar b ∧ ChildOf s k b m := by
  obtain ⟨k, hq, hlast⟩ := follow_split h
  obtain ⟨b, j, hb, hj, he⟩ := follow_cons.1 hlast
  cases he
  exact ⟨k, b, hq, bitSymbol_eq_some.1 hb, hj⟩

/-- Paths see NODE's entries only. -/
theorem follow_eq (h : ∀ k, nodeAt t k = nodeAt s k) : follow t n q = follow s n q := by
  induction q generalizing n with
  | nil => rfl
  | cons c q ih => simp only [follow, h, ih]

/-- A path of bit-symbols is there, or leaves the tree at a node without the child it asks for. -/
theorem follow_or_leaves (hv : ∀ c ∈ p, bitSymbol c ≠ none) : (∃ m, follow s n p = some m) ∨
    ∃ q c cs k b, p = q ++ c :: cs ∧ follow s n q = some k ∧ bitSymbol c = some b ∧ ∀ j, ¬ ChildOf s k b j := by
  induction p generalizing n with
  | nil => exact .inl ⟨n, rfl⟩
  | cons c cs ih =>
    obtain ⟨b, hb⟩ := Option.ne_none_iff_exists'.1 (hv c (by simp))
    by_cases hchild : ∃ k, ChildOf s n b k
    · obtain ⟨k, hk⟩ := hchild
      rcases ih (n := k) (fun d hd => hv d (by simp [hd])) with ⟨m, hm⟩ | ⟨q, d, ds, j, b', rfl, hq, hb', hj⟩
      · exact .inl ⟨m, follow_cons.2 ⟨b, k, hb, hk, hm⟩⟩
      · exact .inr ⟨c :: q, d, ds, j, b', rfl, follow_cons.2 ⟨b, k, hb, hk, hq⟩, hb', hj⟩
    · exact .inr ⟨[], c, cs, n, b, rfl, rfl, hb, fun k hk => hchild ⟨k, hk⟩⟩

/-- In a tree every node has one path from ROOT: its parents and their sides are determined up to ROOT. -/
theorem TreeInv.path_unique (ht : TreeInv s) (hp : follow s s.root p = some i) (hq : follow s s.root q = some i) : p = q := by
  induction p using List.reverseRecOn generalizing q i with
  | nil =>
    cases hp
    rcases List.eq_nil_or_concat' q with rfl | ⟨q', d, rfl⟩
    · rfl
    · obtain ⟨k, b, _, _, hk⟩ := follow_concat hq
      exact absurd hk (ht.rootFree k b)
  | append_singleton p c ih =>
    obtain ⟨j, b, hp', rfl, hj⟩ := follow_concat hp
    have hne : i ≠ s.root := by rintro rfl; exact ht.rootFree j b hj
    rcases List.eq_nil_or_concat' q with rfl | ⟨q', d, rfl⟩
    · exact absurd (Option.some.inj hq).symm hne
    · obtain ⟨k, b', hq', rfl, hk⟩ := follow_concat hq
      obtain ⟨_, _, _, huniq⟩ := ht.oneParent i (ht.childWritten _ _ _ hj) hne
      obtain ⟨rfl, rfl⟩ := huniq _ _ hj
      obtain ⟨rfl, rfl⟩ := huniq _ _ hk
      rw [ih hp' hq']

/-- A path leads to a written node. -/
theorem TreeInv.path_written (ht : TreeInv s) (hroot : s.root ≠ NIL) (hp : follow s s.root p = some i) :
    i.toNat < s.nodeCnt.toNat := by
  rcases List.eq_nil_or_concat' p with rfl | ⟨q, c, rfl⟩
  · cases hp
    exact ht.rootWritten hroot
  · obtain ⟨k, b, _, _, hk⟩ := follow_concat hp
    exact ht.childWritten _ _ _ hk

/-- As many paths as there are nodes are all the paths of a tree: they lead to different nodes, so to every node. -/
theorem TreeInv.all_paths (ht : TreeInv s) (hroot : s.root ≠ NIL) {paths : List (List Byte)} (hnodup : paths.Nodup)
    (hthere : ∀ u ∈ paths, ∃ k, follow s s.root u = some k) (hcount : paths.length = s.nodeCnt.toNat)
    (hp : follow s s.root p = some i) : p ∈ paths := by
  have hends : (paths.map (follow s s.root)).Nodup := by
    refine hnodup.map_on fun u hu v hv huv => ?_
    obtain ⟨k, hk⟩ := hthere u hu
    exact ht.path_unique hk (huv ▸ hk)
  have hsub : paths.map (follow s s.root) ⊆ writtenIndexes s := by
    intro o ho
    obtain ⟨u, hu, rfl⟩ := List.mem_map.1 ho
    obtain ⟨k, hk⟩ := hthere u hu
    rw [hk]
    exact mem_writtenIndexes (ht.path_written hroot hk)
  have hperm : (paths.map (follow s s.root)).Perm (writtenIndexes s) :=
    (List.subperm_of_subset hends hsub).perm_of_length_le (by rw [writtenIndexes_length, List.length_map, hcount])
  obtain ⟨u, hu, hui⟩ := List.mem_map.1 (hperm.mem_iff.2 (mem_writtenIndexes (ht.path_written hroot hp)))
  rwa [ht.path_unique hp hui]

end

/-! ### The distinct parts of a table's paths (R159) -/

theorem mem_pathParts {records : CodeMap} {q : List Byte} :
    q ∈ pathParts records ↔ q ≠ [] ∧ ∃ x ∈ records, q <+: x.2 := by
  simp [pathParts, and_comm]

theorem pathParts_nodup (records : CodeMap) : (pathParts records).Nodup := List.nodup_dedup _

theorem pathParts_length_le {m m' : CodeMap} (h : m ⊆ m') : (pathParts m).length ≤ (pathParts m').length := by
  refine ((pathParts_nodup m).subperm fun q hq => ?_).length_le
  obtain ⟨hne, x, hx, hq⟩ := mem_pathParts.1 hq
  exact mem_pathParts.2 ⟨hne, x, h hx, hq⟩

theorem inits_nodup {α : Type} (l : List α) : l.inits.Nodup := by
  refine List.Nodup.of_map List.length ?_
  have hlengths : l.inits.map List.length = List.range (l.length + 1) := by
    refine List.ext_getElem (by simp) fun k hk _ => ?_
    simp at hk ⊢
    omega
  rw [hlengths]
  exact List.nodup_range

/-- The parts of the path q ++ rest that are longer than q. -/
def partsBehind (q rest : List Byte) : List (List Byte) := rest.inits.tail.map (q ++ ·)

theorem mem_partsBehind {q cs u : List Byte} {c : Byte} : u ∈ partsBehind q (c :: cs) ↔ ∃ v, v <+: cs ∧ q ++ c :: v = u := by
  simp [partsBehind]

theorem partsBehind_nodup (q rest : List Byte) : (partsBehind q rest).Nodup :=
  ((inits_nodup rest).tail).map (List.append_right_injective q)

theorem partsBehind_length (q rest : List Byte) : (partsBehind q rest).length = rest.length := by simp [partsBehind]

/-- A part of q ++ rest is a part of q or longer than q. -/
theorem part_append_iff {q rest u : List Byte} : u <+: q ++ rest ↔ u <+: q ∨ u ∈ partsBehind q rest := by
  rw [← List.mem_inits, List.inits_append, List.mem_append, List.mem_inits, partsBehind]

/-- A record whose path leaves a table's paths after q adds one part per character behind q. -/
theorem pathParts_concat {done : CodeMap} {a c : Byte} {q cs : List Byte} (hq : q ≠ [] → q ∈ pathParts done)
    (hnew : q ++ [c] ∉ pathParts done) :
    (pathParts (done ++ [(a, q ++ c :: cs)])).length = (pathParts done).length + (cs.length + 1) := by
  have hdisjoint : List.Disjoint (pathParts done) (partsBehind q (c :: cs)) := by
    intro u hu hu'
    obtain ⟨v, _, rfl⟩ := mem_partsBehind.1 hu'
    obtain ⟨_, x, hx, hpre⟩ := mem_pathParts.1 hu
    exact hnew (mem_pathParts.2 ⟨by simp, x, hx, List.IsPrefix.trans ⟨v, by simp⟩ hpre⟩)
  have hnodup := (pathParts_nodup done).append (partsBehind_nodup q (c :: cs)) hdisjoint
  have hmem : ∀ u, u ∈ pathParts (done ++ [(a, q ++ c :: cs)]) ↔ u ∈ pathParts done ++ partsBehind q (c :: cs) := by
    intro u
    have hold : u ≠ [] → u <+: q → u ∈ pathParts done := by
      intro hu hpre
      obtain ⟨_, x, hx, hqx⟩ := mem_pathParts.1 (hq (by rintro rfl; exact hu (List.prefix_nil.1 hpre)))
      exact mem_pathParts.2 ⟨hu, x, hx, hpre.trans hqx⟩
    have hne : u ∈ partsBehind q (c :: cs) → u ≠ [] := by
      rintro hu rfl
      obtain ⟨v, _, hv⟩ := mem_partsBehind.1 hu
      simp at hv
    rw [mem_pathParts, List.mem_append]
    simp only [List.mem_append, List.mem_singleton, or_and_right, exists_or, exists_eq_left, part_append_iff, and_or_left]
    rw [← mem_pathParts]
    tauto
  rw [((List.perm_ext_iff_of_nodup (pathParts_nodup _) hnodup).2 hmem).length_eq, List.length_append, partsBehind_length,
    List.length_cons]

/-! ### The tree invariant in a load session -/

/-- What a load session keeps of R36 (a) to (d) and (g). -/
structure LoadTree (s : State) : Prop where
  keys  : s.node.map Prod.fst = List.range s.nodeCnt.toNat
  tree  : TreeInv s
  above : ChildrenAbove s
  bound : s.nodeCnt.toNat ≤ 512

theorem LoadTree.congr {s t : State} (h : LoadTree s) (hn : t.node = s.node) (hc : t.nodeCnt = s.nodeCnt)
    (hr : t.root = s.root) : LoadTree t :=
  ⟨by rw [hn, hc]; exact h.keys, h.tree.congr hn hc hr, h.above.congr hn hc hr, by rw [hc]; exact h.bound⟩

theorem LoadTree.root_ne {s : State} (h : LoadTree s) : s.root ≠ NIL := by rw [h.above.1]; decide

/-- An INSERT that does not fault keeps the tree. -/
theorem LoadTree.insert {s t : State} {a : Byte} (h : LoadTree s) (hm : s.mode = .load) (hx : exec (.insert a) s = .next t)
    (ht : t.mode = .load) : LoadTree t := by
  rw [exec_insert hm] at hx
  rcases insertBody_cases hm hx with ⟨_, _, _, _, rfl⟩ | ⟨p, n, s', r, _, _, _, hw, hr, hl, _, rfl⟩
  · exact absurd ht nofun
  · have hwalk : LoadWalk n s' := walk_induct LoadWalk (fun _ _ _ _ hi h1 _ h3 => hi.descend h1 h3)
      (fun _ _ _ _ hi h1 h2 h3 h4 => hi.grow h1 h2 h3 h4) p 0 s.root s n s' (.start h.keys h.tree h.above h.bound) hw
    obtain ⟨htree, habove, hkeys⟩ := hwalk.mark a hr hl
    exact ⟨hkeys, htree.congr rfl rfl rfl, habove.congr rfl rfl rfl, hwalk.bound⟩

/-! ### The table a tree holds -/

/-- The tree holds exactly the records: one node beside the root for each part of their paths, a leaf at the end of each
path, and no other symbol. -/
structure HoldsTable (records : CodeMap) (s : State) : Prop where
  tree  : LoadTree s
  count : s.nodeCnt.toNat = 1 + (pathParts records).length
  leaf  : ∀ x ∈ records, ∃ n, follow s s.root x.2 = some n ∧ nodeAt s n = some (leafNode x.1 0)
  marks : ∀ n r b, nodeAt s n = some r → r.sym = some b → ∃ x ∈ records, x.1 = b ∧ follow s s.root x.2 = some n

theorem HoldsTable.congr {records : CodeMap} {s t : State} (h : HoldsTable records s) (hn : t.node = s.node)
    (hc : t.nodeCnt = s.nodeCnt) (hr : t.root = s.root) : HoldsTable records t := by
  have hnode := nodeAt_congr hn hc
  have hfollow : ∀ q, follow t t.root q = follow s s.root q := fun q => by rw [hr, follow_eq hnode]
  refine ⟨h.tree.congr hn hc hr, by rw [hc]; exact h.count, fun x hx => ?_, fun n r b hnr hs => ?_⟩
  · simp only [hfollow, hnode]
    exact h.leaf x hx
  · simp only [hfollow]
    exact h.marks n r b (by rwa [hnode] at hnr) hs

theorem holdsTable_emptyLoad (s : State) : HoldsTable [] (emptyLoad s) := by
  obtain ⟨htree, habove⟩ := TreeInv.of_empty_root (s := emptyLoad s) rfl rfl rfl
  refine ⟨⟨rfl, htree, habove, by show (1 : Idx).toNat ≤ 512; decide⟩, rfl, nofun, fun n r b hn hs => ?_⟩
  have hnode : nodeAt (emptyLoad s) n = if n = 0 then some emptyNode else nodeAt (discardTree s) n :=
    nodeAt_alloc (s := discardTree s) emptyNode (show (0 : Idx).toNat < 1023 by decide) n
  rw [hnode, nodeAt_discardTree] at hn
  split at hn <;> cases hn
  cases hs

section
variable {records : CodeMap} {s : State} {q : List Byte} {n : Idx}

/-- The paths of the tree are the parts of the records' paths: they are there, and as many as the nodes. -/
theorem HoldsTable.path_iff (h : HoldsTable records s) (hne : q ≠ []) :
    (∃ k, follow s s.root q = some k) ↔ q ∈ pathParts records := by
  have hthere : ∀ u ∈ pathParts records, ∃ k, follow s s.root u = some k := by
    intro u hu
    obtain ⟨_, x, hx, rest, hrest⟩ := mem_pathParts.1 hu
    obtain ⟨m, hm, _⟩ := h.leaf x hx
    rw [← hrest] at hm
    obtain ⟨k, hk, _⟩ := follow_split hm
    exact ⟨k, hk⟩
  refine ⟨fun ⟨k, hk⟩ => ?_, hthere q⟩
  have hroot : [] ∉ pathParts records := fun hmem => (mem_pathParts.1 hmem).1 rfl
  have hmem := h.tree.tree.all_paths h.tree.root_ne (List.nodup_cons.2 ⟨hroot, pathParts_nodup records⟩)
    (by rintro u (_ | ⟨_, hu⟩); exacts [⟨s.root, rfl⟩, hthere u hu]) (by rw [h.count, List.length_cons, Nat.add_comm]) hk
  exact (List.mem_cons.1 hmem).resolve_left hne

/-- No node on a path that runs through no record's end holds a symbol. -/
theorem HoldsTable.no_symbol (h : HoldsTable records s) (hfree : ∀ x ∈ records, ¬ x.2 <+: q) {u : List Byte} (hu : u <+: q)
    (hn : follow s s.root u = some n) {r : Node} (hr : nodeAt s n = some r) : r.sym = none := by
  cases hs : r.sym with
  | none => rfl
  | some b =>
    obtain ⟨x, hx, _, hfollow⟩ := h.marks n r b hr hs
    rw [← h.tree.tree.path_unique hfollow hn] at hu
    exact absurd hu (hfree x hx)

end

/-- A node with a symbol behind the chain is the chain's last or one that was there. -/
theorem Chained.marked {s t : State} {n : Idx} {r x : Node} {b : Side} {cs : List Byte} (h : Chained s n r b cs x t)
    (hkeys : s.node.map Prod.fst = List.range s.nodeCnt.toNat) (hs : r.sym = none) (hv : ∀ d ∈ cs, bitSymbol d ≠ none)
    {k : Idx} {y : Node} {e : Byte} (hk : nodeAt t k = some y) (he : y.sym = some e) :
    (k = BitVec.ofNat 10 (s.nodeCnt.toNat + cs.length) ∧ y = x) ∨ nodeAt s k = some y := by
  have hlt := nodeAt_lt hk
  rw [h.count] at hlt
  by_cases hold : k.toNat < s.nodeCnt.toNat
  · obtain ⟨z, hz⟩ := nodeAt_of_range hkeys hold
    by_cases hkn : k = n
    · subst hkn
      cases h.parent.symm.trans hk
      cases b <;> exact absurd (he.symm.trans hs) nofun
    · cases (h.others k z hz hkn).symm.trans hk
      exact .inr hz
  · have hidx : k = BitVec.ofNat 10 (s.nodeCnt.toNat + (k.toNat - s.nodeCnt.toNat)) := by
      rw [show s.nodeCnt.toNat + (k.toNat - s.nodeCnt.toNat) = k.toNat by omega, BitVec.ofNat_toNat, BitVec.setWidth_eq]
    by_cases hlast : k.toNat - s.nodeCnt.toNat = cs.length
    · rw [hlast] at hidx
      subst hidx
      cases h.last.symm.trans hk
      exact .inl ⟨rfl, rfl⟩
    · have hget := List.getElem?_eq_getElem (l := cs) (i := k.toNat - s.nodeCnt.toNat) (by omega)
      obtain ⟨b', hb'⟩ := Option.ne_none_iff_exists'.1 (hv _ (List.mem_of_getElem? hget))
      have hinner := h.inner _ b' (by rw [hget]; exact hb')
      rw [← hidx] at hinner
      cases hinner.symm.trans hk
      cases b' <;> cases he

/-- A new record's path leaves the tree, and as many parts are new as it has characters from there on. -/
theorem HoldsTable.leavesTree {done : CodeMap} {s : State} {p : List Byte} (h : HoldsTable done s) (a : Byte) (hne : p ≠ [])
    (hv : ∀ c ∈ p, bitSymbol c ≠ none) (hfree : ∀ y ∈ done, ¬ y.2 <+: p ∧ ¬ p <+: y.2) :
    ∃ q rest n, p = q ++ rest ∧ LeavesTreeAt s q rest n ∧
      (pathParts (done ++ [(a, p)])).length = (pathParts done).length + rest.length := by
  obtain ⟨m, hm⟩ | ⟨q, c, cs, n, b, rfl, hq, hb, hchild⟩ := follow_or_leaves (s := s) (n := s.root) hv
  · obtain ⟨_, y, hy, hpre⟩ := mem_pathParts.1 ((h.path_iff hne).1 ⟨m, hm⟩)
    exact absurd hpre (hfree y hy).2
  have hsym : ∀ u, u <+: q → ∀ k z, follow s s.root u = some k → nodeAt s k = some z → z.sym = none := fun u hu k z hk hz =>
    h.no_symbol (fun y hy => (hfree y hy).1) (hu.trans (List.prefix_append q _)) hk hz
  obtain ⟨r, hn⟩ := nodeAt_of_range h.tree.keys (h.tree.tree.path_written h.tree.root_ne hq)
  have hc : r.child b = NIL := by
    by_contra hc
    exact hchild _ (childOf_of_nodeAt hn hc)
  have hnew : q ++ [c] ∉ pathParts done := by
    intro hmem
    obtain ⟨k, hk⟩ := (h.path_iff (by simp)).2 hmem
    obtain ⟨n', b', hq', rfl, hk'⟩ := follow_concat hk
    cases hq.symm.trans hq'
    cases hb.symm.trans (bitSymbol_sideChar b')
    exact hchild k hk'
  exact ⟨q, c :: cs, n, rfl, ⟨hq, fun u hu _ => hsym u hu, r, c, cs, b, rfl, hb, hn, hsym q List.prefix_rfl n r hq hn, hc⟩,
    pathParts_concat (fun hne => (h.path_iff hne).1 ⟨n, hq⟩) hnew⟩

/-- The chain of a new record adds it to the table. -/
theorem HoldsTable.chained {done : CodeMap} {s t : State} {a : Byte} {p cs : List Byte} {n : Idx} {r : Node} {b : Side}
    (h : HoldsTable done s) (hchain : Chained s n r b cs (leafNode a 0) t) (ht : LoadTree t) (hroot : t.root = s.root)
    (hn : nodeAt s n = some r) (hs : r.sym = none) (hc : r.child b = NIL) (hv : ∀ d ∈ cs, bitSymbol d ≠ none)
    (hpath : follow t t.root p = some (BitVec.ofNat 10 (s.nodeCnt.toNat + cs.length)))
    (hcount : (pathParts (done ++ [(a, p)])).length = (pathParts done).length + (cs.length + 1)) :
    HoldsTable (done ++ [(a, p)]) t := by
  have hold : ∀ {q k}, follow s s.root q = some k → follow t t.root q = some k := fun hq => by
    rw [hroot]
    exact hchain.follow_old hn hc hq
  refine ⟨ht, by rw [hchain.count, h.count]; omega, fun y hy => ?_, fun k z e hz he => ?_⟩
  · rcases List.mem_append.1 hy with hy | hy
    · obtain ⟨k, hk, hleaf⟩ := h.leaf y hy
      have hkn : k ≠ n := by
        rintro rfl
        cases hn.symm.trans hleaf
        cases hs
      exact ⟨k, hold hk, hchain.others k _ hleaf hkn⟩
    · rw [List.mem_singleton.1 hy]
      exact ⟨_, hpath, hchain.last⟩
  · rcases hchain.marked h.tree.keys hs hv hz he with ⟨rfl, rfl⟩ | hz
    · cases he
      exact ⟨(a, p), by simp, rfl, hpath⟩
    · obtain ⟨y, hy, hye, hfollow⟩ := h.marks k z e hz he
      exact ⟨y, List.mem_append_left _ hy, hye, hold hfollow⟩

/-- INSERT of a record no path of the table is a part of, and whose path is no part of the table's, adds it. -/
theorem HoldsTable.insert {done : CodeMap} {s : State} {a : Byte} {p : List Byte} (h : HoldsTable done s) (hm : s.mode = .load)
    (hv : ValidRecord s p) (hfree : ∀ y ∈ done, ¬ y.2 <+: p ∧ ¬ p <+: y.2)
    (hroom : 1 + (pathParts (done ++ [(a, p)])).length ≤ 512) :
    ∃ t, exec (.insert a) s = .next t ∧ t.mode = .load ∧ t.pLen = 0 ∧ HoldsTable (done ++ [(a, p)]) t := by
  obtain ⟨q, _, n, rfl, ⟨hq, ho, r, c, cs, b, rfl, hb, hn, hs, hc⟩, hcount⟩ := h.leavesTree a hv.2.1 hv.2.2 hfree
  have hvalid : ∀ d ∈ cs, bitSymbol d ≠ none := fun d hd => hv.2.2 d (by simp [hd])
  have hcnt := h.count
  rw [List.length_cons] at hcount
  obtain ⟨t, hrun, hframe, hchain⟩ := insert_chains (a := a) hm hv hq ho hb hn hs hc (by omega)
  have hmode : t.mode = .load := by rw [hframe]; exact hm
  have hroot : t.root = s.root := by rw [hframe]
  refine ⟨t, hrun, hmode, by rw [hframe], h.chained hchain (h.tree.insert hm hrun hmode) hroot hn hs hc hvalid ?_ hcount⟩
  rw [hroot]
  exact hchain.follow_path hq hn hc hb hvalid (by omega)

/-! ### The session -/

theorem runCommands_append {l l' : List Instr} {s t : State} (h : runCommands l s = .next t) :
    runCommands (l ++ l') s = runCommands l' t := by
  induction l generalizing s with
  | nil => cases h; rfl
  | cons i l ih =>
    simp only [List.cons_append, runCommands] at h ⊢
    cases hx : exec i s with
    | next s' => rw [hx] at h; exact ih h
    | fault r => rw [hx] at h; exact absurd h nofun
    | refused r => rw [hx] at h; exact absurd h nofun

/-- A character pushed is the next of the record's path. -/
theorem recordPath_pushPath {s : State} {u : List Byte} (c : Byte) (hu : recordPath s = some u) (hroom : s.pLen.toNat < 255) :
    recordPath (pushPath c s) = some (u ++ [c]) := by
  obtain ⟨hlen, hget⟩ := recordPath_eq_some.1 hu
  refine recordPath_eq_some.2 ⟨by rw [pushPath_count c hroom, List.length_append, hlen]; rfl, fun j hj => ?_⟩
  rw [pushPath_count c hroom] at hj
  rw [pathAt_pushPath c hroom]
  by_cases hlast : j = s.pLen.toNat
  · rw [if_pos hlast, hlast, ← hlen, List.getElem?_concat_length]
  · rw [if_neg hlast, hget j (by omega), List.getElem?_append_left (by omega)]

/-- PPUSH per character puts a path into PATH and touches nothing else. -/
theorem runCommands_ppush : ∀ (p u : List Byte) (s : State), s.mode = .load → recordPath s = some u →
    u.length + p.length ≤ 255 → ∃ t, runCommands (p.map (fun c => .ppush c)) s = .next t ∧
      t = { s with path := t.path, pLen := t.pLen } ∧ recordPath t = some (u ++ p) := by
  intro p
  induction p with
  | nil => exact fun u s _ hu _ => ⟨s, rfl, rfl, by rw [List.append_nil]; exact hu⟩
  | cons c p ih =>
    intro u s hm hu hlen
    have hplen := (recordPath_eq_some.1 hu).1
    rw [List.length_cons] at hlen
    have hroom : s.pLen.toNat < 255 := by omega
    obtain ⟨t, hrun, hframe, hpath⟩ := ih (u ++ [c]) (pushPath c s) hm (recordPath_pushPath c hu hroom) (by simp; omega)
    refine ⟨t, ?_, by rw [hframe]; rfl, by rw [hpath, List.append_assoc]; rfl⟩
    simp only [List.map_cons, runCommands, exec_ppush_fits c hm hroom]
    exact hrun

/-- A record by its commands: its path is pushed, then INSERT adds it (R150). -/
theorem HoldsTable.record {done : CodeMap} {s : State} {x : Byte × List Byte} (h : HoldsTable done s) (hm : s.mode = .load)
    (hp : s.pLen = 0) (hx : x.2 ≠ [] ∧ x.2.length ≤ 255 ∧ ∀ c ∈ x.2, bitSymbol c ≠ none)
    (hfree : ∀ y ∈ done, ¬ y.2 <+: x.2 ∧ ¬ x.2 <+: y.2) (hroom : 1 + (pathParts (done ++ [x])).length ≤ 512) :
    ∃ t, runCommands (recordCommands x) s = .next t ∧ t.mode = .load ∧ t.pLen = 0 ∧ HoldsTable (done ++ [x]) t := by
  obtain ⟨hne, hlen, hvalid⟩ := hx
  have hempty : recordPath s = some [] := by rw [recordPath, hp]; rfl
  obtain ⟨u, hpush, hframe, hpath⟩ := runCommands_ppush x.2 [] s hm hempty (by simpa using hlen)
  have hu : HoldsTable done u := h.congr (by rw [hframe]) (by rw [hframe]) (by rw [hframe])
  obtain ⟨t, hinsert, hdone⟩ := hu.insert (by rw [hframe]; exact hm) ⟨hpath, hne, hvalid⟩ hfree hroom
  refine ⟨t, ?_, hdone⟩
  rw [recordCommands, runCommands_append hpush]
  simp only [runCommands, hinsert]

/-- The records one by one. -/
theorem HoldsTable.records : ∀ (rest done : CodeMap) (s : State), HoldsTable done s → s.mode = .load → s.pLen = 0 →
    (∀ x ∈ rest, x.2 ≠ [] ∧ x.2.length ≤ 255 ∧ ∀ c ∈ x.2, bitSymbol c ≠ none) →
    ((done ++ rest).map Prod.fst).Nodup → PrefixFree (done ++ rest) → 1 + (pathParts (done ++ rest)).length ≤ 512 →
    ∃ t, runCommands (rest.flatMap recordCommands) s = .next t ∧ t.mode = .load ∧ HoldsTable (done ++ rest) t := by
  intro rest
  induction rest with
  | nil => exact fun done s h hm _ _ _ _ _ => ⟨s, rfl, hm, by rwa [List.append_nil]⟩
  | cons x rest ih =>
    intro done s h hm hp hvalid hnodup hfree hroom
    have hsplit : done ++ x :: rest = done ++ [x] ++ rest := by simp
    have hother : ∀ y ∈ done, y.1 ≠ x.1 := by
      intro y hy
      rw [List.map_append] at hnodup
      exact (List.nodup_append.1 hnodup).2.2 _ (List.mem_map_of_mem hy) _ (by simp)
    have hx : ∀ y ∈ done, ¬ y.2 <+: x.2 ∧ ¬ x.2 <+: y.2 := fun y hy =>
      ⟨hfree y (by simp [hy]) x (by simp) (hother y hy), hfree x (by simp) y (by simp [hy]) (hother y hy).symm⟩
    have hpart := pathParts_length_le (m := done ++ [x]) (m' := done ++ x :: rest)
      (by rw [hsplit]; exact List.subset_append_left _ _)
    obtain ⟨u, hrun, hum, hup, hu⟩ := h.record hm hp (hvalid x (by simp)) hx (by omega)
    rw [hsplit] at hnodup hfree hroom
    obtain ⟨t, hrest, htm, ht⟩ := ih (done ++ [x]) u hu hum hup (fun y hy => hvalid y (by simp [hy])) hnodup hfree hroom
    refine ⟨t, ?_, htm, by rw [hsplit]; exact ht⟩
    rw [List.flatMap_cons, runCommands_append hrun, hrest]

/-- A load session over a table that fits completes in READY with the table's tree (R159). -/
theorem runCommands_loadCommands {s : State} {records : CodeMap} (hq : Quiet s) (hnodup : (records.map Prod.fst).Nodup)
    (hvalid : ∀ x ∈ records, x.2 ≠ [] ∧ x.2.length ≤ 255 ∧ ∀ c ∈ x.2, bitSymbol c ≠ none) (hfree : PrefixFree records)
    (hroom : 1 + (pathParts records).length ≤ 512) :
    ∃ t, runCommands (loadCommands records) s = .next t ∧ t.mode = .ready ∧ HoldsTable records t := by
  obtain ⟨u, hrun, hm, hu⟩ := HoldsTable.records records [] (emptyLoad s) (holdsTable_emptyLoad s) rfl rfl hvalid hnodup hfree hroom
  refine ⟨{ clearPath u with mode := .ready }, ?_, rfl, hu.congr rfl rfl rfl⟩
  simp only [loadCommands, List.cons_append, runCommands, exec_lbegin hq]
  rw [runCommands_append hrun]
  simp only [runCommands, exec_lend hm]

end Sys2Proof.Machine

namespace Sys2Proof.Proofs

open Sys2Proof.Machine

/-- Settles O58, by induction on the records: after each of them the tree holds the records so far. -/
theorem loadSessionBuildsTheTable : Obligations.LoadSessionBuildsTheTable := by
  intro s records hq hnodup hvalid hfree hroom
  obtain ⟨t, hrun, hm, ht⟩ := runCommands_loadCommands hq hnodup hvalid hfree hroom
  exact ⟨t, hrun, hm, ht.count, ht.leaf, ht.marks⟩

end Sys2Proof.Proofs
end

section
/-! PROOF. The decoder's commands: DBEGIN, DBIT and DEND by what they find (43_decode.md R171 to R174). -/

namespace Sys2Proof.Machine

/-- A command of the row that runs in DECODE mode raises CommandSequenceError elsewhere only. -/
theorem RunsWhenDecoding.of_access {i : Instr} (hrow : access i = accessRow .seq .seq .seq .run .drop) :
    RunsWhenDecoding i where
  quiet s hq := by
    have ha : access i s.mode = .seq := by rcases hq with hm | hm <;> rw [hrow, hm] <;> rfl
    rw [exec_seq ha, raise_quiet _ _ _ hq]
  load s hm := by rw [exec_seq (by rw [hrow, hm]; rfl), raise_load _ _ _ hm]
  decode s hm := by
    have ha : access i s.mode = .run := by rw [hrow]; exact decodeRow_run.2 hm
    exact .of_body ha fun t => bodyOf_errCode ha
  fault s hm := exec_drop (by rw [hrow, hm]; rfl)

/-- A word of format S by shifts (30_encoding.md R81). -/
theorem formatS_shifts (op : BitVec 4) (a : Byte) :
    op.setWidth 32 <<< 28 ||| a.setWidth 32 <<< 16 = formatS op a := by
  have hop := op.isLt
  have ha := a.isLt
  refine BitVec.eq_of_toNat_eq ((?_ : _ = _).trans (formatS_toNat op a).symm)
  calc _ = op.toNat * 2 ^ 28 ||| a.toNat * 2 ^ 16 := by
        simp (disch := omega) [Nat.mod_eq_of_lt, Nat.shiftLeft_eq]
    _ = op.toNat * 2 ^ 28 + a.toNat * 2 ^ 16 := mul_or_of_lt _ (by omega)

/-- DBIT's word by shifts (30_encoding.md R83). -/
theorem dbit_word (a : Byte) : (0xC : Word) <<< 28 ||| a.setWidth 32 <<< 16 = encode (.dbit a) := formatS_shifts 0xC a

/-! ### DBEGIN -/

section
variable {s : State} (hq : Quiet s)
include hq

/-- DBEGIN with a tree (R171). -/
theorem exec_dbegin_tree (hr : s.root ≠ NIL) :
    exec .dbegin s = .next { restarted s with cur := s.root, mode := .decode } :=
  (exec_run (i := .dbegin) (quietRow_run.2 hq)).trans (if_neg hr)

/-- DBEGIN without one (R171). -/
theorem exec_dbegin_empty (hr : s.root = NIL) : exec .dbegin s = .next (plainFault (restarted s) .emptyTree 0 0) := by
  rw [← raise_quiet _ _ _ (s := restarted s) hq]
  exact (exec_run (i := .dbegin) (quietRow_run.2 hq)).trans (if_pos hr)

end

/-! ### DBIT and DEND -/

section
variable {s : State} {a : Byte} {b : Side} {r rc : Node} (hm : s.mode = .decode)
include hm

theorem exec_dbit : exec (.dbit a) s = dbitBody Config.params a s := exec_run (i := .dbit a) (decodeRow_run.2 hm)

/-- Stage 1 of R172: the character is judged before the tree is looked at. -/
theorem exec_dbit_invalid (ha : bitSymbol a = none) :
    exec (.dbit a) s = .next (decodeFault s .invalidBit (zext32 a) s.bitPos) := by
  rw [exec_dbit hm, ← raise_decode _ _ _ hm]
  simp only [dbitBody, ha]

/-- Stage 2 of R172: no child on the character's side. -/
theorem exec_dbit_noChild (ha : bitSymbol a = some b) (hr : nodeAt s s.cur = some r) (hc : r.child b = NIL) :
    exec (.dbit a) s = .next (decodeFault s .invalidPath (sideBit b) s.bitPos) := by
  rw [exec_dbit hm, ← raise_decode _ _ _ hm]
  simp only [dbitBody, ha, hr, if_pos hc]

/-- Stages 1 and 2 of R172 passed: the leaf test is made on the child. -/
theorem exec_dbit_arrives (ha : bitSymbol a = some b) (hr : nodeAt s s.cur = some r) (hc : r.child b ≠ NIL)
    (hrc : nodeAt s (r.child b) = some rc) : exec (.dbit a) s = arrive Config.params (r.child b) rc s := by
  rw [exec_dbit hm]
  simp only [dbitBody, ha, hr, if_neg hc, hrc]

/-- DEND at ROOT (R174). -/
theorem exec_dend_root (hc : s.cur = s.root) :
    exec .dend s = .next { s with outValid := true, cur := NIL, mode := .ready } :=
  (exec_run (i := .dend) (decodeRow_run.2 hm)).trans (if_neg (not_not_intro hc))

/-- DEND in the middle of a code (R174). -/
theorem exec_dend_midpath (hc : s.cur ≠ s.root) :
    exec .dend s = .next (decodeFault s .incompleteSequence (zext32 s.cur) s.bitPos) := by
  rw [← raise_decode _ _ _ hm]
  exact (exec_run (i := .dend) (decodeRow_run.2 hm)).trans (if_pos hc)

end

/-! ### Stage 3 of DBIT (R172) -/

section
variable {P : Config.Params} {c : Idx} {rc : Node} {s : State}

theorem arrive_inner (hl : rc.isLeaf = false) : arrive P c rc s = .next (countBit { s with cur := c }) := by
  simp [arrive, hl]

theorem arrive_leaf (hl : rc.isLeaf = true) (hroom : s.outLen.toNat < P.outMax) :
    arrive P c rc s = .next (countBit { pushOut (emitted rc) s with cur := s.root }) := by
  simp only [arrive, if_pos hl, room_free hroom]

theorem arrive_full (hm : s.mode = .decode) (hl : rc.isLeaf = true) (hfull : s.outLen.toNat = P.outMax) :
    arrive P c rc s = .next (decodeFault s .outputOverflow (zext32 (emitted rc)) s.bitPos) := by
  simp only [arrive, if_pos hl, room_full hfull, raised, raise_decode _ _ _ hm]

end

/-- OUTLEN, a 23-bit counter, does not wrap below the capacity of OUT. -/
theorem outLen_room {s : State} (h : s.outLen.toNat < Config.params.outMax) : s.outLen.toNat < 4194304 :=
  h.trans_le outMax_le

end Sys2Proof.Machine

namespace Sys2Proof.Proofs

open Sys2Proof.Machine

/-- Settles O43, by whether there is a tree. -/
theorem dbeginStartsAtTheRoot : Obligations.DbeginStartsAtTheRoot :=
  ⟨decode_encode .dbegin, .of_access rfl, fun _ hq => ⟨exec_dbegin_tree hq, exec_dbegin_empty hq⟩⟩

/-- Settles O44, stage by stage of R172. -/
theorem dbitConsumesOneBitSymbol : Obligations.DbitConsumesOneBitSymbol := by
  intro a
  refine ⟨dbit_word a ▸ decode_encode _, .of_access rfl, fun s hm => ⟨fun h0 h1 => ?_, fun b r ha hr => ?_⟩⟩
  · exact exec_dbit_invalid hm (bitSymbol_eq_none.2 ⟨h0, h1⟩)
  · have hb := bitSymbol_eq_some.2 ha
    refine ⟨exec_dbit_noChild hm hb hr, fun rc hc hrc => ?_⟩
    rw [exec_dbit_arrives hm hb hr hc hrc]
    refine ⟨arrive_inner, fun y hl hy => ?_⟩
    rw [← emitted_symbol hy]
    refine ⟨arrive_full hm hl, fun hroom => ?_⟩
    have hcount := pushOut_count (emitted rc) (outLen_room hroom)
    have hout := outAt_pushOut (emitted rc) (outLen_room hroom)
    exact ⟨_, arrive_leaf hl hroom, rfl, hcount, (hout _).trans (if_pos rfl), fun k hk => (hout k).trans (if_neg hk.ne)⟩

/-- Settles O45, by whether CUR is ROOT. -/
theorem dendCompletesTheSession : Obligations.DendCompletesTheSession :=
  ⟨decode_encode .dend, .of_access rfl, fun _ hm => ⟨exec_dend_root hm, exec_dend_midpath hm⟩⟩

end Sys2Proof.Proofs
end

section
/-! PROOF. BITPOS never wraps: every emitted byte takes at most NODE_N - 1 bit-symbols, because each of them leads to a
child and the indexes on the way are strictly ordered (43_decode.md R175, R178). -/

namespace Sys2Proof.Machine

/-- OUT_MAX is at most 2^22 (00_scope.md R5), so the limit leaves room for one more count. -/
theorem bitposLimit_lt : bitposLimit < 4294967295 := by
  have := outMax_le
  simp only [bitposLimit, params_nodeN]
  omega

/-! ### The depth of the walk -/

/-- At ROOT the walk has depth 0, in either order of the indexes. -/
theorem TreeInv.depth_root {s : State} (h : TreeInv s) (hc : s.cur = s.root) : DepthBound s 0 :=
  h.order.imp (fun hbelow => ⟨hbelow, by rw [hc]; rfl⟩) (fun habove => ⟨habove, by rw [hc, habove.1]; rfl⟩)

/-- A child of CUR lies deeper, and no node lies deeper than NODE_N - 1. -/
theorem Inv.depth_child {s : State} {b : Side} {c : Idx} {d : Nat} (h : Inv s) (hr : s.root ≠ NIL) (hd : DepthBound s d)
    (hc : ChildOf s s.cur b c) : ∃ d', d < d' ∧ d' ≤ 511 ∧ DepthBound { s with cur := c } d' := by
  have hbound : s.nodeCnt.toNat ≤ 512 := h.bounds.nodes
  rcases hd with ⟨hbelow, hdepth⟩ | ⟨habove, hdepth⟩
  · have hlt := BitVec.lt_def.1 (hbelow _ _ _ hc)
    have hroot := h.tree.rootWritten hr
    exact ⟨s.root.toNat - c.toNat, by omega, by omega, .inl ⟨hbelow, by show c.toNat + _ = s.root.toNat; omega⟩⟩
  · have hlt := BitVec.lt_def.1 (habove.2 _ _ _ hc)
    have hwritten := h.tree.childWritten _ _ _ hc
    exact ⟨c.toNat, by omega, by omega, .inr ⟨habove, rfl⟩⟩

/-! ### The bound -/

theorem Quiet.ne_decode {s : State} (h : Quiet s) : s.mode ≠ .decode := by
  rcases h with e | e <;> simp [e]

/-- Outside a decode session only the limit counts. -/
theorem BitposInv.outside {s : State} (hlimit : s.bitPos.toNat ≤ bitposLimit) (hm : s.mode ≠ .decode) : BitposInv s :=
  ⟨hlimit, fun hd => absurd hd hm⟩

/-- In a decode session the bound by emitted bytes and depth gives the limit. -/
theorem BitposInv.inside {s : State} {d : Nat} (hout : s.outLen.toNat ≤ Config.params.outMax) (hd : d ≤ 511)
    (hdepth : DepthBound s d) (hbits : s.bitPos.toNat ≤ s.outLen.toNat * 511 + d) : BitposInv s := by
  refine ⟨?_, fun _ => ⟨d, hdepth, hbits⟩⟩
  simp only [bitposLimit, params_nodeN]
  omega

/-- Within the limit the count of a bit-symbol does not wrap. -/
theorem BitposInv.countBit_bitPos {s : State} (h : BitposInv s) : (s.bitPos + 1).toNat = s.bitPos.toNat + 1 :=
  succ_toNat s.bitPos 4294967295 (h.limit.trans_lt bitposLimit_lt) (by decide)

/-- Fault entry keeps BITPOS and ends a session. -/
theorem BitposInv.raise {s : State} (hlimit : s.bitPos.toNat ≤ bitposLimit) (e : ErrorName) (info pos : Word) :
    BitposInv (raise e info pos s) :=
  .outside (by rw [raise_bitPos]; exact hlimit) nofun

/-- DBIT: a descent deepens the walk by at least 1; an emission starts a new byte, whose predecessor took at most
NODE_N - 1 bit-symbols. -/
theorem BitposInv.dbit {s t : State} {a : Byte} (h : BitposInv s) (hi : Inv s) (hm : s.mode = .decode)
    (hx : exec (.dbit a) s = .next t) : BitposInv t := by
  rw [exec_dbit hm] at hx
  rcases dbitBody_cases hm hx with ⟨e, info, _, rfl⟩ | ⟨b, r, rc, _, hr, hc, _, hmove⟩
  · exact .outside h.limit nofun
  obtain ⟨d, hd, hbits⟩ := h.session hm
  obtain ⟨d', hlt, hle, hd'⟩ := hi.depth_child (hi.modes.decode hm).1 hd (childOf_of_nodeAt hr hc)
  have hcount := h.countBit_bitPos
  have hout : s.outLen.toNat ≤ Config.params.outMax := hi.bounds.out
  rw [params_nodeN] at hbits
  rcases hmove with ⟨_, hroom, rfl⟩ | ⟨_, rfl⟩
  · have hpush := pushOut_count (emitted rc) (outLen_room hroom)
    have hroot : DepthBound (countBit { pushOut (emitted rc) s with cur := s.root }) 0 :=
      TreeInv.depth_root (hi.tree.congr rfl rfl rfl) rfl
    exact .inside (hpush.trans_le hroom) (Nat.zero_le _) hroot (by
      show (s.bitPos + 1).toNat ≤ (pushOut (emitted rc) s).outLen.toNat * 511 + 0
      omega)
  · exact .inside hout hle hd' (by show (s.bitPos + 1).toNat ≤ s.outLen.toNat * 511 + d'; omega)

/-- Every command keeps the bound: outside DBIT, BITPOS stays or becomes 0, and only DBEGIN opens a session. -/
theorem BitposInv.exec {i : Instr} {s t : State} (h : BitposInv s) (hi : Inv s) (hx : exec i s = .next t) : BitposInv t := by
  cases exec_answer hx with
  | kept => exact h
  | faulted _ _ => exact .raise h.limit _ _ _
  | reset => exact .outside (Nat.zero_le _) nofun
  | eclr _ => exact .outside h.limit (by rw [clearFault_mode]; split <;> decide)
  | fclr hq | fadd hq => exact .outside h.limit hq.ne_decode
  | build _ _ => obtain ⟨_, _, _, e⟩ := built_frame s; rw [e]; exact .outside h.limit nofun
  | ppush hm _ => exact .outside h.limit (by simp [hm])
  | insert hm hw _ _ => obtain ⟨_, _, rfl⟩ := walk_keeps hw; exact .outside h.limit (by simp [hm])
  | tdrop _ | buildFault _ _ | lbegin _ | lend _ | dend _ _ => exact .outside h.limit nofun
  | dbeginFault _ => exact .raise (Nat.zero_le _) _ _ _
  | dbegin _ _ =>
    have hroot : DepthBound { restarted s with cur := s.root, mode := .decode } 0 :=
      TreeInv.depth_root (hi.tree.congr rfl rfl rfl) rfl
    exact .inside (Nat.zero_le _) (Nat.zero_le _) hroot (Nat.zero_le _)
  | emit hm _ => exact h.dbit hi hm hx
  | descend hm _ _ => exact h.dbit hi hm hx

/-- The environment's side is in no bound. -/
theorem BitposInv.withHost {s : State} (h : BitposInv s) (e : HostSide) : BitposInv { s with host := e } :=
  ⟨h.limit, h.session⟩

theorem BitposInv.step {s t : State} (h : BitposInv s) (hi : Inv s) (hx : step s = .next t) : BitposInv t := by
  rcases step_cases hx with e | ⟨rest, ⟨_, w, rfl⟩ | ⟨i, hexec⟩⟩
  · rw [e]; exact h.withHost _
  · exact .raise (s := Machine.withPending s rest) h.limit _ _ _
  · exact BitposInv.exec (h.withHost _) (hi.withPending rest) hexec

/-- A DBIT that does not fault counts its bit-symbol. -/
theorem BitposInv.dbit_counts {s t : State} {a : Byte} (h : BitposInv s) (hm : s.mode = .decode)
    (hx : Machine.exec (.dbit a) s = .next t) (ht : t.mode = .decode) : t.bitPos.toNat = s.bitPos.toNat + 1 := by
  rw [exec_dbit hm] at hx
  rcases dbitBody_cases hm hx with ⟨e, info, _, rfl⟩ | ⟨_, _, _, _, _, _, _, ⟨_, _, rfl⟩ | ⟨_, rfl⟩⟩
  · cases ht
  · exact h.countBit_bitPos
  · exact h.countBit_bitPos

end Sys2Proof.Machine

namespace Sys2Proof.Proofs

open Sys2Proof.Machine

/-- Settles O51, command by command: the depth of the walk pays for the bit-symbols of the unfinished byte. -/
theorem bitposNeverWraps : Obligations.BitposNeverWraps :=
  ⟨bitposLimit_lt.trans (by decide), fun _ _ hi h hx => h.step hi hx, fun _ _ _ _ h hm hx ht => h.dbit_counts hm hx ht⟩

end Sys2Proof.Proofs
end

section
/-! PROOF. A decode session runs the pure walk of 43_decode.md R176. -/

namespace Sys2Proof.Machine

/-- OUT after an emission, as a list. -/
theorem outBytes_pushOut {s : State} (y : Byte) (h : s.outLen.toNat < 4194304) :
    outBytes (pushOut y s) = outBytes s ++ [y] := by
  have hout := outAt_pushOut y h
  have hold : (List.range s.outLen.toNat).filterMap (outAt (pushOut y s)) = outBytes s :=
    List.filterMap_congr fun k hk => by rw [hout, if_neg (List.mem_range.1 hk).ne]
  rw [outBytes, pushOut_count y h, List.range_succ, List.filterMap_append, hold]
  simp [hout]

/-- In FAULT mode the rest of a sequence is dropped (60_exceptions.md R243). -/
theorem runCommands_dropped {l : List Instr} {s : State} (hl : ∀ i ∈ l, access i s.mode = .drop) :
    runCommands l s = .next s := by
  induction l with
  | nil => rfl
  | cons i l ih =>
    simp only [runCommands, exec_drop (hl i List.mem_cons_self)]
    exact ih fun j hj => hl j (List.mem_cons_of_mem i hj)

/-- A decode session over the tree of s, with k bit-symbols consumed and the bytes `done` emitted. -/
structure Midway (s : State) (k : Nat) (done : List Byte) (u : State) : Prop where
  inv    : Inv u
  mode   : u.mode = .decode
  tree   : SameTree s u
  bits   : u.bitPos = BitVec.ofNat 32 k
  count  : u.outLen.toNat = done.length
  output : outBytes u = done

/-- How the state after a session of n bit-symbols shows what the pure walk gives (R176). -/
def ShowsDecoding (n : Nat) (t : State) : Decoding → Prop
  | .bytes bs => t.mode = .ready ∧ t.outValid = true ∧ t.outLen.toNat = bs.length ∧ outBytes t = bs
  | .invalidBit k c => t.mode = .fault ∧ t.errCode = some .invalidBit ∧ t.errInfo = c.setWidth 32 ∧
      t.errPos = BitVec.ofNat 32 k ∧ t.outLen = 0 ∧ t.outValid = false
  | .invalidPath k b => t.mode = .fault ∧ t.errCode = some .invalidPath ∧ t.errInfo = sideBit b ∧
      t.errPos = BitVec.ofNat 32 k ∧ t.outLen = 0 ∧ t.outValid = false
  | .incomplete m p => t.mode = .fault ∧ t.errCode = some .incompleteSequence ∧ t.errInfo = p.setWidth 32 ∧
      t.errPos = BitVec.ofNat 32 m ∧ m = n ∧ t.outLen = 0 ∧ t.outValid = false

/-- The commands of a session behind DBEGIN. -/
def sessionTail (bits : List Byte) : List Instr := bits.map (fun c => .dbit c) ++ [.dend]

theorem runCommands_sessionTail_cons {c : Byte} {cs : List Byte} {u v : State} (h : exec (.dbit c) u = .next v) :
    runCommands (sessionTail (c :: cs)) u = runCommands (sessionTail cs) v := by
  simp only [sessionTail, List.map_cons, List.cons_append, runCommands, h]

/-- A DBIT that faults ends the session: what follows is dropped. -/
theorem runCommands_sessionTail_fault {c : Byte} {cs : List Byte} {u v : State} (h : exec (.dbit c) u = .next v)
    (hv : v.mode = .fault) : runCommands (sessionTail (c :: cs)) u = .next v := by
  rw [runCommands_sessionTail_cons h]
  refine runCommands_dropped fun i hi => ?_
  rw [hv]
  rcases List.mem_append.1 hi with hi | hi
  · obtain ⟨_, _, rfl⟩ := List.mem_map.1 hi; rfl
  · cases List.mem_singleton.1 hi; rfl

section
variable {s u : State} {k : Nat} {done : List Byte}

theorem Midway.root (h : Midway s k done u) : u.root = s.root := h.tree.2.2

theorem Midway.nodeAt_eq (h : Midway s k done u) (i : Idx) : nodeAt s i = nodeAt u i :=
  (nodeAt_congr h.tree.1 h.tree.2.1 i).symm

/-- One bit-symbol more. -/
theorem Midway.counted (h : Midway s k done u) : u.bitPos + 1 = BitVec.ofNat 32 (k + 1) := by
  rw [h.bits, BitVec.ofNat_add]; rfl

/-- A descent. -/
theorem Midway.descend {c : Idx} {rc : Node} (h : Midway s k done u) (hrc : nodeAt u c = some rc) (hl : rc.isLeaf = false) :
    Midway s (k + 1) done (countBit { u with cur := c }) :=
  ⟨h.inv.descend h.mode hrc hl, h.mode, h.tree, h.counted, h.count, h.output⟩

/-- An emission. -/
theorem Midway.emit (h : Midway s k done u) (hroom : u.outLen.toNat < Config.params.outMax) (y : Byte) :
    Midway s (k + 1) (done ++ [y]) (countBit { pushOut y u with cur := u.root }) := by
  refine ⟨h.inv.emit h.mode hroom y, h.mode, h.tree, h.counted, ?_, ?_⟩
  · rw [List.length_append, ← h.count]
    exact pushOut_count y (outLen_room hroom)
  · rw [← h.output]
    exact outBytes_pushOut y (outLen_room hroom)

/-- DEND tests what the pure walk tests at its end. -/
theorem Midway.dend (h : Midway s k done u) :
    ∃ t, runCommands (sessionTail []) u = .next t ∧ ShowsDecoding k t (walkBits s [] k u.cur done) := by
  simp only [sessionTail, List.map_nil, List.nil_append, runCommands, walkBits]
  by_cases hc : u.cur = s.root
  · rw [exec_dend_root h.mode (hc.trans h.root.symm), if_pos hc]
    exact ⟨_, rfl, rfl, rfl, h.count, h.output⟩
  · rw [exec_dend_midpath h.mode (by rwa [h.root]), if_neg hc]
    exact ⟨_, rfl, rfl, rfl, rfl, h.bits, rfl, rfl, rfl⟩

end

/-- From any point of a session on, DBIT takes the turns of the pure walk, while the output fits. -/
theorem Midway.session {s : State} : ∀ (bits : List Byte) (k : Nat) (done : List Byte) (u : State), Midway s k done u →
    done.length + (emittedBy s bits u.cur).length ≤ Config.params.outMax →
    ∃ t, runCommands (sessionTail bits) u = .next t ∧
      ShowsDecoding (k + bits.length) t (walkBits s bits k u.cur done) := by
  intro bits
  induction bits with
  | nil => exact fun k done u h _ => h.dend
  | cons c cs ih =>
    intro k done u h hfit
    have hlen : k + (c :: cs).length = k + 1 + cs.length := by rw [List.length_cons]; omega
    rw [hlen]
    simp only [walkBits, emittedBy] at hfit ⊢
    cases hb : bitSymbol c with
    | none => exact ⟨_, runCommands_sessionTail_fault (exec_dbit_invalid h.mode hb) rfl, rfl, rfl, rfl, h.bits, rfl, rfl⟩
    | some b =>
      obtain ⟨r, hr⟩ := h.inv.cursor_written h.mode
      simp only [hb, h.nodeAt_eq, hr] at hfit ⊢
      by_cases hc : r.child b = NIL
      · rw [if_pos hc]
        exact ⟨_, runCommands_sessionTail_fault (exec_dbit_noChild h.mode hb hr hc) rfl, rfl, rfl, rfl, h.bits, rfl, rfl⟩
      · obtain ⟨rc, hrc⟩ := h.inv.child_written hr hc
        have hx := exec_dbit_arrives h.mode hb hr hc hrc
        simp only [if_neg hc, hrc] at hfit ⊢
        cases hl : rc.isLeaf with
        | true =>
          simp only [hl, if_true, ← h.root, List.length_cons] at hfit ⊢
          have hroom : u.outLen.toNat < Config.params.outMax := by rw [h.count]; omega
          rw [runCommands_sessionTail_cons (hx.trans (arrive_leaf hl hroom))]
          exact ih _ _ _ (h.emit hroom _) (by
            rw [List.length_append, List.length_singleton, Nat.add_assoc, Nat.add_comm 1]; exact hfit)
        | false =>
          simp only [hl] at hfit ⊢
          rw [runCommands_sessionTail_cons (hx.trans (arrive_inner hl))]
          exact ih _ _ _ (h.descend hrc hl) hfit

/-- DBEGIN opens a session at ROOT with nothing consumed. -/
theorem Inv.midway {s : State} (h : Inv s) (hm : s.mode = .ready) :
    Midway s 0 [] { Machine.restarted s with cur := s.root, mode := .decode } :=
  ⟨h.dbegin (.inr hm) (h.modes.ready hm), rfl, ⟨rfl, rfl, rfl⟩, rfl, rfl, rfl⟩

theorem Inv.runCommands_decodeCommands {s : State} {bits : List Byte} (h : Inv s) (hm : s.mode = .ready)
    (hfit : (emittedBy s bits s.root).length ≤ Config.params.outMax) :
    ∃ t, runCommands (decodeCommands bits) s = .next t ∧ ShowsDecoding bits.length t (decodeBits s bits) := by
  obtain ⟨t, hrun, hshow⟩ := (h.midway hm).session bits 0 [] _ (by rwa [List.length_nil, Nat.zero_add])
  rw [Nat.zero_add] at hshow
  refine ⟨t, ?_, hshow⟩
  simp only [decodeCommands, List.cons_append, runCommands, exec_dbegin_tree (.inr hm) (h.modes.ready hm)]
  exact hrun

end Sys2Proof.Machine

namespace Sys2Proof.Proofs

open Sys2Proof.Machine

/-- Settles O54, by induction on the characters behind DBEGIN. -/
theorem decodeSessionIsThePureWalk : Obligations.DecodeSessionIsThePureWalk := by
  intro s bits h hm hfit
  obtain ⟨t, hrun, hshow⟩ := h.runCommands_decodeCommands hm hfit
  refine ⟨t, hrun, ?_⟩
  cases hd : decodeBits s bits <;> rw [hd] at hshow <;> exact hshow

end Sys2Proof.Proofs
end

section
/-! PROOF. Encoding with a code map (44_reference_functions.md R194). -/

namespace Sys2Proof.Machine

section
variable {m : CodeMap} {b : Byte} {p : List Byte}

/-- A code that is looked up stands in the map. -/
theorem codeOf_mem (h : codeOf m b = some p) : (b, p) ∈ m := by
  induction m with
  | nil => exact absurd h nofun
  | cons x m ih =>
    simp only [codeOf] at h
    split at h
    · cases h
      subst b
      exact List.mem_cons_self
    · exact List.mem_cons_of_mem x (ih h)

/-- A symbol of the map has a code. -/
theorem codeOf_ne_none (h : (b, p) ∈ m) : codeOf m b ≠ none := by
  induction m with
  | nil => exact absurd h List.not_mem_nil
  | cons x m ih =>
    simp only [codeOf]
    split
    · exact nofun
    · rename_i hne
      exact ih ((List.mem_cons.1 h).resolve_left fun e => hne (congrArg Prod.fst e).symm)

end

/-- What the result of encoding from position k on says: every byte has a code, and the codes stand one behind the other; or
c, the byte at position j, is the first without a code. -/
def Explains (m : CodeMap) (k : Nat) (bytes : List Byte) : Encoded → Prop
  | .bits cs => (∀ b ∈ bytes, codeOf m b ≠ none) ∧ cs = bytes.flatMap (fun b => (codeOf m b).getD [])
  | .unknownSymbol c j => ∃ i, j = k + i ∧ bytes[i]? = some c ∧ codeOf m c = none ∧
      ∀ i' d, i' < i → bytes[i']? = some d → codeOf m d ≠ none

/-- Only one result says what is so. -/
theorem Explains.unique {m : CodeMap} {k : Nat} {bytes : List Byte} {e e' : Encoded} (h : Explains m k bytes e)
    (h' : Explains m k bytes e') : e = e' := by
  cases e with
  | bits cs =>
    cases e' with
    | bits cs' => rw [h.2, h'.2]
    | unknownSymbol c' j' =>
      obtain ⟨i', _, hc', hnone', _⟩ := h'
      exact absurd hnone' (h.1 c' (List.mem_of_getElem? hc'))
  | unknownSymbol c j =>
    obtain ⟨i, rfl, hc, hnone, hfirst⟩ := h
    cases e' with
    | bits cs' => exact absurd hnone (h'.1 c (List.mem_of_getElem? hc))
    | unknownSymbol c' j' =>
      obtain ⟨i', rfl, hc', hnone', hfirst'⟩ := h'
      rcases Nat.lt_trichotomy i i' with hlt | rfl | hlt
      · exact absurd hnone (hfirst' i c hlt hc)
      · rw [Option.some.inj (hc.symm.trans hc')]
      · exact absurd hnone' (hfirst i' c' hlt hc')

/-- Encoding says what is so, byte by byte. -/
theorem explains_encodeFrom (m : CodeMap) (bytes : List Byte) (k : Nat) : Explains m k bytes (encodeFrom m k bytes) := by
  induction bytes generalizing k with
  | nil => exact ⟨nofun, rfl⟩
  | cons b bs ih =>
    have hrest := ih (k + 1)
    simp only [encodeFrom]
    cases hb : codeOf m b with
    | none => exact ⟨0, rfl, rfl, hb, fun i' d hi => absurd hi (Nat.not_lt_zero i')⟩
    | some p =>
      have hne : codeOf m b ≠ none := by rw [hb]; exact nofun
      cases he : encodeFrom m (k + 1) bs with
      | bits cs =>
        rw [he] at hrest
        obtain ⟨hall, rfl⟩ := hrest
        exact ⟨List.forall_mem_cons.2 ⟨hne, hall⟩, by rw [List.flatMap_cons, hb]; rfl⟩
      | unknownSymbol c j =>
        rw [he] at hrest
        obtain ⟨i, rfl, hc, hnone, hfirst⟩ := hrest
        refine ⟨i + 1, by omega, hc, hnone, fun i' d hi hd => ?_⟩
        cases i' with
        | zero => cases hd; exact hne
        | succ i' => exact hfirst i' d (Nat.lt_of_succ_lt_succ hi) hd

theorem encodeBytes_eq_iff {m : CodeMap} {bytes : List Byte} {e : Encoded} :
    encodeBytes bytes m = e ↔ Explains m 0 bytes e :=
  ⟨fun h => h ▸ explains_encodeFrom m bytes 0, fun h => (explains_encodeFrom m bytes 0).unique h⟩

end Sys2Proof.Machine

namespace Sys2Proof.Proofs

open Sys2Proof.Machine

/-- Settles O56, by induction on the bytes. -/
theorem encodeNamesTheFirstUnknownSymbol : Obligations.EncodeNamesTheFirstUnknownSymbol := by
  refine fun m bytes => ⟨fun cs => encodeBytes_eq_iff, fun b k => encodeBytes_eq_iff.trans ?_⟩
  simp only [Explains, Nat.zero_add, exists_eq_left']

end Sys2Proof.Proofs
end

section
/-! PROOF. The codes of a tree are the paths to its leaves (44_reference_functions.md R193, R198). -/

namespace Sys2Proof.Machine

/-- The path q leads from node n to a leaf that holds b. -/
def LeafAt (s : State) (n : Idx) (q : List Byte) (b : Byte) : Prop :=
  ∃ k r, follow s n q = some k ∧ nodeAt s k = some r ∧ r.isLeaf = true ∧ r.sym = some b

section
variable {s : State} {n : Idx} {r : Node} {p q : List Byte} {a b : Byte} {x : Byte × List Byte}

theorem leafAt_cons {c : Byte} :
    LeafAt s n (c :: q) b ↔ ∃ d k, c = sideChar d ∧ ChildOf s n d k ∧ LeafAt s k q b := by
  constructor
  · rintro ⟨i, r, hf, hr⟩
    obtain ⟨d, k, hd, hk, hf⟩ := follow_cons.1 hf
    exact ⟨d, k, bitSymbol_eq_some.1 hd, hk, i, r, hf, hr⟩
  · rintro ⟨d, k, rfl, hk, i, r, hf, hr⟩
    exact ⟨i, r, follow_cons.2 ⟨d, k, bitSymbol_sideChar d, hk, hf⟩, hr⟩

/-- At a leaf only the empty path leads to a leaf. -/
theorem leafAt_of_leaf (hr : nodeAt s n = some r) (hl : r.isLeaf = true) :
    LeafAt s n q b ↔ q = [] ∧ r.sym = some b := by
  constructor
  · cases q with
    | nil =>
      rintro ⟨k, r', hf, hr', _, hb⟩
      cases hf
      cases hr.symm.trans hr'
      exact ⟨rfl, hb⟩
    | cons c q =>
      intro h
      obtain ⟨d, k, _, ⟨hne, r', hr', rfl⟩, _⟩ := leafAt_cons.1 h
      cases hr.symm.trans hr'
      exact absurd ((isLeaf_iff r).1 hl d) hne
  · rintro ⟨rfl, hb⟩
    exact ⟨n, r, rfl, hr, hl, hb⟩

/-- At a node with a child a path to a leaf begins with a child's side. -/
theorem leafAt_of_inner (hr : nodeAt s n = some r) (hl : r.isLeaf = false) :
    LeafAt s n q b ↔ ∃ d k q', q = sideChar d :: q' ∧ ChildOf s n d k ∧ LeafAt s k q' b := by
  cases q with
  | nil =>
    constructor
    · rintro ⟨k, r', hf, hr', hl', _⟩
      cases hf
      cases hr.symm.trans hr'
      exact absurd (hl.symm.trans hl') nofun
    · rintro ⟨_, _, _, he, _⟩
      exact absurd he nofun
  | cons c q =>
    rw [leafAt_cons]
    constructor
    · rintro ⟨d, k, rfl, hk, h⟩
      exact ⟨d, k, q, rfl, hk, h⟩
    · rintro ⟨d, k, q', he, hk, h⟩
      cases he
      exact ⟨d, k, rfl, hk, h⟩

/-- A path to a leaf goes no further. -/
theorem LeafAt.of_append {rest : List Byte} (h : LeafAt s n q a) (h' : LeafAt s n (q ++ rest) b) : rest = [] ∧ a = b := by
  obtain ⟨k, r, hf, hr, hl, ha⟩ := h
  obtain ⟨i, r', hf', hi⟩ := h'
  obtain ⟨j, hj, hrest⟩ := follow_split hf'
  cases hf.symm.trans hj
  obtain ⟨rfl, hb⟩ := (leafAt_of_leaf hr hl).1 ⟨i, r', hrest, hi⟩
  exact ⟨rfl, Option.some.inj (ha.symm.trans hb)⟩

/-! ### What `visit` records -/

theorem mem_visit_leaf {f : Nat} (hr : nodeAt s n = some r) (hl : r.isLeaf = true) :
    x ∈ visit s (f + 1) n p ↔ r.sym = some x.1 ∧ x.2 = p := by
  simp only [visit, hr, hl, if_true]
  cases r.sym with
  | none => simp
  | some b => simp [Prod.ext_iff, eq_comm]

/-- What `visit` records on one side of a node: nothing where the child is missing. -/
def visitSide (s : State) (f : Nat) (r : Node) (p : List Byte) (d : Side) : CodeMap :=
  if r.child d = NIL then [] else visit s f (r.child d) (p ++ [sideChar d])

theorem mem_visitSide {f : Nat} {d : Side} (hr : nodeAt s n = some r) :
    x ∈ visitSide s f r p d ↔ ∃ k, ChildOf s n d k ∧ x ∈ visit s f k (p ++ [sideChar d]) := by
  unfold visitSide
  constructor
  · intro hx
    split at hx
    · exact absurd hx List.not_mem_nil
    · exact ⟨_, childOf_of_nodeAt hr (by assumption), hx⟩
  · rintro ⟨k, ⟨hne, r', hr', rfl⟩, hx⟩
    cases hr.symm.trans hr'
    rwa [if_neg hne]

theorem visit_inner {f : Nat} (hr : nodeAt s n = some r) (hl : r.isLeaf = false) :
    visit s (f + 1) n p = visitSide s f r p .left ++ visitSide s f r p .right := by
  simp only [visit, hr, hl]
  rfl

theorem mem_visit_inner {f : Nat} (hr : nodeAt s n = some r) (hl : r.isLeaf = false) :
    x ∈ visit s (f + 1) n p ↔ ∃ d k, ChildOf s n d k ∧ x ∈ visit s f k (p ++ [sideChar d]) := by
  rw [visit_inner hr hl, List.mem_append, mem_visitSide hr, mem_visitSide hr]
  constructor
  · rintro (h | h)
    exacts [⟨_, h⟩, ⟨_, h⟩]
  · rintro ⟨_ | _, h⟩
    exacts [.inl h, .inr h]

end

/-- Visiting to a depth records the leaves whose path is shorter than it. -/
theorem mem_visit {s : State} {x : Byte × List Byte} : ∀ (f : Nat) (n : Idx) (p : List Byte),
    x ∈ visit s f n p ↔ ∃ q, q.length < f ∧ x.2 = p ++ q ∧ LeafAt s n q x.1 := by
  intro f
  induction f with
  | zero => exact fun n p => ⟨fun h => absurd h List.not_mem_nil, fun ⟨q, hq, _⟩ => absurd hq (Nat.not_lt_zero _)⟩
  | succ f ih =>
    intro n p
    cases hr : nodeAt s n with
    | none =>
      have hnone : visit s (f + 1) n p = [] := by simp only [visit, hr]
      rw [hnone]
      refine ⟨fun h => absurd h List.not_mem_nil, fun ⟨q, _, _, h⟩ => ?_⟩
      cases q with
      | nil => obtain ⟨k, r, hf, hk, _⟩ := h; cases hf; exact absurd (hr.symm.trans hk) nofun
      | cons c q =>
        obtain ⟨d, k, _, ⟨_, r, hk, _⟩, _⟩ := leafAt_cons.1 h
        exact absurd (hr.symm.trans hk) nofun
    | some r =>
      cases hl : r.isLeaf with
      | true =>
        simp only [mem_visit_leaf hr hl, leafAt_of_leaf hr hl]
        constructor
        · rintro ⟨hs, hp⟩
          exact ⟨[], Nat.succ_pos f, by rw [hp, List.append_nil], rfl, hs⟩
        · rintro ⟨q, _, hp, rfl, hs⟩
          exact ⟨hs, by rw [hp, List.append_nil]⟩
      | false =>
        simp only [mem_visit_inner hr hl, leafAt_of_inner hr hl, ih, List.append_assoc, List.singleton_append]
        constructor
        · rintro ⟨d, k, hk, q, hq, hp, h⟩
          exact ⟨sideChar d :: q, Nat.succ_lt_succ hq, hp, d, k, q, rfl, hk, h⟩
        · rintro ⟨_, hq, hp, d, k, q, rfl, hk, h⟩
          exact ⟨d, k, hk, q, Nat.lt_of_succ_lt_succ hq, hp, h⟩

/-- No path is recorded twice: the left ones and the right ones differ in the character of the side. -/
theorem visit_paths_nodup (s : State) : ∀ (f : Nat) (n : Idx) (p : List Byte), ((visit s f n p).map Prod.snd).Nodup := by
  intro f
  induction f with
  | zero => exact fun n p => List.nodup_nil
  | succ f ih =>
    intro n p
    cases hr : nodeAt s n with
    | none => simp [visit, hr]
    | some r =>
      cases hl : r.isLeaf with
      | true =>
        simp only [visit, hr, hl, if_true]
        cases r.sym <;> simp
      | false =>
        have hside : ∀ d, ((visitSide s f r p d).map Prod.snd).Nodup := by
          intro d
          unfold visitSide
          split
          exacts [List.nodup_nil, ih _ _]
        have hbegin : ∀ d, ∀ u ∈ (visitSide s f r p d).map Prod.snd, ∃ q, u = p ++ sideChar d :: q := by
          intro d u hu
          obtain ⟨x, hx, rfl⟩ := List.mem_map.1 hu
          obtain ⟨k, _, hx⟩ := (mem_visitSide hr).1 hx
          obtain ⟨q, _, hq, _⟩ := (mem_visit f _ _).1 hx
          exact ⟨q, by rw [hq, List.append_assoc]; rfl⟩
        rw [visit_inner hr hl, List.map_append]
        refine (hside .left).append (hside .right) fun u hu hu' => ?_
        obtain ⟨q, rfl⟩ := hbegin _ u hu
        obtain ⟨q', he⟩ := hbegin _ _ hu'
        exact absurd (List.append_cancel_left he) (by simp [sideChar])

/-! ### The codes -/

theorem generateCodes_eq_map_iff {s : State} {m : CodeMap} : generateCodes s = .map m ↔
    s.root ≠ NIL ∧ leafPaths s ≠ [] ∧ ((leafPaths s).map Prod.fst).Nodup ∧ leafPaths s = m := by
  unfold generateCodes
  split
  · simp_all
  · split
    · simp_all
    · split <;> simp_all

/-- A code leads from ROOT to the leaf of its symbol. -/
theorem leafAt_of_mem_leafPaths {s : State} {x : Byte × List Byte} (h : x ∈ leafPaths s) : LeafAt s s.root x.2 x.1 := by
  obtain ⟨q, _, hq, hx⟩ := (mem_visit _ _ _).1 h
  rwa [hq, List.nil_append]

theorem leafPaths_nodup (s : State) : (leafPaths s).Nodup := (visit_paths_nodup s _ _ _).of_map

/-- A leaf's path begins no other leaf's. -/
theorem prefixFree_leafPaths (s : State) : PrefixFree (leafPaths s) := by
  rintro x hx y hy hne ⟨rest, hrest⟩
  have hy := leafAt_of_mem_leafPaths hy
  rw [← hrest] at hy
  exact hne ((leafAt_of_mem_leafPaths hx).of_append hy).2

end Sys2Proof.Machine

namespace Sys2Proof.Proofs

open Sys2Proof.Machine

/-- Settles O55: a code ends on a leaf, from where no path goes on. -/
theorem generatedCodesArePrefixFree : Obligations.GeneratedCodesArePrefixFree :=
  fun s _ _ h => (generateCodes_eq_map h) ▸ prefixFree_leafPaths s

end Sys2Proof.Proofs
end

section
/-! PROOF. BUILD reads FREQ only (44_reference_functions.md R200). -/

namespace Sys2Proof.Machine

theorem SameTree.alloc {s t : State} (h : SameTree s t) (r : Node) : SameTree (alloc r s) (alloc r t) := by
  obtain ⟨hn, hc, hr⟩ := h
  exact ⟨by simp [hn, hc], by simp [hc], hr⟩

theorem SameTree.allocLeaves {s t : State} (h : SameTree s t) (l : List (Byte × Word)) :
    SameTree (allocLeaves l s) (allocLeaves l t) := by
  induction l generalizing s t with
  | nil => exact h
  | cons p l ih => exact ih (h.alloc _)

/-- The merges look at Q and at the arena. -/
theorem SameTree.mergeLoop {s t : State} (h : SameTree s t) (fuel : Nat) (q : List Key) :
    SameTree (mergeLoop fuel q s) (mergeLoop fuel q t) := by
  induction fuel generalizing q s t with
  | zero => exact h
  | succ fuel ih =>
    simp only [Machine.mergeLoop]
    split
    · exact h
    · split
      · exact ⟨h.1, h.2.1, rfl⟩
      · rw [h.2.1]
        exact ih (h.alloc _) _

theorem SameTree.growTree {s t : State} (h : SameTree s t) (l : List (Byte × Word)) :
    SameTree (growTree l s) (growTree l t) := by
  unfold Machine.growTree
  split
  · obtain ⟨hn, hc, hr⟩ := (h.allocLeaves _).alloc _
    exact ⟨hn, hc, (h.allocLeaves _).2.1⟩
  · exact (h.allocLeaves _).mergeLoop _ _

/-- The tree of an accepted BUILD is made from the present symbols in an empty arena. -/
theorem sameTree_built {s t : State} (h : s.freq = t.freq) : SameTree (built s) (built t) := by
  have hempty : SameTree { discardTree s with mode := .idle } { discardTree t with mode := .idle } := ⟨rfl, rfl, rfl⟩
  have hgrown := hempty.growTree (presentSymbols s.freq)
  rw [built, built, ← h]
  exact hgrown

end Sys2Proof.Machine

namespace Sys2Proof.Proofs

open Sys2Proof.Machine

/-- Settles O34, test by test: the tests read FREQ, a fault leaves no tree, and the tree is made in an empty arena. -/
theorem builtTreeDependsOnFreqOnly : Obligations.BuiltTreeDependsOnFreqOnly := by
  intro s t hs ht hfreq
  have hcount : symbolCount t = symbolCount s := by rw [← presentSymbols_length, ← presentSymbols_length, hfreq]
  have hsum : frequencySum t = frequencySum s := by rw [← freqTotal_eq, ← freqTotal_eq, hfreq]
  rw [exec_build hs, exec_build ht, buildBody_eq, buildBody_eq, hcount, hsum]
  split
  · exact ⟨_, _, rfl, rfl, rfl, rfl, rfl, rfl⟩
  · split
    · exact ⟨_, _, rfl, rfl, rfl, rfl, rfl, rfl⟩
    · split
      · exact ⟨_, _, rfl, rfl, rfl, rfl, rfl, rfl⟩
      · obtain ⟨hn, hc, hr⟩ := sameTree_built hfreq
        exact ⟨_, _, rfl, rfl, rfl, hr.symm, hc.symm, hn.symm⟩

end Sys2Proof.Proofs
end

section
/-! PROOF. The codes of a whole tree, of a built one above all: every present symbol has one, and none is empty or too long
to be loaded again (41_frequency_and_build.md R138, 44_reference_functions.md R193). -/

namespace Sys2Proof.Machine

/-! ### A whole tree -/

/-- NODE holds a tree: R36 (a) to (d) with a ROOT. -/
structure WholeTree (s : State) : Prop where
  keys : s.node.map Prod.fst = List.range s.nodeCnt.toNat
  tree : TreeInv s
  root : s.root ≠ NIL

/-- Along a path the indexes fall in a built tree. -/
theorem ChildrenBelow.follow_le {s : State} (h : ChildrenBelow s) {p : List Byte} {n i : Idx} (hp : follow s n p = some i) :
    i.toNat + p.length ≤ n.toNat := by
  induction p generalizing n with
  | nil => cases hp; exact le_rfl
  | cons c p ih =>
    obtain ⟨b, k, _, hk, hp⟩ := follow_cons.1 hp
    have hlt := BitVec.lt_def.1 (h n b k hk)
    have := ih hp
    rw [List.length_cons]
    omega

/-- Along a path the indexes rise in a loaded tree. -/
theorem ChildrenAbove.le_follow {s : State} (h : ChildrenAbove s) {p : List Byte} {n i : Idx} (hp : follow s n p = some i) :
    n.toNat + p.length ≤ i.toNat := by
  induction p generalizing n with
  | nil => cases hp; exact le_rfl
  | cons c p ih =>
    obtain ⟨b, k, _, hk, hp⟩ := follow_cons.1 hp
    have hlt := BitVec.lt_def.1 (h.2 n b k hk)
    have := ih hp
    rw [List.length_cons]
    omega

section
variable {s : State} {n i : Idx} {p : List Byte}

theorem WholeTree.path_record (h : WholeTree s) (hp : follow s s.root p = some i) : ∃ r, nodeAt s i = some r :=
  nodeAt_of_range h.keys (h.tree.path_written h.root hp)

theorem WholeTree.child_record (h : WholeTree s) {b : Side} (hk : ChildOf s n b i) : ∃ r, nodeAt s i = some r :=
  nodeAt_of_range h.keys (h.tree.childWritten _ _ _ hk)

/-- A path has fewer characters than the tree has nodes. -/
theorem WholeTree.path_length_lt (h : WholeTree s) (hp : follow s s.root p = some i) : p.length < s.nodeCnt.toNat := by
  have hi := h.tree.path_written h.root hp
  have hroot := h.tree.rootWritten h.root
  rcases h.tree.order with hb | ha
  · have := hb.follow_le hp
    omega
  · have := ha.le_follow hp
    omega

/-- The codes are all the paths from ROOT to a leaf with a symbol. -/
theorem WholeTree.mem_leafPaths (h : WholeTree s) {x : Byte × List Byte} :
    x ∈ leafPaths s ↔ LeafAt s s.root x.2 x.1 := by
  refine ⟨leafAt_of_mem_leafPaths, fun hx => (mem_visit _ _ _).2 ⟨x.2, ?_, rfl, hx⟩⟩
  obtain ⟨k, _, hk, _⟩ := hx
  exact h.path_length_lt hk

/-- There are as many nodes as paths from ROOT. -/
theorem WholeTree.paths_length (h : WholeTree s) {paths : List (List Byte)} (hnodup : paths.Nodup)
    (hpaths : ∀ q, q ∈ paths ↔ ∃ k, follow s s.root q = some k) : paths.length = s.nodeCnt.toNat := by
  refine Nat.le_antisymm ?_ ?_
  · have hends : (paths.map (follow s s.root)).Nodup := hnodup.map_on fun u hu v _ huv => by
      obtain ⟨k, hk⟩ := (hpaths u).1 hu
      exact h.tree.path_unique hk (huv ▸ hk)
    have hsub : paths.map (follow s s.root) ⊆ writtenIndexes s := List.forall_mem_map.2 fun u hu => by
      obtain ⟨k, hk⟩ := (hpaths u).1 hu
      rw [hk]
      exact mem_writtenIndexes (h.tree.path_written h.root hk)
    simpa [writtenIndexes_length] using (hends.subperm hsub).length_le
  · have hnodes : (writtenIndexes s).Nodup := by
      refine List.nodup_range.map_on fun i hi j hj hij => ?_
      have := s.nodeCnt.isLt
      rw [List.mem_range] at hi hj
      exact ofNat_idx_inj (by omega) (by omega) (Option.some.inj hij)
    have hsub : writtenIndexes s ⊆ paths.map (follow s s.root) := by
      intro o ho
      obtain ⟨i, hi, rfl⟩ := List.mem_map.1 ho
      have := s.nodeCnt.isLt
      rw [List.mem_range] at hi
      obtain ⟨q, hq⟩ := h.tree.reached (i := BitVec.ofNat 10 i) (by rw [BitVec.toNat_ofNat]; omega)
      exact List.mem_map.2 ⟨q, (hpaths q).2 ⟨_, hq⟩, hq⟩
    simpa [writtenIndexes_length] using (hnodes.subperm hsub).length_le

end

/-! ### The tree BUILD makes -/

/-- A tree with the leaves l at the first indexes and a node with children at every other. -/
structure BuiltTree (l : List (Byte × Word)) (t : State) : Prop extends WholeTree t where
  below    : ChildrenBelow t
  leaves   : ∀ k : Idx, ∀ h : k.toNat < l.length, nodeAt t k = some (leafNode l[k.toNat].1 l[k.toNat].2)
  inner    : ∀ k r, l.length ≤ k.toNat → nodeAt t k = some r → r.isLeaf = false
  rootFrom : l.length ≤ t.root.toNat
  rootTo   : t.root.toNat ≤ l.length + 254

theorem builtTree_single (s : State) (a : Byte) (w : Word) : BuiltTree [(a, w)] (singleTree s a w) := by
  obtain ⟨htree, hbelow⟩ := TreeInv.of_single (s := singleTree s a w) rfl rfl rfl
  refine ⟨⟨rfl, htree, show (1 : Idx) ≠ NIL by decide⟩, hbelow, fun k hk => ?_, fun k r hk hr => ?_, ?_, ?_⟩
  · obtain rfl : k = 0 := BitVec.eq_of_toNat_eq (by simpa using hk)
    rfl
  · have hlt : k.toNat < 2 := nodeAt_lt hr
    obtain rfl : k = 1 := BitVec.eq_of_toNat_eq (by simp at hk ⊢; omega)
    cases hr
    rfl
  · exact le_rfl
  · show (1 : Idx).toNat ≤ 1 + 254
    decide

/-- An accepted BUILD leaves such a tree over the present symbols. -/
theorem builtTree_built {s : State} (hf : SomeFrequency s) (hsum : frequencySum s < 4294967296) :
    BuiltTree (presentSymbols s.freq) (built s) := by
  by_cases h1 : symbolCount s = 1
  · obtain ⟨a, w, h⟩ := exists_single h1
    rw [built_single h, h]
    exact builtTree_single s a w
  · have hpos := (symbolCount_pos s).2 hf
    have hle := symbolCount_le s
    obtain ⟨x, hshape, hlast, _⟩ := built_shape (by omega) hsum
    obtain ⟨htree, hkeys, _, hroot⟩ := built_tree hf
    obtain ⟨_, hbelow, _⟩ := build_tree (s0 := { discardTree s with mode := .idle }) hf rfl rfl
    have hcount := hshape.count
    rw [presentSymbols_length, List.length_singleton] at hcount
    refine ⟨⟨hkeys, htree, hroot⟩, hbelow.congr rfl rfl, hshape.leaves, fun k r hk hr => ?_, ?_, ?_⟩
    · obtain ⟨_, _, _, hl, _⟩ := hshape.merges k r hk hr
      have := k.isLt
      exact not_leaf_of_child (b := .left) (ne_NIL_of_lt (show r.left.toNat < 1023 by omega))
    · rw [presentSymbols_length]
      omega
    · rw [presentSymbols_length]
      omega

namespace BuiltTree

section
variable {l : List (Byte × Word)} {t : State} {k : Idx} {r : Node} {p : List Byte} {b : Byte} (h : BuiltTree l t)
include h

/-- A node without children is one of the leaves l. -/
theorem leaf_index (hr : nodeAt t k = some r) (hl : r.isLeaf = true) :
    ∃ hk : k.toNat < l.length, r = leafNode l[k.toNat].1 l[k.toNat].2 := by
  have hk : k.toNat < l.length := by
    by_contra hk
    exact absurd (hl.symm.trans (h.inner k r (Nat.le_of_not_lt hk) hr)) nofun
  exact ⟨hk, Option.some.inj (hr.symm.trans (h.leaves k hk))⟩

/-- Every node leads down to a leaf. -/
theorem exists_leafAt (hr : nodeAt t k = some r) : ∃ q b, LeafAt t k q b := by
  induction hn : k.toNat using Nat.strong_induction_on generalizing k r with
  | h n ih =>
    cases hl : r.isLeaf with
    | true =>
      obtain ⟨_, rfl⟩ := h.leaf_index hr hl
      exact ⟨[], _, k, _, rfl, hr, hl, rfl⟩
    | false =>
      obtain ⟨d, hd⟩ : ∃ d, r.child d ≠ NIL := by
        by_contra hnone
        push Not at hnone
        exact absurd (((isLeaf_iff r).2 hnone).symm.trans hl) nofun
      have hchild := childOf_of_nodeAt hr hd
      obtain ⟨rc, hrc⟩ := h.toWholeTree.child_record hchild
      obtain ⟨q, b, hq⟩ := ih _ (hn ▸ BitVec.lt_def.1 (h.below _ _ _ hchild)) hrc rfl
      exact ⟨sideChar d :: q, b, leafAt_cons.2 ⟨d, _, rfl, hchild, hq⟩⟩

/-- The tree is at most 255 levels deep: a path's nodes but the last are no leaves. -/
theorem path_length_le (hp : follow t t.root p = some k) : p.length ≤ 255 := by
  rcases List.eq_nil_or_concat' p with rfl | ⟨q, c, rfl⟩
  · exact Nat.zero_le _
  · obtain ⟨j, b, hq, _, hne, rj, hrj, hc⟩ := follow_concat hp
    have hj : l.length ≤ j.toNat := by
      by_contra hj
      have hleaf := h.leaves j (Nat.lt_of_not_le hj)
      cases hrj.symm.trans hleaf
      exact hne (hc.symm.trans (child_leafNode _ _ b))
    have := h.below.follow_le hq
    have := h.rootTo
    rw [List.length_append, List.length_singleton]
    omega

/-- ROOT is no leaf, so no code is empty. -/
theorem code_ne_nil {x : Byte × List Byte} (hx : x ∈ leafPaths t) : x.2 ≠ [] := by
  intro he
  have hleaf := leafAt_of_mem_leafPaths hx
  rw [he] at hleaf
  obtain ⟨k, r, hk, hr, hl, _⟩ := hleaf
  cases hk
  exact absurd (hl.symm.trans (h.inner _ r h.rootFrom hr)) nofun

/-- Every symbol of l has a code. -/
theorem exists_code (hl : l.length ≤ 256) (hb : b ∈ l.map Prod.fst) : ∃ p, (b, p) ∈ leafPaths t := by
  obtain ⟨y, hy, rfl⟩ := List.mem_map.1 hb
  obtain ⟨j, hj, rfl⟩ := List.getElem_of_mem hy
  have hidx : (BitVec.ofNat 10 j).toNat = j := by rw [BitVec.toNat_ofNat]; omega
  have hleaf := h.leaves (BitVec.ofNat 10 j) (by omega)
  simp only [hidx] at hleaf
  obtain ⟨p, hp⟩ := h.tree.reached (nodeAt_lt hleaf)
  exact ⟨p, h.toWholeTree.mem_leafPaths.2 ⟨_, _, hp, hleaf, (isLeaf_iff _).2 (by simp), rfl⟩⟩

/-- No symbol has two codes, since none is on two leaves. -/
theorem symbols_nodup (hl : (l.map Prod.fst).Nodup) : ((leafPaths t).map Prod.fst).Nodup := by
  refine (leafPaths_nodup t).map_on fun x hx y hy hxy => ?_
  obtain ⟨i, ri, hi, hri, hli, hbi⟩ := leafAt_of_mem_leafPaths hx
  obtain ⟨j, rj, hj, hrj, hlj, hbj⟩ := leafAt_of_mem_leafPaths hy
  obtain ⟨hilt, rfl⟩ := h.leaf_index hri hli
  obtain ⟨hjlt, rfl⟩ := h.leaf_index hrj hlj
  have hsym : l[i.toNat].1 = l[j.toNat].1 := (Option.some.inj hbi).trans (hxy.trans (Option.some.inj hbj).symm)
  have hij : i.toNat = j.toNat := by
    refine (List.Nodup.getElem_inj_iff hl (hi := by simpa using hilt) (hj := by simpa using hjlt)).1 ?_
    simpa using hsym
  cases BitVec.eq_of_toNat_eq hij
  exact Prod.ext hxy (h.tree.path_unique hi hj)

end

end BuiltTree

/-- The codes BUILD makes: a map that has one for every present symbol (R193). -/
theorem generateCodes_built {s : State} (hf : SomeFrequency s) (hsum : frequencySum s < 4294967296) :
    generateCodes (built s) = .map (leafPaths (built s)) ∧
      ∀ b, freqAt s b ≠ 0 → codeOf (leafPaths (built s)) b ≠ none := by
  have h := builtTree_built hf hsum
  have hcode : ∀ b, freqAt s b ≠ 0 → ∃ p, (b, p) ∈ leafPaths (built s) := fun b hb =>
    h.exists_code ((presentSymbols_length s).trans_le (symbolCount_le s)) (mem_presentBytes.2 hb)
  refine ⟨generateCodes_eq_map_iff.2 ⟨h.root, ?_, h.symbols_nodup (presentBytes_nodup s), rfl⟩, fun b hb => ?_⟩
  · obtain ⟨b, hb⟩ := hf
    obtain ⟨p, hp⟩ := hcode b hb
    exact List.ne_nil_of_mem hp
  · obtain ⟨p, hp⟩ := hcode b hb
    exact codeOf_ne_none hp

end Sys2Proof.Machine
end

section
/-! PROOF. The round trip (44_reference_functions.md R196): the pure walk reads back what the codes of a tree write. -/

namespace Sys2Proof.Machine

section
variable {s : State} {n : Idx} {r rc : Node} {c : Byte} {d : Side}

/-- One turn of the pure walk, where the child is there. -/
theorem walkBits_turn (hc : bitSymbol c = some d) (hr : nodeAt s n = some r) (hne : r.child d ≠ NIL)
    (hrc : nodeAt s (r.child d) = some rc) (cs : List Byte) (k : Nat) (done : List Byte) :
    walkBits s (c :: cs) k n done =
      if rc.isLeaf then walkBits s cs (k + 1) s.root (done ++ [emitted rc]) else walkBits s cs (k + 1) (r.child d) done := by
  simp only [walkBits, hc, hr, if_neg hne, hrc]

theorem emittedBy_turn (hc : bitSymbol c = some d) (hr : nodeAt s n = some r) (hne : r.child d ≠ NIL)
    (hrc : nodeAt s (r.child d) = some rc) (cs : List Byte) :
    emittedBy s (c :: cs) n = if rc.isLeaf then emitted rc :: emittedBy s cs s.root else emittedBy s cs (r.child d) := by
  simp only [emittedBy, hc, hr, if_neg hne, hrc]

end

/-- The pure walk reads a non-empty path to a leaf, emits the leaf's symbol and is back at ROOT. -/
theorem LeafAt.read {s : State} {b : Byte} {p : List Byte} (hp : p ≠ []) {n : Idx} (h : LeafAt s n p b) (rest : List Byte) :
    (∀ k done, walkBits s (p ++ rest) k n done = walkBits s rest (k + p.length) s.root (done ++ [b])) ∧
      emittedBy s (p ++ rest) n = b :: emittedBy s rest s.root := by
  induction p generalizing n with
  | nil => exact absurd rfl hp
  | cons c p ih =>
    obtain ⟨d, _, rfl, ⟨hne, r, hr, rfl⟩, h⟩ := leafAt_cons.1 h
    cases p with
    | nil =>
      obtain ⟨_, rc, hf, hrc, hl, hb⟩ := h
      cases hf
      have hwalk := walkBits_turn (bitSymbol_sideChar d) hr hne hrc rest
      have hemit := emittedBy_turn (bitSymbol_sideChar d) hr hne hrc rest
      rw [emitted_symbol hb] at hwalk hemit
      exact ⟨fun k done => (hwalk k done).trans (if_pos hl), hemit.trans (if_pos hl)⟩
    | cons e p =>
      obtain ⟨_, _, _, ⟨hne', rc, hrc, rfl⟩, _⟩ := leafAt_cons.1 h
      have hl : ¬ rc.isLeaf = true := by rw [not_leaf_of_child hne']; exact nofun
      have hwalk := walkBits_turn (bitSymbol_sideChar d) hr hne hrc (e :: p ++ rest)
      have hemit := emittedBy_turn (bitSymbol_sideChar d) hr hne hrc (e :: p ++ rest)
      obtain ⟨hw, he⟩ := ih (List.cons_ne_nil e p) h
      refine ⟨fun k done => ((hwalk k done).trans (if_neg hl)).trans ?_, (hemit.trans (if_neg hl)).trans he⟩
      rw [hw, show k + 1 + (e :: p).length = k + (sideChar d :: e :: p).length by simp only [List.length_cons]; omega]

/-- The pure walk reads back the bytes from their codes. -/
theorem walkBits_codes {s : State} (hne : ∀ x ∈ leafPaths s, x.2 ≠ []) (bytes : List Byte)
    (hcodes : ∀ b ∈ bytes, codeOf (leafPaths s) b ≠ none) :
    let cs := bytes.flatMap (fun b => (codeOf (leafPaths s) b).getD [])
    (∀ k done, walkBits s cs k s.root done = .bytes (done ++ bytes)) ∧ emittedBy s cs s.root = bytes := by
  induction bytes with
  | nil => exact ⟨fun k done => (if_pos rfl).trans (by rw [List.append_nil]), rfl⟩
  | cons b bytes ih =>
    obtain ⟨hb, hcodes⟩ := List.forall_mem_cons.1 hcodes
    obtain ⟨p, hp⟩ := Option.ne_none_iff_exists'.1 hb
    have hmem := codeOf_mem hp
    obtain ⟨hwalk, hemit⟩ := (leafAt_of_mem_leafPaths hmem).read (hne _ hmem)
      (bytes.flatMap (fun b => (codeOf (leafPaths s) b).getD []))
    obtain ⟨hw, he⟩ := ih hcodes
    simp only [List.flatMap_cons, hp, Option.getD_some]
    refine ⟨fun k done => ?_, by rw [hemit, he]⟩
    rw [hwalk, hw, List.append_assoc]
    rfl

/-! ### The table of the bytes -/

theorem frequencies_le (bytes : List Byte) (b : Byte) : frequencies bytes b ≤ bytes.length := List.count_le_length

/-- 256 counts of at most 2^22 each stay below 2^32 together. -/
theorem frequencySum_lt {s : State} (h : ∀ b, (freqAt s b).toNat ≤ 4194304) : frequencySum s < 4294967296 := by
  have hle := List.sum_le_card_nsmul ((List.range 256).map (fun k => (freqAt s (BitVec.ofNat 8 k)).toNat)) 4194304
    (List.forall_mem_map.2 fun k _ => h _)
  rw [List.length_map, List.length_range] at hle
  exact Nat.lt_of_le_of_lt hle (by decide)

/-- RESET and one FADD per byte leave the counts of the bytes in an otherwise reset block. -/
theorem runCommands_reset_fadd {s : State} {bytes : List Byte} (hlen : bytes.length ≤ 4194304) :
    ∃ t, runCommands (.reset :: bytes.map (fun b => .fadd b 1)) s = .next t ∧ Inv t ∧ Quiet t ∧
      ∀ b, (freqAt t b).toNat = frequencies bytes b := by
  have hzero : ∀ b, (freqAt (resetState s) b).toNat = 0 := fun b => by simp [freqAt, State.reset]
  have hcount := frequencies_le bytes
  obtain ⟨t, hrun, hframe, hfreq⟩ := runCommands_fadd bytes (resetState s) (.inl rfl) fun b => by
    have := hcount b
    rw [hzero]
    omega
  refine ⟨t, ?_, ?_, ?_, fun b => by rw [hfreq, hzero, Nat.zero_add]⟩
  · simp only [runCommands, exec_reset]
    exact hrun
  · rw [hframe]
    exact (inv_reset.withHost s.host).withFreq t.freq
  · rw [hframe]
    exact .inl rfl

end Sys2Proof.Machine

namespace Sys2Proof.Proofs

open Sys2Proof.Machine

/-- Settles O57: every byte has a code, the codes are read back along the paths to their leaves, and the decode session runs
the pure walk. -/
theorem roundTrip : Obligations.RoundTrip := by
  intro s bytes hne hlen
  obtain ⟨t, hrun, hinv, hquiet, hfreq⟩ := runCommands_reset_fadd (s := s) (hlen.trans outMax_le)
  have hpresent : ∀ b ∈ bytes, freqAt t b ≠ 0 := by
    intro b hb hzero
    have hpos : 0 < frequencies bytes b := List.count_pos_iff.2 hb
    rw [← hfreq, hzero] at hpos
    exact absurd hpos (Nat.lt_irrefl 0)
  obtain ⟨b, hb⟩ := List.exists_mem_of_ne_nil _ hne
  have hsome : SomeFrequency t := ⟨b, hpresent b hb⟩
  have hsum : frequencySum t < 4294967296 := frequencySum_lt fun b => by
    rw [hfreq]
    exact (frequencies_le bytes b).trans (hlen.trans outMax_le)
  obtain ⟨hgen, hcode⟩ := generateCodes_built hsome hsum
  have hcodes : ∀ b ∈ bytes, codeOf (leafPaths (built t)) b ≠ none := fun b hb => hcode b (hpresent b hb)
  obtain ⟨hwalk, hemit⟩ := walkBits_codes (fun _ => (builtTree_built hsome hsum).code_ne_nil) bytes hcodes
  have hmode : (built t).mode = .ready := rfl
  obtain ⟨u, hdecode, hshow⟩ := (hinv.built hquiet hsome).runCommands_decodeCommands hmode (by rwa [hemit])
  rw [decodeBits, hwalk, List.nil_append] at hshow
  refine ⟨built t, _, _, u, ?_, hgen, encodeBytes_eq_iff.2 ⟨hcodes, rfl⟩, hdecode, hshow⟩
  rw [← List.cons_append, runCommands_append hrun]
  simp only [runCommands, exec_build_accepts hquiet hsome hsum]

end Sys2Proof.Proofs
end

section
/-! PROOF. A built tree and the tree reloaded from its codes have the same codes (44_reference_functions.md R197): the codes
fit a load session, and a table's tree holds the table. -/

namespace Sys2Proof.Machine

theorem LeafAt.behind {s : State} {n k : Idx} {p q : List Byte} {b : Byte} (hp : follow s n p = some k)
    (h : LeafAt s k q b) : LeafAt s n (p ++ q) b := by
  obtain ⟨i, r, hf, hr⟩ := h
  exact ⟨i, r, follow_append p q n k i hp hf, hr⟩

/-- A path that is there has bit-symbols only. -/
theorem bitSymbol_of_follow {s : State} {p : List Byte} {n i : Idx} (h : follow s n p = some i) :
    ∀ c ∈ p, bitSymbol c ≠ none := by
  induction p generalizing n with
  | nil => exact nofun
  | cons c p ih =>
    obtain ⟨b, k, hb, _, h⟩ := follow_cons.1 h
    exact List.forall_mem_cons.2 ⟨by rw [hb]; exact nofun, ih h⟩

/-! ### The table of a built tree's codes -/

namespace BuiltTree

section
variable {l : List (Byte × Word)} {t : State} (h : BuiltTree l t)
include h

/-- The parts of the codes are the paths of the tree: every path leads on to a leaf. -/
theorem mem_pathParts {q : List Byte} : q ∈ pathParts (leafPaths t) ↔ q ≠ [] ∧ ∃ k, follow t t.root q = some k := by
  rw [Machine.mem_pathParts]
  refine and_congr_right fun _ => ⟨?_, ?_⟩
  · rintro ⟨x, hx, rest, hrest⟩
    obtain ⟨i, _, hi, _⟩ := leafAt_of_mem_leafPaths hx
    rw [← hrest] at hi
    obtain ⟨k, hk, _⟩ := follow_split hi
    exact ⟨k, hk⟩
  · rintro ⟨k, hk⟩
    obtain ⟨r, hr⟩ := h.toWholeTree.path_record hk
    obtain ⟨q', b, hq'⟩ := h.exists_leafAt hr
    exact ⟨(b, q ++ q'), h.toWholeTree.mem_leafPaths.2 (hq'.behind hk), List.prefix_append q q'⟩

/-- The codes have as many parts as the tree has nodes beside ROOT. -/
theorem pathParts_length : 1 + (pathParts (leafPaths t)).length = t.nodeCnt.toNat := by
  have hnodup : ([] :: pathParts (leafPaths t)).Nodup :=
    List.nodup_cons.2 ⟨fun hmem => (h.mem_pathParts.1 hmem).1 rfl, pathParts_nodup _⟩
  rw [← h.toWholeTree.paths_length hnodup fun q => ?_, List.length_cons, Nat.add_comm]
  rw [List.mem_cons, h.mem_pathParts]
  constructor
  · rintro (rfl | ⟨_, hk⟩)
    exacts [⟨_, rfl⟩, hk]
  · intro hk
    by_cases hq : q = []
    exacts [.inl hq, .inr ⟨hq, hk⟩]

/-- Every code is a record the loader takes. -/
theorem code_valid {x : Byte × List Byte} (hx : x ∈ leafPaths t) :
    x.2 ≠ [] ∧ x.2.length ≤ 255 ∧ ∀ c ∈ x.2, bitSymbol c ≠ none := by
  obtain ⟨k, _, hk, _⟩ := leafAt_of_mem_leafPaths hx
  exact ⟨h.code_ne_nil hx, h.path_length_le hk, bitSymbol_of_follow hk⟩

end

end BuiltTree

theorem PrefixFree.perm {m m' : CodeMap} (h : PrefixFree m) (hp : m'.Perm m) : PrefixFree m' :=
  fun x hx y hy => h x (hp.mem_iff.1 hx) y (hp.mem_iff.1 hy)

theorem pathParts_length_perm {m m' : CodeMap} (hp : m.Perm m') : (pathParts m).length = (pathParts m').length :=
  Nat.le_antisymm (pathParts_length_le hp.subset) (pathParts_length_le hp.symm.subset)

/-- BUILD that leaves codes was accepted. -/
theorem built_of_codes {s t : State} {m : CodeMap} (hq : Quiet s) (ht : exec .build s = .next t)
    (hm : generateCodes t = .map m) : SomeFrequency s ∧ frequencySum s < 4294967296 ∧ t = built s := by
  rw [exec_build hq] at ht
  rcases buildBody_cases ht with ⟨_, _, _, rfl⟩ | hbuilt
  · exact absurd rfl (generateCodes_eq_map_iff.1 hm).1
  · exact hbuilt

/-- The load session of a built tree's codes completes. -/
theorem reload_built {s : State} {records : CodeMap} (hf : SomeFrequency s) (hsum : frequencySum s < 4294967296)
    (hp : records.Perm (leafPaths (built s))) : ∃ u, runCommands (loadCommands records) (built s) = .next u ∧
      u.mode = .ready ∧ HoldsTable records u := by
  have h := builtTree_built hf hsum
  obtain ⟨_, _, hbound, _⟩ := built_tree hf
  have hroom := h.pathParts_length
  rw [← pathParts_length_perm hp] at hroom
  exact runCommands_loadCommands (.inr rfl) ((hp.map _).nodup_iff.2 (h.symbols_nodup (presentBytes_nodup s)))
    (fun x hx => h.code_valid (hp.mem_iff.1 hx)) ((prefixFree_leafPaths _).perm hp) (hroom.trans_le hbound)

/-! ### The codes of a table's tree -/

section
variable {records : CodeMap} {u : State} (h : HoldsTable records u)
include h

theorem HoldsTable.whole : WholeTree u := ⟨h.tree.keys, h.tree.tree, h.tree.root_ne⟩

/-- The leaves of a table's tree are its records. -/
theorem HoldsTable.leafAt_iff {q : List Byte} {b : Byte} : LeafAt u u.root q b ↔ (b, q) ∈ records := by
  constructor
  · rintro ⟨k, r, hk, hr, _, hb⟩
    obtain ⟨x, hx, rfl, hxk⟩ := h.marks k r b hr hb
    rwa [← h.tree.tree.path_unique hxk hk]
  · intro hmem
    obtain ⟨k, hk, hleaf⟩ := h.leaf _ hmem
    exact ⟨k, _, hk, hleaf, (isLeaf_iff _).2 (by simp), rfl⟩

/-- The codes of a table's tree are the table. -/
theorem HoldsTable.generateCodes (hnodup : (records.map Prod.fst).Nodup) (hne : records ≠ []) :
    ∃ m, generateCodes u = .map m ∧ m.Perm records := by
  have hperm : (leafPaths u).Perm records :=
    (List.perm_ext_iff_of_nodup (leafPaths_nodup u) hnodup.of_map).2 fun x => h.whole.mem_leafPaths.trans h.leafAt_iff
  exact ⟨_, generateCodes_eq_map_iff.2 ⟨h.whole.root, fun e => hne (by rw [e] at hperm; exact hperm.nil_eq.symm),
    (hperm.map _).nodup_iff.2 hnodup, rfl⟩, hperm⟩

end

/-! ### Two trees with the same codes -/

/-- Two trees with the same paths and the same symbols at their leaves. -/
structure SameCodes (t u : State) : Prop where
  left   : WholeTree t
  right  : WholeTree u
  paths  : ∀ q, (∃ k, follow t t.root q = some k) ↔ ∃ k, follow u u.root q = some k
  leaves : ∀ q b, LeafAt t t.root q b ↔ LeafAt u u.root q b

theorem SameCodes.symm {t u : State} (h : SameCodes t u) : SameCodes u t :=
  ⟨h.right, h.left, fun q => (h.paths q).symm, fun q b => (h.leaves q b).symm⟩

/-- A built tree and a tree that holds the table of its codes. -/
theorem BuiltTree.sameCodes {l : List (Byte × Word)} {t u : State} {records : CodeMap} (ht : BuiltTree l t)
    (hu : HoldsTable records u) (hp : records.Perm (leafPaths t)) : SameCodes t u := by
  refine ⟨ht.toWholeTree, hu.whole, fun q => ?_, fun q b => ?_⟩
  · by_cases hq : q = []
    · rw [hq]
      exact ⟨fun _ => ⟨_, rfl⟩, fun _ => ⟨_, rfl⟩⟩
    · have hparts : q ∈ pathParts (leafPaths t) ↔ q ∈ pathParts records := by
        simp only [Machine.mem_pathParts, hp.mem_iff]
      rw [hu.path_iff hq, ← hparts, ht.mem_pathParts]
      exact ⟨fun hk => ⟨hq, hk⟩, And.right⟩
  · rw [hu.leafAt_iff, hp.mem_iff, ht.toWholeTree.mem_leafPaths]

end Sys2Proof.Machine
end

section
/-! PROOF. Decode sessions over two trees with the same codes go the same way (44_reference_functions.md R197). -/

namespace Sys2Proof.Machine

/-! ### The error registers outside faults -/

/-- Two states with the same error registers. -/
def SameErrors (s t : State) : Prop := t.errCode = s.errCode ∧ t.errInfo = s.errInfo ∧ t.errPos = s.errPos

/-- A command that does not fault leaves the error registers alone, but for RESET and ECLR. -/
theorem Answer.sameErrors {i : Instr} {s t : State} (h : Answer s i t) (hm : t.mode ≠ .fault) (hr : i ≠ .reset)
    (hc : i ≠ .eclr) : SameErrors s t := by
  cases h with
  | reset => exact absurd rfl hr
  | eclr _ => exact absurd rfl hc
  | faulted _ _ | buildFault _ _ | dbeginFault _ => exact absurd rfl hm
  | build _ _ => obtain ⟨_, _, _, e⟩ := built_frame s; rw [e]; exact ⟨rfl, rfl, rfl⟩
  | insert _ hw _ _ => obtain ⟨_, _, rfl⟩ := walk_keeps hw; exact ⟨rfl, rfl, rfl⟩
  | kept | tdrop _ | fclr _ | fadd _ | lbegin _ | ppush _ _ | lend _ | dbegin _ _ | emit _ _ | descend _ _ _
  | dend _ _ => exact ⟨rfl, rfl, rfl⟩

theorem access_fault {i : Instr} (hr : i ≠ .reset) (hc : i ≠ .eclr) : access i .fault = .drop := by
  cases i with
  | reset => exact absurd rfl hr
  | eclr => exact absurd rfl hc
  | _ => rfl

/-- So does a sequence that does not end in FAULT mode: a fault on the way would stay to its end. -/
theorem runCommands_sameErrors {l : List Instr} {s t : State} (hl : ∀ i ∈ l, i ≠ .reset ∧ i ≠ .eclr)
    (h : runCommands l s = .next t) (hm : t.mode ≠ .fault) : SameErrors s t := by
  induction l generalizing s with
  | nil => cases h; exact ⟨rfl, rfl, rfl⟩
  | cons i l ih =>
    obtain ⟨⟨hr, hc⟩, hl⟩ := List.forall_mem_cons.1 hl
    simp only [runCommands] at h
    cases hx : exec i s with
    | fault r => rw [hx] at h; exact absurd h nofun
    | refused r => rw [hx] at h; exact absurd h nofun
    | next s1 =>
      replace h : runCommands l s1 = .next t := by rw [hx] at h; exact h
      have hm1 : s1.mode ≠ .fault := by
        intro hfault
        rw [runCommands_dropped fun j hj => hfault ▸ access_fault (hl j hj).1 (hl j hj).2] at h
        cases h
        exact hm hfault
      obtain ⟨h1, h2, h3⟩ := ih hl h
      obtain ⟨e1, e2, e3⟩ := (exec_answer hx).sameErrors hm1 hr hc
      exact ⟨h1.trans e1, h2.trans e2, h3.trans e3⟩

/-- The commands of a load session. -/
theorem mem_loadCommands {records : CodeMap} {i : Instr} (h : i ∈ loadCommands records) : i ≠ .reset ∧ i ≠ .eclr := by
  simp only [loadCommands, recordCommands, List.mem_cons, List.mem_append, List.mem_flatMap, List.mem_map,
    List.not_mem_nil, or_false] at h
  rcases h with (rfl | ⟨_, _, ⟨_, _, rfl⟩ | rfl⟩) | rfl <;> exact ⟨nofun, nofun⟩

/-! ### The same place in both trees -/

theorem WholeTree.congr {s t : State} (h : WholeTree s) (he : SameTree s t) : WholeTree t := by
  obtain ⟨hn, hc, hr⟩ := he
  exact ⟨by rw [hn, hc]; exact h.keys, h.tree.congr hn hc hr, by rw [hr]; exact h.root⟩

theorem SameTree.follow_eq {s t : State} (h : SameTree s t) (q : List Byte) : follow t t.root q = follow s s.root q := by
  rw [h.2.2, Machine.follow_eq (nodeAt_congr h.1 h.2.1)]

theorem SameTree.leafAt_iff {s t : State} (h : SameTree s t) (q : List Byte) (b : Byte) :
    LeafAt t t.root q b ↔ LeafAt s s.root q b := by
  simp only [LeafAt, h.follow_eq, nodeAt_congr h.1 h.2.1]

theorem SameCodes.congr {t t' u u' : State} (h : SameCodes t u) (ht : SameTree t t') (hu : SameTree u u') :
    SameCodes t' u' :=
  ⟨h.left.congr ht, h.right.congr hu, fun q => by rw [ht.follow_eq, hu.follow_eq]; exact h.paths q,
    fun q b => by rw [ht.leafAt_iff, hu.leafAt_iff]; exact h.leaves q b⟩

/-- The path q leads to i in the one tree and to j in the other. -/
def SamePlace (t u : State) (i j : Idx) : Prop := ∃ q, follow t t.root q = some i ∧ follow u u.root q = some j

theorem SamePlace.symm {t u : State} {i j : Idx} (h : SamePlace t u i j) : SamePlace u t j i := by
  obtain ⟨q, hi, hj⟩ := h
  exact ⟨q, hj, hi⟩

theorem sideChar_inj {d d' : Side} (h : sideChar d = sideChar d') : d = d' :=
  Option.some.inj ((bitSymbol_sideChar d).symm.trans (h ▸ bitSymbol_sideChar d'))

section
variable {t u : State} {i j : Idx} {r r' : Node} {d : Side} (h : SameCodes t u) (hp : SamePlace t u i j)
include h hp

/-- Both stand at ROOT or neither does. -/
theorem SameCodes.at_root (hi : i = t.root) : j = u.root := by
  obtain ⟨q, hqi, hqj⟩ := hp
  rw [hi] at hqi
  cases h.left.tree.path_unique hqi (q := []) rfl
  exact (Option.some.inj hqj).symm

/-- Both have a child on a side, or neither does. -/
theorem SameCodes.child {k : Idx} (hk : ChildOf t i d k) : ∃ k', ChildOf u j d k' ∧ SamePlace t u k k' := by
  obtain ⟨q, hqi, hqj⟩ := hp
  have hqk := follow_child hqi hk
  obtain ⟨k', hqk'⟩ := (h.paths _).1 ⟨k, hqk⟩
  obtain ⟨j', d', hj', hd, hk'⟩ := follow_concat hqk'
  cases hqj.symm.trans hj'
  cases sideChar_inj hd
  exact ⟨k', hk', _, hqk, hqk'⟩

/-- A leaf other than ROOT is a leaf in both, with the same symbol. -/
theorem SameCodes.leaf (hroot : i ≠ t.root) (hr : nodeAt t i = some r) (hr' : nodeAt u j = some r')
    (hl : r.isLeaf = true) : r'.isLeaf = true ∧ emitted r' = emitted r := by
  cases hb : r.sym with
  | none => exact absurd (h.left.tree.bareLeaf i r hr hb hl).1 hroot
  | some b =>
    obtain ⟨q, hqi, hqj⟩ := hp
    obtain ⟨k, rk, hk, hrk, hlk, hbk⟩ := (h.leaves q b).1 ⟨i, r, hqi, hr, hl, hb⟩
    cases hqj.symm.trans hk
    cases hr'.symm.trans hrk
    exact ⟨hlk, (emitted_symbol hbk).trans (emitted_symbol hb).symm⟩

end

/-! ### The two sessions -/

/-- What R197 compares at the end of two sessions: ERRINFO only where it is no node's index. -/
structure SameEnd (v w : State) : Prop where
  mode     : w.mode = v.mode
  bytes    : outBytes w = outBytes v
  outLen   : w.outLen = v.outLen
  outValid : w.outValid = v.outValid
  errCode  : w.errCode = v.errCode
  errPos   : w.errPos = v.errPos
  errInfo  : v.errCode ≠ some .incompleteSequence → w.errInfo = v.errInfo

theorem sameEnd_decodeFault {v w : State} {e : ErrorName} {info info' pos pos' : Word} (hpos : pos' = pos)
    (hinfo : e ≠ .incompleteSequence → info' = info) : SameEnd (decodeFault v e info pos) (decodeFault w e info' pos') :=
  ⟨rfl, rfl, rfl, rfl, rfl, hpos, fun he => hinfo fun h => he (congrArg some h)⟩

theorem SameOutput.outBytes_eq {v w : State} (h : SameOutput v w) : outBytes w = outBytes v := by
  obtain ⟨hlen, _, hout⟩ := h
  have hat : outAt w = outAt v := funext fun k => by simp only [outAt, hlen, hout]
  rw [outBytes, hat, hlen]
  rfl

/-- Two decode sessions that stand at the same place of two trees with the same codes, with the same output. -/
structure InStep (v w : State) : Prop where
  modes  : v.mode = .decode ∧ w.mode = .decode
  codes  : SameCodes v w
  place  : SamePlace v w v.cur w.cur
  output : SameOutput v w
  bits   : w.bitPos = v.bitPos
  errors : SameErrors v w
  room   : v.outLen.toNat ≤ Config.params.outMax

/-- After a DBIT the two sessions are in step still, or the same fault has ended them. -/
def Onward (v w : State) : Prop := InStep v w ∨ (v.mode = .fault ∧ w.mode = .fault ∧ SameEnd v w)

section
variable {v w : State} (h : InStep v w)
include h

/-- Both descend. -/
theorem InStep.descend {k k' : Idx} (hk : SamePlace v w k k') :
    InStep (countBit { v with cur := k }) (countBit { w with cur := k' }) := by
  have hv : SameTree v (countBit { v with cur := k }) := ⟨rfl, rfl, rfl⟩
  have hw : SameTree w (countBit { w with cur := k' }) := ⟨rfl, rfl, rfl⟩
  obtain ⟨q, hq, hq'⟩ := hk
  exact ⟨h.modes, h.codes.congr hv hw, ⟨q, (hv.follow_eq q).trans hq, (hw.follow_eq q).trans hq'⟩, h.output,
    congrArg (· + 1) h.bits, h.errors, h.room⟩

/-- Both emit the same byte and are back at ROOT. -/
theorem InStep.emit (hroom : v.outLen.toNat < Config.params.outMax) (y : Byte) :
    InStep (countBit { pushOut y v with cur := v.root }) (countBit { pushOut y w with cur := w.root }) := by
  obtain ⟨hlen, hvalid, hout⟩ := h.output
  refine ⟨h.modes, h.codes.congr ⟨rfl, rfl, rfl⟩ ⟨rfl, rfl, rfl⟩, ⟨[], rfl, rfl⟩, ⟨?_, hvalid, ?_⟩,
    congrArg (· + 1) h.bits, h.errors, ?_⟩
  · show w.outLen + 1 = v.outLen + 1
    rw [hlen]
  · show Memory.write w.out w.outLen.toNat y = Memory.write v.out v.outLen.toNat y
    rw [hlen, hout]
  · exact (pushOut_count y (outLen_room hroom)).trans_le hroom

/-- Arrived at the same child, both descend, both emit, or OUT is full in both. -/
theorem InStep.arrive {d : Side} {k k' : Idx} {rc rc' : Node} (hk : ChildOf v v.cur d k) (hk' : ChildOf w w.cur d k')
    (hplace : SamePlace v w k k') (hrc : nodeAt v k = some rc) (hrc' : nodeAt w k' = some rc') :
    ∃ v' w', Machine.arrive Config.params k rc v = .next v' ∧ Machine.arrive Config.params k' rc' w = .next w' ∧
      Onward v' w' := by
  have hroot : k ≠ v.root := by rintro rfl; exact h.codes.left.tree.rootFree _ _ hk
  have hroot' : k' ≠ w.root := by rintro rfl; exact h.codes.right.tree.rootFree _ _ hk'
  cases hl : rc.isLeaf with
  | false =>
    have hl' : rc'.isLeaf = false := by
      by_contra hl'
      obtain ⟨hleaf, _⟩ := h.codes.symm.leaf hplace.symm hroot' hrc' hrc (by simpa using hl')
      exact absurd (hl.symm.trans hleaf) nofun
    exact ⟨_, _, arrive_inner hl, arrive_inner hl', .inl (h.descend hplace)⟩
  | true =>
    obtain ⟨hl', hemit⟩ := h.codes.leaf hplace hroot hrc hrc' hl
    have hlen : w.outLen.toNat = v.outLen.toNat := congrArg BitVec.toNat h.output.1
    rcases Nat.lt_or_eq_of_le h.room with hroom | hfull
    · refine ⟨_, _, arrive_leaf hl hroom, arrive_leaf hl' (hlen.trans_lt hroom), .inl ?_⟩
      rw [hemit]
      exact h.emit hroom _
    · exact ⟨_, _, arrive_full h.modes.1 hl hfull, arrive_full h.modes.2 hl' (hlen.trans hfull),
        .inr ⟨rfl, rfl, sameEnd_decodeFault h.bits fun _ => by rw [hemit]⟩⟩

/-- A DBIT keeps the sessions in step, or ends both in the same fault. -/
theorem InStep.dbit (c : Byte) :
    ∃ v' w', exec (.dbit c) v = .next v' ∧ exec (.dbit c) w = .next w' ∧ Onward v' w' := by
  obtain ⟨hmv, hmw⟩ := h.modes
  cases hb : bitSymbol c with
  | none =>
    exact ⟨_, _, exec_dbit_invalid hmv hb, exec_dbit_invalid hmw hb,
      .inr ⟨rfl, rfl, sameEnd_decodeFault h.bits fun _ => rfl⟩⟩
  | some d =>
    obtain ⟨q, hqv, hqw⟩ := h.place
    obtain ⟨r, hr⟩ := h.codes.left.path_record hqv
    obtain ⟨r', hr'⟩ := h.codes.right.path_record hqw
    by_cases hc : r.child d = NIL
    · have hc' : r'.child d = NIL := by
        by_contra hc'
        obtain ⟨_, ⟨hne, _, hx, rfl⟩, _⟩ := h.codes.symm.child h.place.symm (childOf_of_nodeAt hr' hc')
        cases hr.symm.trans hx
        exact hne hc
      exact ⟨_, _, exec_dbit_noChild hmv hb hr hc, exec_dbit_noChild hmw hb hr' hc',
        .inr ⟨rfl, rfl, sameEnd_decodeFault h.bits fun _ => rfl⟩⟩
    · have hk := childOf_of_nodeAt hr hc
      obtain ⟨_, hk', hplace⟩ := h.codes.child h.place hk
      obtain ⟨hc', _, hx, rfl⟩ := id hk'
      cases hr'.symm.trans hx
      obtain ⟨rc, hrc⟩ := h.codes.left.child_record hk
      obtain ⟨rc', hrc'⟩ := h.codes.right.child_record hk'
      rw [exec_dbit_arrives hmv hb hr hc hrc, exec_dbit_arrives hmw hb hr' hc' hrc']
      exact h.arrive hk hk' hplace hrc hrc'

/-- DEND ends both alike: both at ROOT, or both in the middle of a code. -/
theorem InStep.dend : ∃ v' w', exec .dend v = .next v' ∧ exec .dend w = .next w' ∧ SameEnd v' w' := by
  obtain ⟨hmv, hmw⟩ := h.modes
  by_cases hc : v.cur = v.root
  · have hc' := h.codes.at_root h.place hc
    obtain ⟨hcode, hinfo, hpos⟩ := h.errors
    exact ⟨_, _, exec_dend_root hmv hc, exec_dend_root hmw hc',
      ⟨rfl, SameOutput.outBytes_eq ⟨h.output.1, rfl, h.output.2.2⟩, h.output.1, rfl, hcode, hpos, fun _ => hinfo⟩⟩
  · have hc' : w.cur ≠ w.root := fun hc' => hc (h.codes.symm.at_root h.place.symm hc')
    exact ⟨_, _, exec_dend_midpath hmv hc, exec_dend_midpath hmw hc', sameEnd_decodeFault h.bits fun he => absurd rfl he⟩

end

/-- The rest of two sessions in step. -/
theorem InStep.session (bits : List Byte) : ∀ v w : State, InStep v w →
    ∃ v' w', runCommands (sessionTail bits) v = .next v' ∧ runCommands (sessionTail bits) w = .next w' ∧
      SameEnd v' w' := by
  induction bits with
  | nil =>
    intro v w h
    obtain ⟨v', w', hv, hw, hend⟩ := h.dend
    refine ⟨v', w', ?_, ?_, hend⟩ <;> simp only [sessionTail, List.map_nil, List.nil_append, runCommands, hv, hw]
  | cons c cs ih =>
    intro v w h
    obtain ⟨v1, w1, hv, hw, hnext | ⟨hmv, hmw, hend⟩⟩ := h.dbit c
    · rw [runCommands_sessionTail_cons hv, runCommands_sessionTail_cons hw]
      exact ih v1 w1 hnext
    · exact ⟨v1, w1, runCommands_sessionTail_fault hv hmv, runCommands_sessionTail_fault hw hmw, hend⟩

/-- Decode sessions over two trees with the same codes end alike. -/
theorem SameCodes.decode {t u : State} (h : SameCodes t u) (ht : t.mode = .ready) (hu : u.mode = .ready)
    (he : SameErrors t u) (bits : List Byte) : ∃ t' u', runCommands (decodeCommands bits) t = .next t' ∧
      runCommands (decodeCommands bits) u = .next u' ∧ SameEnd t' u' := by
  have hstart : InStep { restarted t with cur := t.root, mode := .decode }
      { restarted u with cur := u.root, mode := .decode } :=
    ⟨⟨rfl, rfl⟩, h.congr ⟨rfl, rfl, rfl⟩ ⟨rfl, rfl, rfl⟩, ⟨[], rfl, rfl⟩, ⟨rfl, rfl, rfl⟩, rfl, he, Nat.zero_le _⟩
  obtain ⟨t', u', hrt, hru, hend⟩ := hstart.session bits
  refine ⟨t', u', ?_, ?_, hend⟩
  · simp only [decodeCommands, List.cons_append, runCommands, exec_dbegin_tree (.inr ht) h.left.root]
    exact hrt
  · simp only [decodeCommands, List.cons_append, runCommands, exec_dbegin_tree (.inr hu) h.right.root]
    exact hru

end Sys2Proof.Machine

namespace Sys2Proof.Proofs

open Sys2Proof.Machine

/-- Settles O59: the codes of a built tree fit a load session, the reloaded tree has the same paths and leaves, and two
decode sessions over such trees stay in step. -/
theorem reconstructionEquivalence : Obligations.ReconstructionEquivalence := by
  intro s t m records bits hq ht hgen hperm
  obtain ⟨hf, hsum, rfl⟩ := built_of_codes hq ht hgen
  obtain ⟨_, hcodes, hnodup, rfl⟩ := generateCodes_eq_map_iff.1 hgen
  have hbuilt := builtTree_built hf hsum
  obtain ⟨u, hload, hmode, htable⟩ := reload_built hf hsum hperm
  obtain ⟨m', hgen', hperm'⟩ := htable.generateCodes ((hperm.map _).nodup_iff.2 hnodup)
    (fun e => hcodes (by rw [e] at hperm; exact hperm.nil_eq.symm))
  have hcount : u.nodeCnt = (built s).nodeCnt := BitVec.eq_of_toNat_eq (by
    rw [htable.count, pathParts_length_perm hperm, hbuilt.pathParts_length])
  have herrors := runCommands_sameErrors (fun _ => mem_loadCommands) hload (by rw [hmode]; exact nofun)
  obtain ⟨t', u', hrt, hru, hend⟩ := (hbuilt.sameCodes htable hperm).decode rfl hmode herrors bits
  exact ⟨u, hload, hmode, hcount, ⟨m', hgen', hperm'.trans hperm⟩, t', u', hrt, hru, hend.mode, hend.bytes, hend.outLen,
    hend.outValid, hend.errCode, hend.errPos, hend.errInfo⟩

end Sys2Proof.Proofs
end

section
/-! PROOF. A step on a command word, fault entry mode by mode, and which words and commands a mode refuses or drops
(60_exceptions.md R230 to R243). -/

namespace Sys2Proof.Machine

/-! ### One command word -/

theorem runWord_instr {w : Word} {i : Instr} (h : decode w = .instr i) (s : State) : runWord w s = exec i s := by
  simp only [runWord, h]

theorem runWord_illegal {w : Word} {why : Illegal} (h : decode w = .illegal why) (s : State) :
    runWord w s = illegalWord w s := by
  simp only [runWord, h]

/-- A step on a queued command word runs the word, the event taken from the queue. -/
theorem step_cmd {s : State} {w : Word} {rest : List HostEvent} (h : s.host.pending = .cmd w :: rest) :
    step s = runWord w (withPending s rest) := by
  simp only [step, runPending, h, runEvent]

/-- A step on a presented word runs the word, the queue as it was (log 2). -/
theorem step_withFetchWord (s : State) (w : Word) : step (s.withFetchWord 32 w.toNat) = runWord w s := by
  rw [State.withFetchWord, tableWord_toNat]
  exact step_cmd (s := presentWord w s) rfl

/-! ### What FAULT mode lets through (R243) -/

theorem illegalWord_fault {s : State} (w : Word) (hm : s.mode = .fault) : illegalWord w s = .next s := if_pos hm

theorem illegalWord_raises {s : State} (w : Word) (hm : s.mode ≠ .fault) :
    illegalWord w s = .next (raise .illegalCommand w 0 s) := if_neg hm

/-- FAULT mode drops every command but RESET and ECLR. -/
theorem exec_fault {i : Instr} {s : State} (hm : s.mode = .fault) (hr : i ≠ .reset) (hc : i ≠ .eclr) :
    exec i s = .next s := exec_drop (hm ▸ access_fault hr hc)

/-- The fault line is the level MODE = FAULT (R250). -/
theorem faultLine_eq_true_iff {s : State} : faultLine s = true ↔ s.mode = .fault := decide_eq_true_iff

/-! ### NOP, RESET and ECLR (R241) -/

/-- The rows of NOP, RESET and ECLR raise nothing in the four modes outside FAULT. -/
theorem openRow_ne_seq {fault : Access} (hf : fault ≠ .seq) (m : Mode) :
    accessRow .run .run .run .run fault m ≠ .seq := by
  cases m with
  | fault => exact hf
  | idle | load | ready | decode => nofun

/-- A command that runs in every mode but FAULT, and there runs or is dropped, is in mode everywhere. -/
theorem InMode.of_openRow {i : Instr} {fault : Access} (hrow : access i = accessRow .run .run .run .run fault)
    (hf : fault ≠ .seq) (s : State) : InMode i s := by
  intro t hx hs
  rcases exec_cases hx with ⟨_, rfl⟩ | ⟨hseq, _⟩ | ⟨hrun, hb⟩
  · exact hs
  · exact absurd (hrow ▸ hseq) (openRow_ne_seq hf s.mode)
  · exact bodyOf_errCode hrun hb hs

end Sys2Proof.Machine

namespace Sys2Proof.Proofs

open Sys2Proof.Machine

/-- Settles O19: a command's only word is its encoding (R84), so no other word is RESET or ECLR. -/
theorem faultModeDropsWords : Obligations.FaultModeDropsWords := by
  intro w s hm hreset heclr
  cases hd : decode w with
  | illegal why => rw [runWord_illegal hd, illegalWord_fault w hm]
  | instr i =>
    have hw : encode i = w := everyDecodedWordIsItsEncoding w i hd
    rw [runWord_instr hd]
    refine exec_fault hm ?_ ?_
    · rintro rfl
      exact hreset hw.symm
    · rintro rfl
      exact heclr hw.symm

/-- Settles O6. -/
theorem stepRunsTheDecodedCommand : Obligations.StepRunsTheDecodedCommand :=
  fun s w _ _ hd =>
    ⟨fun hq => (step_cmd hq).trans (runWord_instr hd _), (step_withFetchWord s w).trans (runWord_instr hd s)⟩

/-- Settles O7, by whether the mode is FAULT, and then by the fault entry of the mode. -/
theorem illegalWordFaultsOrIsDropped : Obligations.IllegalWordFaultsOrIsDropped := by
  intro s w rest why hpending hd
  have hstep : step s = illegalWord w (withPending s rest) := (step_cmd hpending).trans (runWord_illegal hd _)
  have hraise (hm : s.mode ≠ .fault) : step s = .next (raise .illegalCommand w 0 (withPending s rest)) :=
    hstep.trans (illegalWord_raises w hm)
  refine ⟨fun hq => ?_, fun hm => ?_, fun hm => ?_, fun hm => ?_⟩
  · rw [hraise hq.ne_fault, raise_quiet _ _ _ (s := withPending s rest) hq]; rfl
  · rw [hraise (by simp [hm]), raise_load _ _ _ (s := withPending s rest) hm]; rfl
  · rw [hraise (by simp [hm]), raise_decode _ _ _ (s := withPending s rest) hm]; rfl
  · exact hstep.trans (illegalWord_fault w hm)

/-- Settles O17. -/
theorem faultEntryByMode : Obligations.FaultEntryByMode :=
  ⟨fun e info pos s => ⟨raise_quiet e info pos, raise_load e info pos, raise_decode e info pos,
    faultLine_eq_true_iff.2 (raise_mode e info pos s)⟩, fun _ => faultLine_eq_true_iff⟩

/-- Settles O18: every command has one of the rows of R241. -/
theorem commandOutOfModeFaults : Obligations.CommandOutOfModeFaults := by
  refine ⟨fun a imm => ?_, fun a => ?_, fun a => ?_, ?_⟩
  · simp only [List.forall_mem_cons]
    exact ⟨.of_access rfl, .of_access rfl, .of_access rfl, .of_access rfl, .of_access rfl, .of_access rfl, nofun⟩
  · simp only [List.forall_mem_cons]
    exact ⟨.of_access rfl, .of_access rfl, .of_access rfl, nofun⟩
  · simp only [List.forall_mem_cons]
    exact ⟨.of_access rfl, .of_access rfl, nofun⟩
  · simp only [List.forall_mem_cons]
    exact ⟨.of_openRow rfl nofun, .of_openRow rfl nofun, .of_openRow rfl nofun, nofun⟩

end Sys2Proof.Proofs
end

section
/-! PROOF. The `rst` input (70_reset_and_hazards.md R260). -/

namespace Sys2Proof.Machine

/-- An `rst` pulse is taken from the queue, and the block is reset behind it. -/
theorem step_rst {s : State} {rest : List HostEvent} (h : s.host.pending = .rst :: rest) :
    step s = .next (resetState (withPending s rest)) := by
  simp only [step, runPending, h, runEvent]

end Sys2Proof.Machine

namespace Sys2Proof.Proofs

open Sys2Proof.Machine

/-- Settles O8: the reset reads only the environment's side of the state, where the pulse alone has left the queue. -/
theorem rstInputResets : Obligations.RstInputResets := by
  intro s rest hpending
  rw [step_rst hpending, resetState, withPending_host]

end Sys2Proof.Proofs
end
